-- ==== Sys2Proof/Word.lean ====
section
/-! DEFINITION. The two widths of the block: memory bytes are 8 bits, registers and memory words 32 bits (R9). -/

namespace Sys2Proof

/-- A memory byte (R9). -/
abbrev Byte := BitVec 8

/-- A register, a memory word or a bus address (R9, R50). -/
abbrev Word := BitVec 32

end Sys2Proof
end

