-- ==== Sys2Proof/Config.lean ====
section
/-! DEFINITION. The implementation parameters of 00_scope.md rule R8, as plain data. They are parameters of the
step function, fixed for a run (R33); the machine carries them in the constant field `State.cfg`, so that a
claim about every state is a claim about every instantiation (log 5). -/

namespace Sys2Proof

/-- A range of byte addresses of the shared memory: `size` bytes from `base`, modulo 2^32. -/
structure Region where
  base : Word
  size : Nat
  deriving DecidableEq, Repr

/-- `CTRLW(kind, WR, LB)`: the seven control words of R150, one per row of its table. -/
structure CtrlTable where
  /-- main data, `WR` = 0 -/
  dataRead : Word
  /-- main data, `WR` = 1 -/
  dataWrite : Word
  /-- ECC, either direction -/
  ecc : Word
  /-- spare, `WR` = 0, `LB` = 0 -/
  spareReadSmall : Word
  /-- spare, `WR` = 0, `LB` = 1 -/
  spareReadLarge : Word
  /-- spare, `WR` = 1, `LB` = 0 -/
  spareWriteSmall : Word
  /-- spare, `WR` = 1, `LB` = 1 -/
  spareWriteLarge : Word
  deriving DecidableEq, Repr

/-- The parameters of R8. `EccGen` is not among them: it belongs to the environment and the block never reads
it (R33); it is an argument of what needs a generator (`Machine.EccGenerator`, log 18). -/
structure Config where
  /-- `REG_BASE`, the bus address of the register window (R20) -/
  regBase : Word
  /-- `MemAdmit` as a memory map: a byte is admitted when some region holds it and the window does not (R51) -/
  admitted : List Region
  /-- `SP_OOBLAYOUT` (R100) -/
  spLayout : Vector (Fin 16) 6
  /-- `LP_OOBLAYOUT` (R100) -/
  lpLayout : Vector (Fin 64) 24
  /-- `SB_BB_OFFS` (R136) -/
  sbBbOffs : Fin 16
  /-- `LB_BB_OFFS` (R136) -/
  lbBbOffs : Fin 64
  /-- `GOOD_MARKER` (R136) -/
  goodMarker : Byte
  /-- `ECC_NOERR` (R116) -/
  eccNoErr : BitVec 2
  /-- `ECC_CORRECTED` (R116) -/
  eccCorrected : BitVec 2
  /-- `ECC_AREA_ERR` (R116) -/
  eccAreaErr : BitVec 2
  /-- `ECC_NOTCORRECTABLE` (R116) -/
  eccNotCorrectable : BitVec 2
  /-- `BIT_SEL`, least significant result bit first (R118) -/
  bitSel : Vector (Fin 32) 3
  /-- `BYTE_SEL`, least significant result bit first (R118) -/
  byteSel : Vector (Fin 32) 8
  /-- `LB_AREA_ERR_FAILS` (R124) -/
  lbAreaErrFails : Bool
  /-- `CTRLW` (R150) -/
  ctrl : CtrlTable
  /-- `NUM_OF_DMA_DESC` (R152) -/
  numOfDmaDesc : Nat
  deriving DecidableEq, Repr

end Sys2Proof
end

