-- ==== Sys2Proof/Machine/CtrlWord.lean ====
section
/-! DEFINITION. What a descriptor's control word makes the DMA engine move, read by the field layout of 43_dma_builder.md
rule R151. The block copies control words verbatim and never evaluates this: it is what `Config.WellFormed` asks of
the table of R150. -/

namespace Sys2Proof.Machine

open Sys2Proof

/-- Transfer size, bits 11:0, in units of the source width (R151). -/
def ctrlUnits (w : Word) : Nat := (w &&& 0x00000FFF).toNat

/-- Source width code, bits 20:18 (R151). -/
def ctrlSourceWidth (w : Word) : Nat := ((w >>> 18) &&& 0x00000007).toNat

/-- Bytes of one unit. Code 2 is R151's; 0 and 1 are those of the PL080 it names. PRESUMED, unsafe only for a claim about
what the engine moves (log 23). -/
def unitBytes : Nat → Option Nat
  | 0 => some 1
  | 1 => some 2
  | 2 => some 4
  | _ => none

/-- The bytes a descriptor with this control word moves; none for a width code without a meaning. -/
def ctrlBytes (w : Word) : Option Nat := (unitBytes (ctrlSourceWidth w)).map fun n => n * ctrlUnits w

end Sys2Proof.Machine
end

