-- ==== Sys2Proof/Syntax.lean ====
section
/-! DEFINITION. The commands of the SNE command set v1: one constructor per row of the opcode map (30_encoding.md
rule R80, opcode_table.json). A command's other operands are the operand registers (R79). -/

namespace Sys2Proof

/-- The field `LB`: page size (R76, R79). -/
inductive PageSize where
  /-- `LB` = 0: 512 + 16 bytes -/
  | small
  /-- `LB` = 1: 2048 + 64 bytes -/
  | large
  deriving DecidableEq, Repr

/-- The field `WR`: transfer direction of DMABUILD (R76). -/
inductive Direction where
  /-- `WR` = 0: NAND to memory -/
  | read
  /-- `WR` = 1: memory to NAND -/
  | write
  deriving DecidableEq, Repr

/-- A command word, decoded. The immediate is a number; R83 admits 0..255 (`Instr.WellFormed`). -/
inductive Instr where
  /-- ECCPACK, format CI; the immediate is `count` (R103) -/
  | eccpack (count : Nat)
  /-- ECCUNPACK, format CI; the immediate is `count` (R104) -/
  | eccunpack (count : Nat)
  /-- ECCCORR, format CI; the immediate is the chunk index (R117, R120) -/
  | ecccorr (idx : Nat)
  /-- ECCPAGE, format CP (R123) -/
  | eccpage (lb : PageSize)
  /-- BBCHECK, format CP (R137) -/
  | bbcheck (lb : PageSize)
  /-- BBMARK, format CP (R138) -/
  | bbmark (lb : PageSize)
  /-- DMABUILD, format CD (R148) -/
  | dmabuild (lb : PageSize) (wr : Direction)
  deriving DecidableEq, Repr

end Sys2Proof
end

