-- ==== Sys2Proof/WellFormed.lean ====
section
/-! DEFINITION. Which commands have an encoding (R83: the immediate is in 0..255), and which instantiations of the
parameters the spec allows (R8's constraints, R100, R136, R150, R152, R207). -/

namespace Sys2Proof

/-- `IMM8` has 8 bits (R76, R83); every other operand is in range by its type. -/
abbrev Instr.WellFormed : Instr → Prop
  | .eccpack imm => imm < 256
  | .eccunpack imm => imm < 256
  | .ecccorr imm => imm < 256
  | .eccpage _ => True
  | .bbcheck _ => True
  | .bbmark _ => True
  | .dmabuild _ _ => True

/-- The layout tables are injective (R8, R100; their entries are in range by their types). -/
abbrev Config.LayoutsInjective (c : Config) : Prop := c.spLayout.toList.Nodup ∧ c.lpLayout.toList.Nodup

/-- The four result codes are pairwise distinct (R8, R116). -/
abbrev Config.CodesDistinct (c : Config) : Prop :=
  [c.eccNoErr, c.eccCorrected, c.eccAreaErr, c.eccNotCorrectable].Nodup

/-- The bad-block marker is no entry of the layout table of its page size (R136, R207). -/
abbrev Config.MarkersOutside (c : Config) : Prop := c.sbBbOffs ∉ c.spLayout.toList ∧ c.lbBbOffs ∉ c.lpLayout.toList

/-- What every instantiation of the control words must keep (R150): a data descriptor moves 256 bytes, an ECC descriptor
one 32-bit register, a spare descriptor the full spare area. Read by R151's layout (log 23). -/
abbrev CtrlTable.KeepsSizes (t : CtrlTable) : Prop :=
  Machine.ctrlBytes t.dataRead = some 256 ∧ Machine.ctrlBytes t.dataWrite = some 256 ∧
  Machine.ctrlBytes t.ecc = some 4 ∧
  Machine.ctrlBytes t.spareReadSmall = some 16 ∧ Machine.ctrlBytes t.spareReadLarge = some 64 ∧
  Machine.ctrlBytes t.spareWriteSmall = some 16 ∧ Machine.ctrlBytes t.spareWriteLarge = some 64

/-- The constraints every instantiation must meet (R8, R100, R136, R150), with room for a large-block chain (R152). -/
abbrev Config.WellFormed (c : Config) : Prop :=
  c.LayoutsInjective ∧ c.CodesDistinct ∧ c.MarkersOutside ∧ c.ctrl.KeepsSizes ∧ 17 ≤ c.numOfDmaDesc

end Sys2Proof
end

