-- ==== Sys2Proof/Decode.lean ====
section
/-! DEFINITION. The decoder of 30_encoding.md rule R81, total on the 2^32 words and rejecting by name, and the
encoder written from the bit pictures of R77 and the opcode map of R80. -/

namespace Sys2Proof

/-- The seven opcodes of R80. -/
inductive Opcode where
  | eccpack | eccunpack | ecccorr | eccpage | bbcheck | bbmark | dmabuild
  deriving DecidableEq, Repr

/-- The three classes of R81. -/
inductive Decoded where
  /-- a legal command of R80 -/
  | legal (i : Instr)
  /-- R81 (1), an illegal opcode: rejected with `CmdErr(1)` -/
  | illop
  /-- R81 (2), a reserved field set: rejected with `CmdErr(2)` -/
  | rsvd
  deriving DecidableEq, Repr

/-- Field `OPC`, bits 3:0 (R76), read through the opcode map (R80): none for 0x0 and 0x8..0xF (R81). -/
def opcodeOf (w : Word) : Option Opcode :=
  match (w &&& 0x0000000F).toNat with
  | 1 => some .eccpack
  | 2 => some .eccunpack
  | 3 => some .ecccorr
  | 4 => some .eccpage
  | 5 => some .bbcheck
  | 6 => some .bbmark
  | 7 => some .dmabuild
  | _ => none

/-- Column `mask` of R80. -/
def Opcode.mask : Opcode → Word
  | .eccpack => 0xFFFF00FF
  | .eccunpack => 0xFFFF00FF
  | .ecccorr => 0xFFFF00FF
  | .eccpage => 0xFFFFFFEF
  | .bbcheck => 0xFFFFFFEF
  | .bbmark => 0xFFFFFFEF
  | .dmabuild => 0xFFFFFFCF

/-- Column `match` of R80. -/
def Opcode.pattern : Opcode → Word
  | .eccpack => 0x00000001
  | .eccunpack => 0x00000002
  | .ecccorr => 0x00000003
  | .eccpage => 0x00000004
  | .bbcheck => 0x00000005
  | .bbmark => 0x00000006
  | .dmabuild => 0x00000007

/-- Field `IMM8`, bits 15:8, zero-extended (R76, R78). -/
def immField (w : Word) : Nat := ((w >>> 8) &&& 0x000000FF).toNat

/-- Field `LB`, bit 4 (R76). -/
def lbField (w : Word) : PageSize := if w.getLsbD 4 then .large else .small

/-- Field `WR`, bit 5 (R76). -/
def wrField (w : Word) : Direction := if w.getLsbD 5 then .write else .read

/-- The command an opcode's fields give (R77). -/
def Opcode.assemble (o : Opcode) (w : Word) : Instr :=
  match o with
  | .eccpack => .eccpack (immField w)
  | .eccunpack => .eccunpack (immField w)
  | .ecccorr => .ecccorr (immField w)
  | .eccpage => .eccpage (lbField w)
  | .bbcheck => .bbcheck (lbField w)
  | .bbmark => .bbmark (lbField w)
  | .dmabuild => .dmabuild (lbField w) (wrField w)

/-- R81: illegal opcode first, then reserved bits through the opcode's mask, else legal. -/
def decode (w : Word) : Decoded :=
  match opcodeOf w with
  | none => .illop
  | some o => if w &&& o.mask = o.pattern then .legal (o.assemble w) else .rsvd

/-- Bit 4 for a page size (R76). -/
def lbBit : PageSize → Word
  | .small => 0x00000000
  | .large => 0x00000010

/-- Bit 5 for a direction (R76). -/
def wrBit : Direction → Word
  | .read => 0x00000000
  | .write => 0x00000020

/-- Bits 15:8 for an immediate (R76); only 0..255 have an encoding. -/
def immBits (imm : Nat) : Word := BitVec.ofNat 32 imm <<< 8

/-- The opcode of a command (R80). -/
def Instr.opcode : Instr → Opcode
  | .eccpack _ => .eccpack
  | .eccunpack _ => .eccunpack
  | .ecccorr _ => .ecccorr
  | .eccpage _ => .eccpage
  | .bbcheck _ => .bbcheck
  | .bbmark _ => .bbmark
  | .dmabuild _ _ => .dmabuild

/-- The command word, from the bit pictures of R77 and the opcodes of R80. -/
def encode : Instr → Word
  | .eccpack imm => immBits imm ||| 0x00000001
  | .eccunpack imm => immBits imm ||| 0x00000002
  | .ecccorr imm => immBits imm ||| 0x00000003
  | .eccpage lb => lbBit lb ||| 0x00000004
  | .bbcheck lb => lbBit lb ||| 0x00000005
  | .bbmark lb => lbBit lb ||| 0x00000006
  | .dmabuild lb wr => wrBit wr ||| lbBit lb ||| 0x00000007

/-- The command word whose low `nbits` bits are those of `w` and whose others are 0. A command word is a value on
the host's 32-bit write (R75), bit 0 least significant, so it has no byte layout of its own. -/
def tableWord (nbits w : Nat) : Nat := w % 2 ^ nbits

/-- The instruction the decoder reads from such a word; none where it refuses the word, or where the bits do not
fit one 32-bit word (R75: there is one length). -/
def decodeTableWord (nbits w : Nat) : Option Instr :=
  if tableWord nbits w < 2 ^ 32 then
    match decode (BitVec.ofNat 32 (tableWord nbits w)) with
    | .legal i => some i
    | .illop => none
    | .rsvd => none
  else none

end Sys2Proof
end

