-- ==== Sys2Proof/Machine/Bits.lean ====
section
/-! DEFINITION. Bit-level helpers of 00_scope.md rules R10 to R12: population count, byte selection, little-endian
assembly (R52 to R54), the assembly of a number from selected bits (R118). -/

namespace Sys2Proof.Machine

open Sys2Proof

/-- `popcount32(v)`: the number of bits that are 1 (R11). -/
def popcount32 (v : Word) : Nat := ((List.range 32).filter fun i => v.getLsbD i).length

/-- `v[8j+7:8j]` (R9, R54). -/
def byteOf (v : Word) (j : Nat) : Byte := v.extractLsb' (8 * j) 8

/-- `b3 ++ b2 ++ b1 ++ b0` (R52). -/
def wordOfBytes (b3 b2 b1 b0 : Byte) : Word := b3 ++ b2 ++ b1 ++ b0

/-- `zext_32(b2 ++ b1 ++ b0)` (R104). -/
def word24 (b2 b1 b0 : Byte) : Word := wordOfBytes 0x00 b2 b1 b0

/-- The low two bits of an address are 0 (R56). -/
def wordAligned (a : Word) : Bool := decide (a &&& 0x00000003 = 0x00000000)

/-- `addr = (base + offset) mod 2^32` (R58). -/
def addrAt (base : Word) (offset : Nat) : Word := base + BitVec.ofNat 32 offset

/-- The number whose bit `j` is the bit of `v` at the `j`-th listed position, the least significant first (R118). -/
def gatherBits (v : Word) : List (Fin 32) → Nat
  | [] => 0
  | p :: ps => (v.getLsbD p.val).toNat + 2 * gatherBits v ps

end Sys2Proof.Machine
end

