-- ==== Sys2Proof/Machine/Defaults.lean ====
section
/-! DEFINITION. The instantiation of the parameters that `State.reset` carries: the spec's defaults (R8), and the
model's own choice for the two parameters the spec leaves OPEN. -/

namespace Sys2Proof.Machine

open Sys2Proof

/-- Default control words of R150. -/
def defaultCtrl : CtrlTable where
  dataRead := 0x0A489040
  dataWrite := 0x05489040
  ecc := 0x02480001
  spareReadSmall := 0x8A489004
  spareReadLarge := 0x8A489010
  spareWriteSmall := 0x85489004
  spareWriteLarge := 0x85489010

/-- `REG_BASE` is OPEN in R8 (D2): DESIGN CHOICE, unsafe (log 6). -/
def defaultRegBase : Word := 0x40000000

/-- `MemAdmit` is OPEN in R8 (D8): true everywhere outside the window, the instantiation R51 names for a platform
without bus faults. DESIGN CHOICE, unsafe (log 7). -/
def defaultAdmitted : List Region := [⟨0x00000000, 2 ^ 32⟩]

/-- The defaults of R8 (log 19), R100, R116, R118, R124, R136, R150, R152. -/
def defaultConfig : Config where
  regBase := defaultRegBase
  admitted := defaultAdmitted
  spLayout := #v[10, 11, 12, 13, 14, 15]
  lpLayout := #v[40, 41, 42, 43, 44, 45, 46, 47, 48, 49, 50, 51, 52, 53, 54, 55, 56, 57, 58, 59, 60, 61, 62, 63]
  sbBbOffs := 5
  lbBbOffs := 0
  goodMarker := 0xFF
  eccNoErr := 0
  eccCorrected := 1
  eccAreaErr := 2
  eccNotCorrectable := 3
  bitSel := #v[1, 3, 5]
  byteSel := #v[7, 9, 11, 13, 15, 17, 19, 21]
  lbAreaErrFails := false
  ctrl := defaultCtrl
  numOfDmaDesc := 17

end Sys2Proof.Machine
end

