-- ==== Sys2Proof/Machine/Memory.lean ====
section
/-! DEFINITION. The shared memory `M` of R31 and R50: 2^32 bytes, kept as a list of cells in one canonical form
(addresses strictly rising, no cell equal to what an unlisted address reads as). -/

namespace Sys2Proof.Machine

open Sys2Proof

/-- `M`, sparse: the bytes that differ from `unlistedByte`. -/
abbrev Memory := List Host.Cell

/-- What an address that nothing has written reads as. R34 says memory after reset is "whatever the platform left":
DESIGN CHOICE, unsafe (log 4). -/
def unlistedByte : Byte := 0x00

/-- The byte at an address. -/
def Memory.read : Memory → Nat → Byte
  | [], _ => unlistedByte
  | (a, b) :: m, x => if a = x then b else Memory.read m x

/-- The cells without those at an address. -/
def Memory.erase : Memory → Nat → Memory
  | [], _ => []
  | (a, b) :: m, x => if a = x then Memory.erase m x else (a, b) :: Memory.erase m x

/-- A cell put in its place by address. -/
def Memory.insert : Memory → Nat → Byte → Memory
  | [], x, v => [(x, v)]
  | (a, b) :: m, x, v => if x < a then (x, v) :: (a, b) :: m else (a, b) :: Memory.insert m x v

/-- `M[x] <- v`. Writing what an unlisted address reads as removes the cell, so equal memories are equal lists. -/
def Memory.write (m : Memory) (x : Nat) (v : Byte) : Memory :=
  if v = unlistedByte then m.erase x else (m.erase x).insert x v

/-- Canonical form from address `lo` on. -/
def Memory.wfFrom : Nat → Memory → Bool
  | _, [] => true
  | lo, (a, b) :: m => decide (lo ≤ a) && decide (a < 2 ^ 32) && decide (b ≠ unlistedByte) && Memory.wfFrom (a + 1) m

/-- The canonical form: addresses strictly rising and below 2^32, no cell equal to `unlistedByte`. -/
def Memory.wf (m : Memory) : Bool := Memory.wfFrom 0 m

end Sys2Proof.Machine
end

