-- ==== Sys2Proof/Machine/State.lean ====
section
/-! DEFINITION. The state of the block (10_state.md), the bus events that drive it, and the reasons a step can stop. -/

namespace Sys2Proof.Machine

open Sys2Proof

/-- The seven operand registers P0 to P6 (R22). -/
inductive OperandReg where
  | sparePtr | eccPtr | genPtr | bufPtr | descPtr | dataregPtr | eccregPtr
  deriving DecidableEq, Repr

/-- The eleven registers of the window (R20). -/
inductive WindowReg where
  | cmd | status | result | chunkstat
  | operand (r : OperandReg)
  deriving DecidableEq, Repr

/-- The operand registers' contents, each 32 bits, every bit implemented (R22). -/
structure OperandFile where
  /-- P0: the spare (OOB) image -/
  sparePtr : Word
  /-- P1: the syndrome array -/
  eccPtr : Word
  /-- P2: the generated-syndrome array -/
  genPtr : Word
  /-- P3: the main-area data buffer -/
  bufPtr : Word
  /-- P4: the descriptor array -/
  descPtr : Word
  /-- P5: the SLC controller's DMA data port -/
  dataregPtr : Word
  /-- P6: the hardware ECC register -/
  eccregPtr : Word
  deriving DecidableEq, Repr

/-- One thing that happens outside the block between two steps of it (R6, R20, R185, R200). Held in `State.pending`
because a step takes no input (log 1). -/
inductive BusEvent where
  /-- a host write of `bits` bits at an offset of the window (R21) -/
  | hostWrite (offset : BitVec 6) (bits : Nat) (value : Word)
  /-- a host read of `bits` bits at an offset of the window (R21) -/
  | hostRead (offset : BitVec 6) (bits : Nat)
  /-- a host read of `count` bytes of `M` from an address on (R6, R54) -/
  | hostLoad (addr : Word) (count : Nat)
  /-- the host, the DMA engine or the SLC controller writes bytes of `M` from an address on (R31, R200) -/
  | envWrite (addr : Word) (bytes : List Byte)
  /-- the platform's reset, between commands (R185, R186) -/
  | platformReset
  deriving DecidableEq, Repr

/-- The model faults of R174 about registers nothing has written since reset. They mark the run and do not stop it
(log 3): unsafe where a claim rests on the value read, so a claim may ask for `mark = none`. -/
inductive Mark where
  /-- R174 `UnwrittenOperand(NAME)`: a command read an operand register not written since reset -/
  | unwrittenOperand (r : OperandReg)
  /-- R174 `UnwrittenRead(NAME)`: the host read a register not written since reset -/
  | unwrittenRead (r : WindowReg)
  deriving DecidableEq, Repr

/-- The machine: the registers of R20, the shared memory of R31, what R34 and R174 say of registers not written yet,
the parameters of R33, and the model's own `pending`, `hostData` and `hostBytes`. -/
structure State where
  /-- `CMD`: the last command word written (R24) -/
  cmd : Word
  /-- `STATUS` (R25) -/
  status : Word
  /-- `RESULT` (R26) -/
  result : Word
  /-- `CHUNKSTAT` (R28) -/
  chunkstat : Word
  /-- P0 to P6 (R22) -/
  operands : OperandFile
  /-- `M` (R31) -/
  mem : Memory
  /-- the registers without a specified reset value that nothing has written since reset (R34) -/
  unwritten : List WindowReg
  /-- the first model fault of R174 about such a register, kept for the rest of the run -/
  mark : Option Mark
  /-- the bus events still to come, in order (the model's own; log 1) -/
  pending : List BusEvent
  /-- the word the last host read of the window returned (the model's own; log 13) -/
  hostData : Option Word
  /-- the bytes the last host read of `M` returned, the lowest address first (the model's own; log 13) -/
  hostBytes : List Byte
  /-- the parameters of R8; no step changes them (R33) -/
  cfg : Config
  deriving DecidableEq, Repr

/-- Why the machine stops. -/
inductive Fault where
  /-- R174 `MemFault(addr)`, raised by the byte and word accesses of an operation (`State.readByte`, `readWord`,
  `writeByte`, `writeWord`): a byte touched is not admitted or lies in the register window. Safe: the hardware may
  go on where the model stops. -/
  | memFault (addr : Word)
  /-- R174 `BadHostAccess`, raised by `hostWrite` and `hostRead`: a window access that is not 32 bits wide and
  4-byte aligned. Safe, as above. -/
  | badHostAccess (offset : BitVec 6) (bits : Nat)
  deriving DecidableEq, Repr

/-- Why the machine gives no meaning. -/
inductive Refusal where
  /-- raised by `exec` for an instruction without a meaning; safe. Every instruction of this model has one, so no
  arm raises it. -/
  | notModelled (mnemonic : String)
  deriving DecidableEq, Repr

/-- The registers R34 gives no reset value: 0. DESIGN CHOICE, unsafe (log 2). -/
def unspecifiedAtReset : Word := 0x00000000

/-- The operand registers after reset (R34: unspecified). -/
def OperandFile.reset : OperandFile where
  sparePtr := unspecifiedAtReset
  eccPtr := unspecifiedAtReset
  genPtr := unspecifiedAtReset
  bufPtr := unspecifiedAtReset
  descPtr := unspecifiedAtReset
  dataregPtr := unspecifiedAtReset
  eccregPtr := unspecifiedAtReset

/-- The registers R34 calls unspecified. -/
def unwrittenAtReset : List WindowReg :=
  [.result, .chunkstat, .operand .sparePtr, .operand .eccPtr, .operand .genPtr, .operand .bufPtr,
   .operand .descPtr, .operand .dataregPtr, .operand .eccregPtr]

/-- R34, R185: the registers at their reset values; memory, parameters and what lies outside the block untouched. -/
def State.afterReset (s : State) : State :=
  { s with
    cmd := 0x00000000
    status := 0x00000000
    result := unspecifiedAtReset
    chunkstat := unspecifiedAtReset
    operands := OperandFile.reset
    unwritten := unwrittenAtReset }

/-- The machine right after reset (R34): nothing listed in memory, no event pending, no read made, no mark, the
parameters of `defaultConfig`. -/
def State.reset : State where
  cmd := 0x00000000
  status := 0x00000000
  result := unspecifiedAtReset
  chunkstat := unspecifiedAtReset
  operands := OperandFile.reset
  mem := []
  unwritten := unwrittenAtReset
  mark := none
  pending := []
  hostData := none
  hostBytes := []
  cfg := defaultConfig

end Sys2Proof.Machine
end

