-- ==== Sys2Proof/Machine/Ops.lean ====
section
/-! DEFINITION. The named operations over registers and memory: which bytes the platform admits (R51), `MemRead`
and `MemWrite` (R52, R53), the register file with its written-since-reset bookkeeping (R34, R174), and command
rejection (R168), the only thing like an exception the block has. There is no return from it: R169 says there is
nothing to restore, and the next write to `CMD` overwrites `STATUS`. -/

namespace Sys2Proof.Machine

open Sys2Proof

/-! ### Admission (R51) -/

/-- `a` is one of the `size` bytes from `base`, modulo 2^32. -/
def inRange (base : Word) (size : Nat) (a : Word) : Bool := decide ((a - base).toNat < size)

/-- The 64 bytes of the register window (R20). -/
def inWindow (c : Config) (a : Word) : Bool := inRange c.regBase 64 a

/-- `MemAdmit` together with R51's rule that the block never reaches its own window. -/
def admits (c : Config) (a : Word) : Bool :=
  !inWindow c a && c.admitted.any fun r => inRange r.base r.size a

/-- Every byte of the word at `a` is admitted (R52, R53). -/
def admitsWord (c : Config) (a : Word) : Bool :=
  admits c a && admits c (addrAt a 1) && admits c (addrAt a 2) && admits c (addrAt a 3)

/-! ### Memory (R52 to R54) -/

/-- `M[a]`, with no check: what a byte of memory holds. -/
def State.peek (s : State) (a : Word) : Byte := s.mem.read a.toNat

/-- `M[a+3] ++ M[a+2] ++ M[a+1] ++ M[a]`, with no check. -/
def State.peekWord (s : State) (a : Word) : Word :=
  wordOfBytes (s.peek (addrAt a 3)) (s.peek (addrAt a 2)) (s.peek (addrAt a 1)) (s.peek a)

/-- `M[a] <- v`, with no check. -/
def State.poke (s : State) (a : Word) (v : Byte) : State := { s with mem := s.mem.write a.toNat v }

/-- The four byte assignments of R53, with no check. -/
def State.pokeWord (s : State) (a : Word) (v : Word) : State :=
  (((s.poke a (byteOf v 0)).poke (addrAt a 1) (byteOf v 1)).poke (addrAt a 2) (byteOf v 2)).poke (addrAt a 3) (byteOf v 3)

/-- `n` consecutive bytes of `M` from `a` on, with no check (a host read of the shared memory, R6). -/
def State.peekBytes (s : State) (a : Word) : Nat → List Byte
  | 0 => []
  | n + 1 => s.peek a :: State.peekBytes s (addrAt a 1) n

/-- Consecutive bytes from `a` on, with no check (an environment write, R200). -/
def State.pokeBytes (s : State) (a : Word) : List Byte → State
  | [] => s
  | b :: bs => State.pokeBytes (s.poke a b) (addrAt a 1) bs

/-- `MemRead(a, 1)` (R51, R52). -/
def State.readByte (s : State) (a : Word) : Except Fault Byte :=
  if admits s.cfg a then .ok (s.peek a) else .error (.memFault a)

/-- `MemRead(a, 4)` (R51, R52). -/
def State.readWord (s : State) (a : Word) : Except Fault Word :=
  if admitsWord s.cfg a then .ok (s.peekWord a) else .error (.memFault a)

/-- `MemWrite(a, 1, v)` (R51, R53). -/
def State.writeByte (s : State) (a : Word) (v : Byte) : Except Fault State :=
  if admits s.cfg a then .ok (s.poke a v) else .error (.memFault a)

/-- `MemWrite(a, 4, v)`, one indivisible access (R51, R53). -/
def State.writeWord (s : State) (a : Word) (v : Word) : Except Fault State :=
  if admitsWord s.cfg a then .ok (s.pokeWord a v) else .error (.memFault a)

/-! ### Registers (R20, R22, R34) -/

/-- `x[NAME]` of an operand register. -/
def OperandFile.get (f : OperandFile) : OperandReg → Word
  | .sparePtr => f.sparePtr
  | .eccPtr => f.eccPtr
  | .genPtr => f.genPtr
  | .bufPtr => f.bufPtr
  | .descPtr => f.descPtr
  | .dataregPtr => f.dataregPtr
  | .eccregPtr => f.eccregPtr

/-- `x[NAME] <- v` of an operand register. -/
def OperandFile.set (f : OperandFile) (r : OperandReg) (v : Word) : OperandFile :=
  match r with
  | .sparePtr => { f with sparePtr := v }
  | .eccPtr => { f with eccPtr := v }
  | .genPtr => { f with genPtr := v }
  | .bufPtr => { f with bufPtr := v }
  | .descPtr => { f with descPtr := v }
  | .dataregPtr => { f with dataregPtr := v }
  | .eccregPtr => { f with eccregPtr := v }

/-- The contents of an operand register. -/
def State.reg (s : State) (r : OperandReg) : Word := s.operands.get r

/-- The contents of any register of the window. -/
def State.windowValue (s : State) : WindowReg → Word
  | .cmd => s.cmd
  | .status => s.status
  | .result => s.result
  | .chunkstat => s.chunkstat
  | .operand r => s.reg r

/-- A register has been written (R34). -/
def State.noteWritten (s : State) (r : WindowReg) : State :=
  { s with unwritten := s.unwritten.filter fun x => decide (x ≠ r) }

/-- R174: the run is marked at the first fault and keeps that mark. -/
def State.markRun (s : State) (m : Mark) : State :=
  match s.mark with
  | none => { s with mark := some m }
  | some _ => s

/-- A command reads an operand register: R174 `UnwrittenOperand` when nothing has written it since reset. -/
def State.noteRead (s : State) (r : OperandReg) : State :=
  if .operand r ∈ s.unwritten then s.markRun (.unwrittenOperand r) else s

/-- A command reads operand registers, in order. -/
def State.noteReads (s : State) : List OperandReg → State
  | [] => s
  | r :: rs => State.noteReads (s.noteRead r) rs

/-- The host writes an operand register (R22). -/
def State.setOperand (s : State) (r : OperandReg) (v : Word) : State :=
  State.noteWritten { s with operands := s.operands.set r v } (.operand r)

/-- `x[RESULT] <- v` by a command (R26). -/
def State.setResult (s : State) (v : Word) : State := State.noteWritten { s with result := v } .result

/-- `x[CHUNKSTAT] <- v` by a command (R28). -/
def State.setChunkstat (s : State) (v : Word) : State := State.noteWritten { s with chunkstat := v } .chunkstat

/-! ### Acceptance and rejection (R166 to R168) -/

/-- The three rejection causes of R167. -/
inductive CmdErr where
  | illop | rsvd | align
  deriving DecidableEq, Repr

/-- Column `code` of R167. -/
def CmdErr.code : CmdErr → Word
  | .illop => 1
  | .rsvd => 2
  | .align => 3

/-- `raise CmdErr(code)` (R168): `STATUS` and nothing else. -/
def State.raiseCmdErr (s : State) (e : CmdErr) : State := { s with status := 0x00000002 ||| (e.code <<< 4) }

/-- R166 step 4, after the operation: `x[STATUS] <- 0x00000001`. -/
def State.complete (s : State) : State := { s with status := 0x00000001 }

/-- R166 step 3: read the registers marked `a` in order and test each for alignment; the first that fails decides
and later registers are not read. A register read here that nothing has written marks the run even when a later one is
misaligned and the command is rejected: R166 and R174 say so, R171 says a model fault needs an accepted command.
DESIGN CHOICE, safe (log 22). -/
def State.readAligned : List OperandReg → State → State × Bool
  | [], s => (s, true)
  | r :: rs, s => if wordAligned (s.reg r) then State.readAligned rs (s.noteRead r) else (s.noteRead r, false)

/-- Go on with what an access answered, or end the run with its model fault (R51: at the point where it occurs). -/
def andThen {α β : Type} (r : Except Fault α) (f : α → Except Fault β) : Except Fault β :=
  match r with
  | .ok a => f a
  | .error e => .error e

/-- Run `f` on each index in order, stopping at the first model fault (R12: `for k in a..b`). -/
def forEach (f : Nat → State → Except Fault State) : List Nat → State → Except Fault State
  | [], s => .ok s
  | k :: ks, s => andThen (f k s) fun t => forEach f ks t

/-- The end of an accepted command: the `STATUS` update of R166 step 4, or the model fault that ended the run. -/
def finish : Except Fault State → Host.Outcome State Fault Refusal
  | .ok t => .next t.complete
  | .error e => .fault e

end Sys2Proof.Machine
end

