-- ==== Sys2Proof/Machine/Operands.lean ====
section
/-! DEFINITION. The operand forms: which registers each command reads (R23), what `LB` selects (R79), every address
a command forms (R58, R117, R149), and step 3 of acceptance over them (R166). -/

namespace Sys2Proof.Machine

open Sys2Proof

/-! ### Which command reads which operand register (R23) -/

/-- The registers marked `a` in R23, in the table's order: read and tested at acceptance (R166 step 3). -/
def alignedRegs : Instr → List OperandReg
  | .eccpack _ => [.eccPtr]
  | .eccunpack _ => [.eccPtr]
  | .ecccorr _ => [.eccPtr, .genPtr]
  | .eccpage _ => [.eccPtr, .genPtr]
  | .bbcheck _ => []
  | .bbmark _ => []
  | .dmabuild _ _ => [.descPtr]

/-- The other registers R23 marks, `r` or `v`, in the table's order: read once the command is accepted. -/
def plainRegs : Instr → List OperandReg
  | .eccpack _ => [.sparePtr]
  | .eccunpack _ => [.sparePtr]
  | .ecccorr _ => [.bufPtr]
  | .eccpage _ => [.sparePtr, .bufPtr]
  | .bbcheck _ => [.sparePtr]
  | .bbmark _ => [.sparePtr]
  | .dmabuild _ _ => [.sparePtr, .genPtr, .bufPtr, .dataregPtr, .eccregPtr]

/-- Every register a command reads, in the order it reads them (R23, R166). -/
def readRegs (i : Instr) : List OperandReg := alignedRegs i ++ plainRegs i

/-- Every register marked `a` for the command holds a 4-byte-aligned address: R166 step 3 raises nothing (R56). -/
def operandsAligned (i : Instr) (s : State) : Bool := (alignedRegs i).all fun r => wordAligned (s.reg r)

/-- Acceptance from step 3 on (R166), for a word already classified as legal: alignment, the operation, `STATUS`. -/
def accept (i : Instr) (op : State → Except Fault State) (s : State) : Host.Outcome State Fault Refusal :=
  match State.readAligned (alignedRegs i) s with
  | (t, true) => finish (op (t.noteReads (plainRegs i)))
  | (t, false) => .next (t.raiseCmdErr .align)

/-! ### What `LB` selects (R79) -/

/-- `n`: syndromes, and 256-byte chunks, of a page (R7). -/
def chunksOf : PageSize → Nat
  | .small => 2
  | .large => 8

/-- Main-area bytes of a page (R7). -/
def mainBytes : PageSize → Word
  | .small => 512
  | .large => 2048

/-- Descriptors of a chain, `2n + 1` (R146). -/
def descriptorsOf (lb : PageSize) : Nat := 2 * chunksOf lb + 1

/-- The page size an ECCPACK or ECCUNPACK `count` selects; none is the document's invalid count (R103, R104). -/
def pageOfCount (count : Nat) : Option PageSize :=
  if count = 2 then some .small else if count = 8 then some .large else none

/-- Entry `e` of the layout table of a page size (R100). -/
def layoutEntry (c : Config) (lb : PageSize) (e : Nat) : Nat :=
  match lb with
  | .small => ((c.spLayout.toList.map Fin.val)[e]?).getD 0
  | .large => ((c.lpLayout.toList.map Fin.val)[e]?).getD 0

/-- Spare-area offset of the bad-block marker (R136, R137). -/
def markerOffset (c : Config) : PageSize → Nat
  | .small => c.sbBbOffs.val
  | .large => c.lbBbOffs.val

/-! ### Addresses of the objects of R31 (R58) -/

/-- The spare byte of layout entry `e`. -/
def State.spareAddr (s : State) (lb : PageSize) (e : Nat) : Word := addrAt (s.reg .sparePtr) (layoutEntry s.cfg lb e)

/-- The bad-block marker byte (R137). -/
def State.markerAddr (s : State) (lb : PageSize) : Word := addrAt (s.reg .sparePtr) (markerOffset s.cfg lb)

/-- Word `k` of the stored-syndrome array. -/
def State.eccAddr (s : State) (k : Nat) : Word := addrAt (s.reg .eccPtr) (4 * k)

/-- Word `k` of the generated-syndrome array. -/
def State.genAddr (s : State) (k : Nat) : Word := addrAt (s.reg .genPtr) (4 * k)

/-- First byte of chunk `idx` of the data buffer (R117). -/
def State.chunkAddr (s : State) (idx : Nat) : Word := addrAt (s.reg .bufPtr) (256 * idx)

/-- The four bytes of the word at `a` (R53). -/
def wordBytes (a : Word) : List Word := [a, addrAt a 1, addrAt a 2, addrAt a 3]

/-- Word `j` of descriptor `i` (R145). -/
def State.descAddr (s : State) (i j : Nat) : Word := addrAt (s.reg .descPtr) (16 * i + 4 * j)

end Sys2Proof.Machine
end

