-- ==== Sys2Proof/Machine/BadBlock.lean ====
section
/-! DEFINITION. BBCHECK and BBMARK (42_badblock.md): the marker byte of the spare image, tested (R137) or written
(R138). -/

namespace Sys2Proof.Machine

open Sys2Proof

/-- `BAD_MARKER`, fixed by the document (R7, R135). -/
def badMarker : Byte := 0xFE

/-- The operation of BBCHECK (R137). -/
def checkOp (lb : PageSize) (s : State) : Except Fault State :=
  andThen (s.readByte (s.markerAddr lb)) fun m => .ok (s.setResult (if m ≠ s.cfg.goodMarker then 1 else 0))

/-- The operation of BBMARK (R138). -/
def markOp (lb : PageSize) (s : State) : Except Fault State :=
  andThen (s.writeByte (s.markerAddr lb) badMarker) fun t => .ok (t.setResult 1)

/-- BBCHECK (R137). -/
def execBbcheck (lb : PageSize) (s : State) : Host.Outcome State Fault Refusal :=
  accept (.bbcheck lb) (checkOp lb) s

/-- BBMARK (R138). -/
def execBbmark (lb : PageSize) (s : State) : Host.Outcome State Fault Refusal :=
  accept (.bbmark lb) (markOp lb) s

end Sys2Proof.Machine
end

