-- ==== Sys2Proof/Machine/DmaBuilder.lean ====
section
/-! DEFINITION. DMABUILD (43_dma_builder.md): the descriptor of R145, the kinds and addresses of R146 and R149, the
control words of R150, and the loop of R148. -/

namespace Sys2Proof.Machine

open Sys2Proof

/-- The four words of a descriptor, in order (R145). -/
structure Descriptor where
  src : Word
  dst : Word
  next : Word
  ctrl : Word
  deriving DecidableEq, Repr

/-- The three kinds of R146; data and ECC descriptors belong to a chunk. -/
inductive DescKind where
  | data (k : Nat)
  | ecc (k : Nat)
  | spare
  deriving DecidableEq, Repr

/-- `CTRLW(kind, WR, LB)` (R150). -/
def ctrlWord (c : Config) (kind : DescKind) (wr : Direction) (lb : PageSize) : Word :=
  match kind, wr, lb with
  | .data _, .read, _ => c.ctrl.dataRead
  | .data _, .write, _ => c.ctrl.dataWrite
  | .ecc _, _, _ => c.ctrl.ecc
  | .spare, .read, .small => c.ctrl.spareReadSmall
  | .spare, .read, .large => c.ctrl.spareReadLarge
  | .spare, .write, .small => c.ctrl.spareWriteSmall
  | .spare, .write, .large => c.ctrl.spareWriteLarge

/-- `DataAddrs`, `EccAddrs` and `SpareAddrs`: source and destination of each kind (R149). -/
def descAddrs (s : State) (kind : DescKind) (wr : Direction) : Word × Word :=
  match kind, wr with
  | .data k, .read => (s.reg .dataregPtr, s.chunkAddr k)
  | .data k, .write => (s.chunkAddr k, s.reg .dataregPtr)
  | .ecc k, _ => (s.reg .eccregPtr, s.genAddr k)
  | .spare, .read => (s.reg .dataregPtr, s.reg .sparePtr)
  | .spare, .write => (s.reg .sparePtr, s.reg .dataregPtr)

/-- The kind of descriptor `i` of a chain (R146): data and ECC alternate, the spare descriptor ends it. -/
def kindOf (lb : PageSize) (i : Nat) : DescKind :=
  if i = 2 * chunksOf lb then .spare
  else if i % 2 = 0 then .data (i / 2)
  else .ecc (i / 2)

/-- Word `next` of descriptor `i` (R148): 0 in the last one. -/
def nextPointer (s : State) (lb : PageSize) (i : Nat) : Word :=
  if i = descriptorsOf lb - 1 then 0x00000000 else addrAt (s.reg .descPtr) (16 * (i + 1))

/-- Descriptor `i` of the chain (R146 to R150). -/
def descriptorAt (s : State) (lb : PageSize) (wr : Direction) (i : Nat) : Descriptor where
  src := (descAddrs s (kindOf lb i) wr).1
  dst := (descAddrs s (kindOf lb i) wr).2
  next := nextPointer s lb i
  ctrl := ctrlWord s.cfg (kindOf lb i) wr lb

/-- `WriteDesc` (R148): the four words in ascending address order. -/
def writeDescriptor (i : Nat) (d : Descriptor) (s : State) : Except Fault State :=
  andThen (s.writeWord (s.descAddr i 0) d.src) fun s1 =>
  andThen (s1.writeWord (s1.descAddr i 1) d.dst) fun s2 =>
  andThen (s2.writeWord (s2.descAddr i 2) d.next) fun s3 =>
  s3.writeWord (s3.descAddr i 3) d.ctrl

/-- One descriptor of the chain, its values taken from the registers. -/
def buildDescriptor (lb : PageSize) (wr : Direction) (i : Nat) (s : State) : Except Fault State :=
  writeDescriptor i (descriptorAt s lb wr i) s

/-- The operation of DMABUILD (R148): descriptors 0, 1, ..., 2n in order, then their number in `RESULT`. -/
def buildOp (lb : PageSize) (wr : Direction) (s : State) : Except Fault State :=
  andThen (forEach (buildDescriptor lb wr) (List.range (descriptorsOf lb)) s) fun t =>
  .ok (t.setResult (BitVec.ofNat 32 (descriptorsOf lb)))

/-- DMABUILD (R148). -/
def execDmabuild (lb : PageSize) (wr : Direction) (s : State) : Host.Outcome State Fault Refusal :=
  accept (.dmabuild lb wr) (buildOp lb wr) s

end Sys2Proof.Machine
end

