-- ==== Sys2Proof/Machine/Flags.lean ====
section
/-! DEFINITION. The status a host can branch on (R29): the fields of `STATUS` (R25), the outcome codes and the
per-chunk fields of `CHUNKSTAT` (R28, R116), the page result and its collation rule (R123, R124). The block has no
condition codes. -/

namespace Sys2Proof.Machine

open Sys2Proof

/-- `STATUS.DONE`, bit 0 (R25). -/
def statusDone (v : Word) : Bool := v.getLsbD 0

/-- `STATUS.CMDERR`, bit 1 (R25). -/
def statusCmdErr (v : Word) : Bool := v.getLsbD 1

/-- `STATUS.ERRCODE`, bits 7:4 (R25). -/
def statusErrCode (v : Word) : BitVec 4 := v.extractLsb' 4 4

/-- The legal values of `STATUS` (R25). -/
def legalStatus : List Word := [0x00000000, 0x00000001, 0x00000012, 0x00000022, 0x00000032]

/-- The four outcomes of the corrector (R116). -/
inductive EccOutcome where
  | noErr | corrected | areaErr | notCorrectable
  deriving DecidableEq, Repr

/-- The 2-bit code of an outcome (R8, R116). -/
def outcomeCode (c : Config) : EccOutcome → BitVec 2
  | .noErr => c.eccNoErr
  | .corrected => c.eccCorrected
  | .areaErr => c.eccAreaErr
  | .notCorrectable => c.eccNotCorrectable

/-- The decision table of R116, over `err`. -/
def classifyErr (err : Word) : EccOutcome :=
  if err = 0x00000000 then .noErr
  else if popcount32 err = 11 then .corrected
  else if popcount32 err = 1 then .areaErr
  else .notCorrectable

/-- The field of chunk `i` of a `CHUNKSTAT` value, bits `[2i+1:2i]` (R28). -/
def chunkField (v : Word) (i : Nat) : BitVec 2 := v.extractLsb' (2 * i) 2

/-- `zext_32(st) << (2*i)` (R123). -/
def chunkBits (st : BitVec 2) (i : Nat) : Word := st.setWidth 32 <<< (2 * i)

/-- `PageFails(LB, st)` (R124). -/
def pageFails (c : Config) (lb : PageSize) (st : BitVec 2) : Bool :=
  match lb with
  | .small => decide (st ≠ c.eccNoErr) && decide (st ≠ c.eccCorrected)
  | .large => decide (st = c.eccNotCorrectable) || (decide (st = c.eccAreaErr) && c.lbAreaErrFails)

/-- The failure value of ECCPAGE, the document's `-1` (R124). -/
def pageFailure : Word := 0xFFFFFFFF

end Sys2Proof.Machine
end

