-- ==== Sys2Proof/Machine/EccPack.lean ====
section
/-! DEFINITION. ECCPACK and ECCUNPACK (40_ecc_pack.md): the syndrome transform of R101, the byte order of R102, and
the two loops of R103 and R104. -/

namespace Sys2Proof.Machine

open Sys2Proof

/-- `(~(v << 2)) & 0x00FFFFFF` (R101). -/
def packSyndrome (v : Word) : Word := ~~~(v <<< 2) &&& 0x00FFFFFF

/-- `((~u) >> 2) & 0x003FFFFF` (R101). -/
def unpackSyndrome (u : Word) : Word := (~~~u >>> 2) &&& 0x003FFFFF

/-- One pass of the loop of R103: syndrome word `k` into its three spare bytes, low byte first. -/
def packChunk (lb : PageSize) (k : Nat) (s : State) : Except Fault State :=
  andThen (s.readWord (s.eccAddr k)) fun v =>
  andThen (s.writeByte (s.spareAddr lb (3 * k + 2)) (byteOf (packSyndrome v) 0)) fun s1 =>
  andThen (s1.writeByte (s1.spareAddr lb (3 * k + 1)) (byteOf (packSyndrome v) 1)) fun s2 =>
  s2.writeByte (s2.spareAddr lb (3 * k)) (byteOf (packSyndrome v) 2)

/-- One pass of the loop of R104: three spare bytes into syndrome word `k`, most significant byte first (R102). -/
def unpackChunk (lb : PageSize) (k : Nat) (s : State) : Except Fault State :=
  andThen (s.readByte (s.spareAddr lb (3 * k))) fun b2 =>
  andThen (s.readByte (s.spareAddr lb (3 * k + 1))) fun b1 =>
  andThen (s.readByte (s.spareAddr lb (3 * k + 2))) fun b0 =>
  s.writeWord (s.eccAddr k) (unpackSyndrome (word24 b2 b1 b0))

/-- The loop of R103 for the page size a valid `count` selects. -/
def packPage (lb : PageSize) (s : State) : Except Fault State :=
  forEach (packChunk lb) (List.range (chunksOf lb)) s

/-- The loop of R104 for the page size a valid `count` selects; also `Unpack(n)` of R123. -/
def unpackPage (lb : PageSize) (s : State) : Except Fault State :=
  forEach (unpackChunk lb) (List.range (chunksOf lb)) s

/-- The operation of ECCPACK (R103). -/
def packOp (count : Nat) (s : State) : Except Fault State :=
  match pageOfCount count with
  | some lb => andThen (packPage lb s) fun t => .ok (t.setResult 1)
  | none => .ok (s.setResult 0)

/-- The operation of ECCUNPACK (R104). -/
def unpackOp (count : Nat) (s : State) : Except Fault State :=
  match pageOfCount count with
  | some lb => andThen (unpackPage lb s) fun t => .ok (t.setResult 1)
  | none => .ok (s.setResult 0)

/-- ECCPACK (R103). -/
def execEccpack (count : Nat) (s : State) : Host.Outcome State Fault Refusal :=
  accept (.eccpack count) (packOp count) s

/-- ECCUNPACK (R104). -/
def execEccunpack (count : Nat) (s : State) : Host.Outcome State Fault Refusal :=
  accept (.eccunpack count) (unpackOp count) s

end Sys2Proof.Machine
end

