-- ==== Sys2Proof/Machine/EccCorrect.lean ====
section
/-! DEFINITION. ECCCORR and ECCPAGE (41_ecc_correct.md): locating the bit (R118), `Correct(idx)` (R120) and the page
loop (R123). -/

namespace Sys2Proof.Machine

open Sys2Proof

/-- `bit_off` (R118). -/
def bitOff (c : Config) (err : Word) : Nat := gatherBits err c.bitSel.toList

/-- `byte_off` (R118). -/
def byteOff (c : Config) (err : Word) : Nat := gatherBits err c.byteSel.toList

/-- `b ^ (1 << bit_off)`, an 8-bit XOR with one bit set (R120, R129). -/
def flipBit (b : Byte) (bit : Nat) : Byte := b ^^^ ((1 : Byte) <<< bit)

/-- The address of the byte the correcting branch of chunk `idx` flips a bit of (R120). -/
def State.correctAddr (s : State) (idx : Nat) (err : Word) : Word := addrAt (s.chunkAddr idx) (byteOff s.cfg err)

/-- The correcting branch of R120: one byte read, one bit of it flipped. -/
def correctBit (idx : Nat) (err : Word) (s : State) : Except Fault State :=
  andThen (s.readByte (s.correctAddr idx err)) fun b =>
  s.writeByte (s.correctAddr idx err) (flipBit b (bitOff s.cfg err))

/-- The branch of R120 that `err` selects, with the outcome it returns. -/
def correctBranch (idx : Nat) (err : Word) (s : State) : Except Fault (EccOutcome × State) :=
  match classifyErr err with
  | .corrected => andThen (correctBit idx err s) fun t => .ok (.corrected, t)
  | .noErr => .ok (.noErr, s)
  | .areaErr => .ok (.areaErr, s)
  | .notCorrectable => .ok (.notCorrectable, s)

/-- `Correct(idx)` (R120), with the outcome it returns. -/
def correctChunk (idx : Nat) (s : State) : Except Fault (EccOutcome × State) :=
  andThen (s.readWord (s.genAddr idx)) fun g =>
  andThen (s.readWord (s.eccAddr idx)) fun st =>
  correctBranch idx (st ^^^ g) s

/-- The operation of ECCCORR (R120). -/
def corrOp (idx : Nat) (s : State) : Except Fault State :=
  andThen (correctChunk idx s) fun r => .ok (r.2.setResult ((outcomeCode s.cfg r.1).setWidth 32))

/-- What the loop of R123 carries beside the state. -/
structure PageAcc where
  /-- `fail` -/
  fail : Bool
  /-- `cs` -/
  cs : Word
  deriving DecidableEq, Repr

/-- `fail` and `cs` before the first chunk (R123). -/
def pageStart : PageAcc := ⟨false, 0x00000000⟩

/-- What chunk `i` with code `st` does to `cs` and `fail` (R123). -/
def pageNext (c : Config) (lb : PageSize) (i : Nat) (st : BitVec 2) (a : PageAcc) : PageAcc :=
  ⟨a.fail || pageFails c lb st, a.cs ||| chunkBits st i⟩

/-- The loop of R123 over the listed chunks: every chunk is processed, with no early exit. -/
def correctChunks (lb : PageSize) : List Nat → PageAcc → State → Except Fault (PageAcc × State)
  | [], a, s => .ok (a, s)
  | i :: is, a, s =>
    andThen (correctChunk i s) fun r => correctChunks lb is (pageNext s.cfg lb i (outcomeCode s.cfg r.1) a) r.2

/-- `fail ? 0xFFFFFFFF : (LB == 1 ? 2048 : 512)` (R123). -/
def pageResult (lb : PageSize) (fail : Bool) : Word := if fail then pageFailure else mainBytes lb

/-- The operation of ECCPAGE (R123). -/
def pageOp (lb : PageSize) (s : State) : Except Fault State :=
  andThen (unpackPage lb s) fun s1 =>
  andThen (correctChunks lb (List.range (chunksOf lb)) pageStart s1) fun r =>
  .ok ((r.2.setChunkstat r.1.cs).setResult (pageResult lb r.1.fail))

/-- ECCCORR (R120). -/
def execEcccorr (idx : Nat) (s : State) : Host.Outcome State Fault Refusal :=
  accept (.ecccorr idx) (corrOp idx) s

/-- ECCPAGE (R123). -/
def execEccpage (lb : PageSize) (s : State) : Host.Outcome State Fault Refusal :=
  accept (.eccpage lb) (pageOp lb) s

end Sys2Proof.Machine
end

