-- ==== Sys2Proof/Machine/Dispatch.lean ====
section
/-! DEFINITION. One arm per command of R80. `exec` is command acceptance from the alignment test on (R166 step 3), the
operation, and the `STATUS` update; `writeCmd` has put the word in `CMD` and classified it before (R24, R81). -/

namespace Sys2Proof.Machine

open Sys2Proof

def exec (i : Instr) (s : State) : Host.Outcome State Fault Refusal :=
  match i with
  | .eccpack count => Sys2Proof.Machine.execEccpack count s
  | .eccunpack count => Sys2Proof.Machine.execEccunpack count s
  | .ecccorr idx => Sys2Proof.Machine.execEcccorr idx s
  | .eccpage lb => Sys2Proof.Machine.execEccpage lb s
  | .bbcheck lb => Sys2Proof.Machine.execBbcheck lb s
  | .bbmark lb => Sys2Proof.Machine.execBbmark lb s
  | .dmabuild lb wr => Sys2Proof.Machine.execDmabuild lb wr s

end Sys2Proof.Machine
end

