-- ==== Sys2Proof/Machine/Bus.lean ====
section
/-! DEFINITION. What reaches the block from outside: the host's reads and writes of the register window (R20, R21,
R24), its reads of `M` (R6), the environment's writes to `M` between commands, the host's own among them (R200),
and the platform's reset (R185). -/

namespace Sys2Proof.Machine

open Sys2Proof

/-- The offset of a register from `REG_BASE` (R20). -/
def windowOffset : WindowReg → BitVec 6
  | .cmd => 0x00
  | .status => 0x04
  | .result => 0x08
  | .chunkstat => 0x0C
  | .operand .sparePtr => 0x10
  | .operand .eccPtr => 0x14
  | .operand .genPtr => 0x18
  | .operand .bufPtr => 0x1C
  | .operand .descPtr => 0x20
  | .operand .dataregPtr => 0x24
  | .operand .eccregPtr => 0x28

/-- The register at an offset of the window (R20); none where the offset is reserved. -/
def windowReg (offset : BitVec 6) : Option WindowReg :=
  match offset.toNat with
  | 0x00 => some .cmd
  | 0x04 => some .status
  | 0x08 => some .result
  | 0x0C => some .chunkstat
  | 0x10 => some (.operand .sparePtr)
  | 0x14 => some (.operand .eccPtr)
  | 0x18 => some (.operand .genPtr)
  | 0x1C => some (.operand .bufPtr)
  | 0x20 => some (.operand .descPtr)
  | 0x24 => some (.operand .dataregPtr)
  | 0x28 => some (.operand .eccregPtr)
  | _ => none

/-- R21: only 32-bit accesses at 4-byte-aligned offsets have a meaning. -/
def goodAccess (offset : BitVec 6) (bits : Nat) : Bool := decide (bits = 32) && decide (offset.toNat % 4 = 0)

/-- `CMD` holds the word written, accepted or not (R24). -/
def State.setCmd (s : State) (w : Word) : State := { s with cmd := w }

/-- A write of `w` to `CMD` (R24): `x[CMD] <- w`, acceptance (R166), the operation, `STATUS`. -/
def writeCmd (w : Word) (s : State) : Host.Outcome State Fault Refusal :=
  match decode w with
  | .illop => .next ((s.setCmd w).raiseCmdErr .illop)
  | .rsvd => .next ((s.setCmd w).raiseCmdErr .rsvd)
  | .legal i => exec i (s.setCmd w)

/-- A write that reaches a register (R20, R21): a command, an operand register, or nothing. -/
def writeWindow (r : Option WindowReg) (v : Word) (s : State) : Host.Outcome State Fault Refusal :=
  match r with
  | some .cmd => writeCmd v s
  | some (.operand p) => .next (s.setOperand p v)
  | some .status => .next s
  | some .result => .next s
  | some .chunkstat => .next s
  | none => .next s

/-- A host write to the window (R21, R174). -/
def hostWrite (offset : BitVec 6) (bits : Nat) (v : Word) (s : State) : Host.Outcome State Fault Refusal :=
  if goodAccess offset bits then writeWindow (windowReg offset) v s else .fault (.badHostAccess offset bits)

/-- The host has read `v`. -/
def State.giveHost (s : State) (v : Word) : State := { s with hostData := some v }

/-- The host reads a register: R174 `UnwrittenRead` when nothing has written it since reset. -/
def State.noteHostRead (s : State) (r : WindowReg) : State :=
  if r ∈ s.unwritten then s.markRun (.unwrittenRead r) else s

/-- What a read at an offset returns: the register, or 0 where the offset is reserved (R20). -/
def readWindow (r : Option WindowReg) (s : State) : State :=
  match r with
  | some x => (s.noteHostRead x).giveHost (s.windowValue x)
  | none => s.giveHost 0x00000000

/-- A host read of the window: no side effect on any register (R21, R174). -/
def hostRead (offset : BitVec 6) (bits : Nat) (s : State) : Host.Outcome State Fault Refusal :=
  if goodAccess offset bits then .next (readWindow (windowReg offset) s) else .fault (.badHostAccess offset bits)

/-- The host reads `n` bytes of the shared memory (R6): no effect on memory or any register, and no test of `MemAdmit`,
which is about the block's accesses (R51). DESIGN CHOICE, safe (log 24). -/
def State.hostLoad (s : State) (a : Word) (n : Nat) : State := { s with hostBytes := s.peekBytes a n }

/-- One bus event. -/
def busEvent (e : BusEvent) (s : State) : Host.Outcome State Fault Refusal :=
  match e with
  | .hostWrite offset bits v => hostWrite offset bits v s
  | .hostRead offset bits => hostRead offset bits s
  | .hostLoad a n => .next (s.hostLoad a n)
  | .envWrite a bytes => .next (s.pokeBytes a bytes)
  | .platformReset => .next s.afterReset

/-- The state with its pending events replaced. -/
def State.setPending (s : State) (es : List BusEvent) : State := { s with pending := es }

/-- The next pending event happens; with none pending the block does nothing, having no program counter (R27). -/
def nextEvent (s : State) : Host.Outcome State Fault Refusal :=
  match s.pending with
  | [] => .next s
  | e :: es => busEvent e (s.setPending es)

/-- The host's write of a command word, put before the other pending events. -/
def State.placeCommand (s : State) (w : Word) : State :=
  s.setPending (.hostWrite (windowOffset .cmd) 32 w :: s.pending)

end Sys2Proof.Machine
end

