-- ==== Sys2Proof/Machine/Step.lean ====
section
/-! DEFINITION. One step of the machine, and where an instruction word is placed for the next step. -/

namespace Sys2Proof.Machine

open Sys2Proof

/-- One step: the next pending bus event happens, a command running to its end within it (R24, R32; log 16). -/
def step (s : State) : Host.Outcome State Fault Refusal := nextEvent s

/-- The block fetches nothing (R27, R65): its next instruction is the host's next write to `CMD`, so the word is put
there as the first pending event (log 1). -/
def State.withFetchWord (s : State) (nbits w : Nat) : State :=
  s.placeCommand (BitVec.ofNat 32 (tableWord nbits w))

end Sys2Proof.Machine
end

