-- ==== Sys2Proof/Machine/EccGen.lean ====
section
/-! DEFINITION. The environment's syndrome generator (R8's parameter `EccGen`, R127). It is no part of the block, which
never evaluates it (R33), so it is no field of the state: a generator is an argument of the functions and statements
that need one, and the reference generator of R127 is its default (log 18). -/

namespace Sys2Proof.Machine

open Sys2Proof

/-- The 256 bytes of a chunk. -/
abbrev Chunk := Fin 256 → Byte

/-- The parameter `EccGen`: a function from 256 bytes to a 22-bit syndrome (R8). -/
abbrev EccGenerator := Chunk → BitVec 22

/-- The word a generator leaves for a chunk: `EccGen[31:22] <- 0` (R127). -/
def syndromeWord (g : EccGenerator) (d : Chunk) : Word := (g d).setWidth 32

/-- A generator that differs from another by a fixed XOR mask (R127). -/
def maskedGen (g : EccGenerator) (m : BitVec 22) : EccGenerator := fun d => g d ^^^ m

/-! ### The reference generator (R127) -/

/-- XOR of a bit-valued function over `0 .. n-1`. -/
def xorUpTo : Nat → (Nat → Bool) → Bool
  | 0, _ => false
  | n + 1, f => (xorUpTo n f).xor (f n)

/-- XOR of `d(B, b)` over all bits of a chunk, numbered (byte, bit), that satisfy `p` (R127). -/
def chunkParity (d : Chunk) (p : Nat → Nat → Bool) : Bool :=
  xorUpTo 256 fun B => xorUpTo 8 fun b => (d (Fin.ofNat 256 B)).getLsbD b && p B b

/-- Bit `m` of the syndrome: pairs 0 to 2 are the column parities of the bit number's bits, pairs 3 to 10 the line
parities of the byte number's bits, the odd member of a pair covering the positions whose bit is 1 (R127). -/
def eccGenBit (d : Chunk) (m : Nat) : Bool :=
  if m < 6 then chunkParity d fun _ b => b.testBit (m / 2) == decide (m % 2 = 1)
  else chunkParity d fun B _ => B.testBit ((m - 6) / 2) == decide (m % 2 = 1)

/-- The syndrome whose bit `i`, for `i` below `n`, is `f i`. -/
def syndromeOfBits : Nat → (Nat → Bool) → BitVec 22
  | 0, _ => 0
  | n + 1, f => syndromeOfBits n f ||| (if f n then (1 : BitVec 22) <<< n else 0)

/-- The default of the parameter `EccGen` (R127). -/
def eccGen : EccGenerator := fun d => syndromeOfBits 22 (eccGenBit d)

/-- OR of a word-valued function over `0 .. n-1`. -/
def orUpTo : Nat → (Nat → Word) → Word
  | 0, _ => 0
  | n + 1, f => orUpTo n f ||| f n

/-- The closed form of R128, `OR over j of (1 << (2j + b[j])) | OR over k of (1 << (2k + 6 + B[k]))`: the syndrome
difference a flip of bit `b` of byte `B` makes. -/
def errOfFlip (B b : Nat) : Word :=
  (orUpTo 3 fun j => (1 : Word) <<< (2 * j + (b.testBit j).toNat)) |||
  (orUpTo 8 fun k => (1 : Word) <<< (2 * k + 6 + (B.testBit k).toNat))

/-! ### What the environment does with it (R153) -/

/-- Chunk `k` of the data buffer. -/
def State.chunk (s : State) (k : Nat) : Chunk := fun j => s.peek (addrAt (s.chunkAddr k) j.val)

/-- The four bytes of a word, least significant first (R54). -/
def bytesOfWord (w : Word) : List Byte := [byteOf w 0, byteOf w 1, byteOf w 2, byteOf w 3]

/-- The environment's write of the generated-syndrome array of a page, one word per chunk of the data buffer: what the
ECC descriptors of a chain that has run leave there (R147, R153). One of the writes log 10 allows. -/
def depositSyndromes (g : EccGenerator) (lb : PageSize) (s : State) : BusEvent :=
  .envWrite (s.reg .genPtr) ((List.range (chunksOf lb)).flatMap fun k => bytesOfWord (syndromeWord g (s.chunk k)))

end Sys2Proof.Machine
end

