-- ==== Sys2Proof/Machine/Script.lean ====
section
/-! DEFINITION. The host-script lines of R83 and the pseudo-instructions of R84, as the bus events they stand for.
Text, comments and the aliases `P0` to `P6` are left to whoever writes a script. -/

namespace Sys2Proof.Machine

open Sys2Proof

/-- A line of a host script (R83, R84). -/
inductive ScriptLine where
  /-- `wr NAME, value` -/
  | wr (r : WindowReg) (v : Word)
  /-- `rd NAME` -/
  | rd (r : WindowReg)
  /-- a command by its mnemonic -/
  | command (i : Instr)
  /-- `cmd value`, for words that are not legal commands -/
  | cmd (w : Word)
  /-- `eccpack.sb` and `eccpack.lb` -/
  | eccpackPage (lb : PageSize)
  /-- `eccunpack.sb` and `eccunpack.lb` -/
  | eccunpackPage (lb : PageSize)
  /-- `setbufs s, e, g, b` -/
  | setbufs (s e g b : Word)
  deriving DecidableEq, Repr

/-- `wr NAME, value` (R83). -/
def wrEvent (r : WindowReg) (v : Word) : BusEvent := .hostWrite (windowOffset r) 32 v

/-- `rd NAME` (R83). -/
def rdEvent (r : WindowReg) : BusEvent := .hostRead (windowOffset r) 32

/-- The accesses a line stands for (R83, R84). -/
def ScriptLine.expand : ScriptLine → List BusEvent
  | .wr r v => [wrEvent r v]
  | .rd r => [rdEvent r]
  | .command i => [wrEvent .cmd (encode i)]
  | .cmd w => [wrEvent .cmd w]
  | .eccpackPage lb => [wrEvent .cmd (encode (.eccpack (chunksOf lb)))]
  | .eccunpackPage lb => [wrEvent .cmd (encode (.eccunpack (chunksOf lb)))]
  | .setbufs s e g b =>
    [wrEvent (.operand .sparePtr) s, wrEvent (.operand .eccPtr) e, wrEvent (.operand .genPtr) g,
     wrEvent (.operand .bufPtr) b]

end Sys2Proof.Machine
end

