-- ==== Sys2Proof/Safety.lean ====
section
/-! DEFINITION. The terms claims are stated in: an unmarked run, admitted accesses, which bytes a command stores to,
the outcomes of a page's chunks, and the invariant of the machine. -/

namespace Sys2Proof.Machine

open Sys2Proof

/-! ### Runs the spec speaks of (R174) -/

/-- No model fault about an unwritten register has marked the run: R174 states no claim about a marked one. -/
def State.Unmarked (s : State) : Prop := s.mark = none

/-! ### Admitted accesses (R51, R190) -/

/-- The first `n` words of an object are admitted. -/
abbrev wordsAdmitted (s : State) (addr : Nat → Word) (n : Nat) : Prop := ∀ k < n, admitsWord s.cfg (addr k) = true

/-- Every layout byte of the spare image is admitted. -/
abbrev spareAdmitted (s : State) (lb : PageSize) : Prop :=
  ∀ e < 3 * chunksOf lb, admits s.cfg (s.spareAddr lb e) = true

/-- The difference `Correct(idx)` decides on, `ecc_stored ^ ecc_gen` (R115). -/
def errAt (s : State) (idx : Nat) : Word := s.peekWord (s.eccAddr idx) ^^^ s.peekWord (s.genAddr idx)

/-- Every byte the command may access is admitted (R57): the command then meets no model fault. For ECCPAGE this asks
for the whole data buffer, of which it touches the bytes it corrects. -/
def accessesAdmitted (i : Instr) (s : State) : Prop :=
  match i with
  | .eccpack count | .eccunpack count =>
    match pageOfCount count with
    | some lb => spareAdmitted s lb ∧ wordsAdmitted s s.eccAddr (chunksOf lb)
    | none => True
  | .ecccorr idx =>
    admitsWord s.cfg (s.genAddr idx) = true ∧ admitsWord s.cfg (s.eccAddr idx) = true ∧
    (classifyErr (errAt s idx) = .corrected → admits s.cfg (s.correctAddr idx (errAt s idx)) = true)
  | .eccpage lb =>
    spareAdmitted s lb ∧ wordsAdmitted s s.eccAddr (chunksOf lb) ∧ wordsAdmitted s s.genAddr (chunksOf lb) ∧
    ∀ j < 256 * chunksOf lb, admits s.cfg (addrAt (s.reg .bufPtr) j) = true
  | .bbcheck lb | .bbmark lb => admits s.cfg (s.markerAddr lb) = true
  | .dmabuild lb _ => ∀ i < descriptorsOf lb, ∀ j < 4, admitsWord s.cfg (s.descAddr i j) = true

/-! ### Bytes a command stores to (R57) -/

/-- The outcomes of `Correct(i)` for the listed chunks, one after the other. -/
def outcomesFrom : List Nat → State → List EccOutcome
  | [], _ => []
  | i :: is, s =>
    match correctChunk i s with
    | .ok (o, t) => o :: outcomesFrom is t
    | .error _ => []

/-- The bytes `Correct(i)` stores to for the listed chunks, one after the other. -/
def correctedFrom : List Nat → State → List Word
  | [], _ => []
  | i :: is, s =>
    match correctChunk i s with
    | .ok (o, t) => (if o = .corrected then [s.correctAddr i (errAt s i)] else []) ++ correctedFrom is t
    | .error _ => []

/-- The outcomes of the chunks of a page, after the unpack (R123). -/
def pageOutcomes (lb : PageSize) (s : State) : List EccOutcome :=
  match unpackPage lb s with
  | .ok u => outcomesFrom (List.range (chunksOf lb)) u
  | .error _ => []

/-- The bytes ECCPAGE corrects, after the unpack (R123). -/
def pageCorrected (lb : PageSize) (s : State) : List Word :=
  match unpackPage lb s with
  | .ok u => correctedFrom (List.range (chunksOf lb)) u
  | .error _ => []

/-- `x` is a layout byte of the spare image. -/
abbrev inSpareLayout (s : State) (lb : PageSize) (x : Word) : Prop := ∃ e < 3 * chunksOf lb, x = s.spareAddr lb e

/-- `x` is a byte of the first `n` words of an object. -/
abbrev inWords (addr : Nat → Word) (n : Nat) (x : Word) : Prop := ∃ k < n, x ∈ wordBytes (addr k)

/-- The bytes a command stores to when it completes, by the functions its meaning uses for the addresses. -/
def storesTo (i : Instr) (s : State) (x : Word) : Prop :=
  match i with
  | .eccpack count =>
    match pageOfCount count with
    | some lb => inSpareLayout s lb x
    | none => False
  | .eccunpack count =>
    match pageOfCount count with
    | some lb => inWords s.eccAddr (chunksOf lb) x
    | none => False
  | .ecccorr idx => classifyErr (errAt s idx) = .corrected ∧ x = s.correctAddr idx (errAt s idx)
  | .eccpage lb => inWords s.eccAddr (chunksOf lb) x ∨ x ∈ pageCorrected lb s
  | .bbcheck _ => False
  | .bbmark lb => x = s.markerAddr lb
  | .dmabuild lb _ => ∃ i < descriptorsOf lb, ∃ j < 4, x ∈ wordBytes (s.descAddr i j)

/-! ### The invariant -/

/-- The values `RESULT` can hold (R26). -/
def legalResults (c : Config) : List Word :=
  [0, 1, c.eccNoErr.setWidth 32, c.eccCorrected.setWidth 32, c.eccAreaErr.setWidth 32,
   c.eccNotCorrectable.setWidth 32, 512, 2048, 0xFFFFFFFF, 5, 17]

/-- What every step keeps: memory in its canonical form, `STATUS` and `RESULT` legal (R25, R26), `CHUNKSTAT`'s reserved
half 0 (R28), only registers R34 leaves unspecified counted as unwritten, parameters the spec allows (R8). -/
structure State.Inv (s : State) : Prop where
  mem_wf : Memory.wf s.mem = true
  status_legal : s.status ∈ legalStatus
  result_legal : s.result ∈ legalResults s.cfg
  chunkstat_reserved : s.chunkstat.extractLsb' 16 16 = 0
  unwritten_known : ∀ r ∈ s.unwritten, r ∈ unwrittenAtReset
  cfg_wf : s.cfg.WellFormed

end Sys2Proof.Machine
end

