-- ==== Sys2Proof/Certificates/Slice0/Obligations.lean ====
section
/-! DEFINITION. The statements for the provers, read from the numbered rules of spec/. `Sys2Proof.Claims` holds the
vocabulary of the statements: fields, formulas and tables written from the spec's own words, not from the
definitions of the machine they are compared with. -/

namespace Sys2Proof.Claims

open Sys2Proof Sys2Proof.Machine

/-! ### The command word (R76, R77) -/

/-- `OPC`, bits 3:0. -/
abbrev opc (w : Word) : Nat := (w.extractLsb' 0 4).toNat
/-- `LB`, bit 4. -/
abbrev lbBitOf (w : Word) : BitVec 1 := w.extractLsb' 4 1
/-- `WR`, bit 5. -/
abbrev wrBitOf (w : Word) : BitVec 1 := w.extractLsb' 5 1
/-- `RSV0`, bits 7:6. -/
abbrev rsv0 (w : Word) : BitVec 2 := w.extractLsb' 6 2
/-- `IMM8`, bits 15:8. -/
abbrev imm8 (w : Word) : BitVec 8 := w.extractLsb' 8 8
/-- `RSV1`, bits 31:16. -/
abbrev rsv1 (w : Word) : BitVec 16 := w.extractLsb' 16 16

/-- R81 (1): the opcode is 0x0 or in 0x8..0xF. -/
abbrev illegalOpcode (w : Word) : Prop := opc w = 0 ∨ 8 ≤ opc w

/-- R81 (2) for a word whose opcode is legal: a field its format (R77) requires to be 0 is not. -/
abbrev reservedFieldSet (w : Word) : Prop :=
  rsv0 w ≠ 0 ∨ rsv1 w ≠ 0 ∨
  (opc w ≤ 3 ∧ (lbBitOf w ≠ 0 ∨ wrBitOf w ≠ 0)) ∨
  (4 ≤ opc w ∧ imm8 w ≠ 0) ∨
  (4 ≤ opc w ∧ opc w ≤ 6 ∧ wrBitOf w ≠ 0)

/-- The page size of a word (R76). -/
abbrev pageOf (w : Word) : PageSize := if lbBitOf w = 1 then .large else .small

/-- The direction of a word (R76). -/
abbrev directionOf (w : Word) : Direction := if wrBitOf w = 1 then .write else .read

/-- The command of a legal word, by the opcode map (R80) and the fields (R76). -/
def commandOf (w : Word) : Option Instr :=
  match opc w with
  | 1 => some (.eccpack (imm8 w).toNat)
  | 2 => some (.eccunpack (imm8 w).toNat)
  | 3 => some (.ecccorr (imm8 w).toNat)
  | 4 => some (.eccpage (pageOf w))
  | 5 => some (.bbcheck (pageOf w))
  | 6 => some (.bbmark (pageOf w))
  | 7 => some (.dmabuild (pageOf w) (directionOf w))
  | _ => none

/-! ### Tables and formulas -/

/-- A 32-bit address is a multiple of 4. -/
abbrev aligned4 (a : Word) : Prop := a.toNat % 4 = 0

/-- The registers marked `a` in R23 are 4-byte aligned. -/
def basesAligned (i : Instr) (s : State) : Prop :=
  match i with
  | .eccpack _ | .eccunpack _ => aligned4 (s.reg .eccPtr)
  | .ecccorr _ | .eccpage _ => aligned4 (s.reg .eccPtr) ∧ aligned4 (s.reg .genPtr)
  | .bbcheck _ | .bbmark _ => True
  | .dmabuild _ _ => aligned4 (s.reg .descPtr)

/-- The registers R23 marks `a` for a command, in the table's order. -/
def markedA : Instr → List OperandReg
  | .eccpack _ | .eccunpack _ => [.eccPtr]
  | .ecccorr _ | .eccpage _ => [.eccPtr, .genPtr]
  | .bbcheck _ | .bbmark _ => []
  | .dmabuild _ _ => [.descPtr]

/-- The other registers R23 marks for a command, in the table's order. -/
def markedOther : Instr → List OperandReg
  | .eccpack _ | .eccunpack _ | .bbcheck _ | .bbmark _ => [.sparePtr]
  | .ecccorr _ => [.bufPtr]
  | .eccpage _ => [.sparePtr, .bufPtr]
  | .dmabuild _ _ => [.sparePtr, .genPtr, .bufPtr, .dataregPtr, .eccregPtr]

/-- Of the registers an alignment test goes through, those it reads: up to the first misaligned one, with it (R166). -/
def testedRegs (s : State) : List OperandReg → List OperandReg
  | [] => []
  | r :: rs => if aligned4 (s.reg r) then r :: testedRegs s rs else [r]

/-- The mark after reading operand registers in order: the one the run has, else the first register of them that nothing
has written since reset (R174, log 3). -/
def markAfter (s : State) (rs : List OperandReg) : Option Mark :=
  match s.mark with
  | some m => some m
  | none => (rs.find? fun r => decide (.operand r ∈ s.unwritten)).map .unwrittenOperand

/-- The mark after an accepted command: it reads its registers marked `a`, then the others (log 15). -/
abbrev markAfterCommand (i : Instr) (s : State) : Option Mark := markAfter s (markedA i ++ markedOther i)

/-- The mark after a command rejected for alignment (log 22). -/
abbrev markAfterRejection (i : Instr) (s : State) : Option Mark := markAfter s (testedRegs s (markedA i))

/-- The registers R23 marks for a command, whatever the letter. -/
def registersOf : Instr → List OperandReg
  | .eccpack _ | .eccunpack _ => [.sparePtr, .eccPtr]
  | .ecccorr _ => [.eccPtr, .genPtr, .bufPtr]
  | .eccpage _ => [.sparePtr, .eccPtr, .genPtr, .bufPtr]
  | .bbcheck _ | .bbmark _ => [.sparePtr]
  | .dmabuild _ _ => [.sparePtr, .genPtr, .bufPtr, .descPtr, .dataregPtr, .eccregPtr]

/-- `count` is one of the document's two, and selects this page size (R103). -/
abbrev validCount (count : Nat) (lb : PageSize) : Prop := (count = 2 ∧ lb = .small) ∨ (count = 8 ∧ lb = .large)

/-- `(~(v << 2)) & 0x00FFFFFF` (R101). -/
abbrev packed (v : Word) : Word := ~~~(v <<< 2) &&& 0x00FFFFFF

/-- The three bytes at layout entries `3k`, `3k+1`, `3k+2` as one 32-bit value, most significant first (R102, R104). -/
abbrev packedWordAt (s : State) (lb : PageSize) (k : Nat) : Word :=
  (0x00 : Byte) ++ s.peek (s.spareAddr lb (3 * k)) ++ s.peek (s.spareAddr lb (3 * k + 1)) ++
    s.peek (s.spareAddr lb (3 * k + 2))

/-- `((~u) >> 2) & 0x003FFFFF` of those bytes: the stored syndrome `k` (R104). -/
abbrev storedSyndrome (s : State) (lb : PageSize) (k : Nat) : Word :=
  (~~~(packedWordAt s lb k) >>> 2) &&& 0x003FFFFF

/-- Number of bits that are 1 (R11), counted as a set. -/
abbrev onesOf (v : Word) : Nat := (Finset.univ.filter fun i : Fin 32 => v.getLsbD i.val = true).card

/-- R116's outcome of an `err`, by the number of its ones. -/
abbrev outcomeOf (err : Word) : EccOutcome :=
  if err = 0 then .noErr else if onesOf err = 1 then .areaErr else if onesOf err = 11 then .corrected
  else .notCorrectable

/-- R124, over the outcome: which outcomes fail a page of this size. -/
abbrev failsPage (c : Config) (lb : PageSize) (o : EccOutcome) : Prop :=
  match lb with
  | .small => o = .areaErr ∨ o = .notCorrectable
  | .large => o = .notCorrectable ∨ (o = .areaErr ∧ c.lbAreaErrFails = true)

/-- `x` is one of the bytes of the data buffer of a page (R31). -/
abbrev inBuffer (s : State) (lb : PageSize) (x : Word) : Prop :=
  ∃ j < 256 * chunksOf lb, x = addrAt (s.reg .bufPtr) j

/-! ### States after a command -/

/-- What an accepted command leaves: memory `m`, `RESULT`, `STATUS` = 1, `RESULT` no longer unwritten, the mark of
the registers it read (log 3); nothing else changed (R24 to R26). -/
def afterCommand (i : Instr) (s : State) (m : Memory) (result : Word) : State :=
  { s with
    mem := m
    result := result
    status := 0x00000001
    unwritten := s.unwritten.filter fun r => decide (r ≠ .result)
    mark := markAfterCommand i s }

/-- The same for ECCPAGE, which also writes `CHUNKSTAT` (R28). -/
def afterPage (lb : PageSize) (s : State) (m : Memory) (result chunkstat : Word) : State :=
  { afterCommand (.eccpage lb) s m result with
    chunkstat := chunkstat
    unwritten := (s.unwritten.filter fun r => decide (r ≠ .chunkstat)).filter fun r => decide (r ≠ .result) }

/-- A function applied to the next state of an outcome. -/
def mapNext (f : State → State) : Host.Outcome State Fault Refusal → Host.Outcome State Fault Refusal
  | .next t => .next (f t)
  | .fault e => .fault e
  | .refused r => .refused r

/-- Four consecutive words from `a` (R145). -/
abbrev fourWords (t : State) (a : Word) : List Word :=
  [t.peekWord a, t.peekWord (addrAt a 4), t.peekWord (addrAt a 8), t.peekWord (addrAt a 12)]

/-- The descriptors an engine visits from `a`, following `next` until it is 0 (R145, R148), at most `n` of them. -/
def walkChain : Nat → State → Word → List Word
  | 0, _, _ => []
  | n + 1, t, a =>
    a :: (if t.peekWord (addrAt a 8) = 0 then [] else walkChain n t (t.peekWord (addrAt a 8)))

/-- The listed chunks corrected by ECCCORR, one after the other, with the `RESULT` of each. -/
def runCorrections : List Nat → State → Option (List Word × State)
  | [], s => some ([], s)
  | i :: is, s =>
    match exec (.ecccorr i) s with
    | .next t =>
      match runCorrections is t with
      | some (rs, u) => some (t.result :: rs, u)
      | none => none
    | .fault _ => none
    | .refused _ => none

/-- Where ECCCORR of the listed chunks, one after the other, stops. -/
def correctionsFault : List Nat → State → Option Fault
  | [], _ => none
  | i :: is, s =>
    match exec (.ecccorr i) s with
    | .next t => correctionsFault is t
    | .fault e => some e
    | .refused _ => none

/-- A chunk with bit `b` of byte `B` flipped (R128). -/
def flipped (D : Chunk) (B : Fin 256) (b : Nat) : Chunk := fun j => if j = B then D j ^^^ ((1 : Byte) <<< b) else D j

/-- A generator whose syndrome, when one bit of a chunk is flipped, changes by R128's `err(B, b)`. -/
def LocatesFlips (g : EccGenerator) : Prop :=
  ∀ (D : Chunk) (B : Fin 256) (b : Nat), b < 8 → syndromeWord g D ^^^ syndromeWord g (flipped D B b) = errOfFlip B.val b

/-- The bytes a control word moves, by R151's layout (log 23). -/
def movedBytes (w : Word) : Option Nat :=
  match (w.extractLsb' 18 3).toNat with
  | 0 => some (w.extractLsb' 0 12).toNat
  | 1 => some (2 * (w.extractLsb' 0 12).toNat)
  | 2 => some (4 * (w.extractLsb' 0 12).toNat)
  | _ => none

/-! ### The accesses of a command, in the order of its pseudocode -/

/-- The accesses to `M` an accepted command makes, as address and width in bytes, in order (R12, R57, R103, R104, R120,
R137, R138, R148); of ECCPAGE, whose corrections depend on what it has written, the accesses of its unpack. -/
def accessesOf (i : Instr) (s : State) : List (Word × Nat) :=
  match i with
  | .eccpack count =>
    match pageOfCount count with
    | some lb => (List.range (chunksOf lb)).flatMap fun k =>
      [(s.eccAddr k, 4), (s.spareAddr lb (3 * k + 2), 1), (s.spareAddr lb (3 * k + 1), 1), (s.spareAddr lb (3 * k), 1)]
    | none => []
  | .eccunpack count =>
    match pageOfCount count with
    | some lb => (List.range (chunksOf lb)).flatMap fun k =>
      [(s.spareAddr lb (3 * k), 1), (s.spareAddr lb (3 * k + 1), 1), (s.spareAddr lb (3 * k + 2), 1), (s.eccAddr k, 4)]
    | none => []
  | .ecccorr idx =>
    [(s.genAddr idx, 4), (s.eccAddr idx, 4)] ++
      if onesOf (errAt s idx) = 11 then [(s.correctAddr idx (errAt s idx), 1)] else []
  | .eccpage lb => (List.range (chunksOf lb)).flatMap fun k =>
      [(s.spareAddr lb (3 * k), 1), (s.spareAddr lb (3 * k + 1), 1), (s.spareAddr lb (3 * k + 2), 1), (s.eccAddr k, 4)]
  | .bbcheck lb | .bbmark lb => [(s.markerAddr lb, 1)]
  | .dmabuild lb _ => (List.range (descriptorsOf lb)).flatMap fun i =>
      [(s.descAddr i 0, 4), (s.descAddr i 1, 4), (s.descAddr i 2, 4), (s.descAddr i 3, 4)]

/-- Every byte of an access is admitted (R52, R53). -/
abbrev accessAdmitted (c : Config) (x : Word × Nat) : Prop := ∀ j < x.2, admits c (addrAt x.1 j) = true

end Sys2Proof.Claims

open Sys2Proof Sys2Proof.Machine Sys2Proof.Claims

/-! ### Encoding -/

/-- R77, R80: one word of each family, written out bit by bit, decodes to its command. -/
def Obligations.SampleWordsDecode : Prop :=
  decode 0b00000000000000000000001000000001 = .legal (.eccpack 2) ∧
  decode 0b00000000000000000000100000000010 = .legal (.eccunpack 8) ∧
  decode 0b00000000000000001111111100000011 = .legal (.ecccorr 255) ∧
  decode 0b00000000000000000000000000010100 = .legal (.eccpage .large) ∧
  decode 0b00000000000000000000000000000101 = .legal (.bbcheck .small) ∧
  decode 0b00000000000000000000000000010110 = .legal (.bbmark .large) ∧
  decode 0b00000000000000000000000000100111 = .legal (.dmabuild .small .write)

/-- R81: the classification is total, in this order; the two kinds of rejection change `CMD` and `STATUS` only; no word is
accepted and does nothing, since an accepted one leaves `STATUS` = 1 (and a misaligned one code 3). -/
def Obligations.CommandWordsAreClassified : Prop :=
  (∀ (s : State) (w : Word), illegalOpcode w →
    decode w = .illop ∧ writeCmd w s = .next { s with cmd := w, status := 0x00000012 }) ∧
  (∀ (s : State) (w : Word), ¬ illegalOpcode w → reservedFieldSet w →
    decode w = .rsvd ∧ writeCmd w s = .next { s with cmd := w, status := 0x00000022 }) ∧
  (∀ w : Word, ¬ illegalOpcode w → ¬ reservedFieldSet w → ∃ i, commandOf w = some i ∧ decode w = .legal i) ∧
  (∀ (s t : State) (w : Word), ¬ illegalOpcode w → ¬ reservedFieldSet w → writeCmd w s = .next t →
    t.status = 0x00000001 ∨ t.status = 0x00000032) ∧
  decode 0x00000000 = .illop ∧ decode 0xFFFFFFFF = .illop

/-- R80: decoding the word of a well-formed command gives the command back. -/
def Obligations.DecodeEncodeRoundTrip : Prop := ∀ i : Instr, i.WellFormed → decode (encode i) = .legal i

/-- R80: a legal word is the word of its command, which is well-formed: each word has one meaning. -/
def Obligations.LegalWordsAreEncodings : Prop :=
  ∀ (w : Word) (i : Instr), decode w = .legal i → i.WellFormed ∧ encode i = w

/-- R80: there are 778 legal command words. -/
def Obligations.LegalWordsNumber778 : Prop :=
  ∃ ws : List Word, ws.Nodup ∧ ws.length = 778 ∧ ∀ w, w ∈ ws ↔ ∃ i, decode w = .legal i

/-! ### Steps -/

/-- R24, R81: when the next event is a host write of a legal command word to `CMD`, the step is `exec` of that command
on the state with the event consumed and `CMD` holding the word. `withFetchWord` puts the write there. -/
def Obligations.StepRunsDecodedCommand : Prop :=
  (∀ (s : State) (w : Word) (i : Instr) (es : List BusEvent),
    s.pending = .hostWrite 0x00 32 w :: es → decode w = .legal i →
    step s = exec i { s with pending := es, cmd := w }) ∧
  (∀ (s : State) (nbits w : Nat) (i : Instr), decodeTableWord nbits w = some i →
    step (s.withFetchWord nbits w) = exec i { s with cmd := BitVec.ofNat 32 (w % 2 ^ nbits) })

/-- R24: a read of `CMD` returns the last word written, accepted or not: every completed write to `CMD` leaves the
word there, and nothing else but the platform's reset changes it. -/
def Obligations.CmdHoldsTheWordWritten : Prop :=
  (∀ (s t : State) (w : Word), writeCmd w s = .next t → t.cmd = w) ∧
  (∀ (s t : State) (w : Word) (es : List BusEvent), s.pending = .hostWrite 0x00 32 w :: es → step s = .next t →
    t.cmd = w) ∧
  (∀ (s t : State), (∀ w es, s.pending ≠ .hostWrite 0x00 32 w :: es) → (∀ es, s.pending ≠ .platformReset :: es) →
    step s = .next t → t.cmd = s.cmd)

/-- R27: with no event pending a step changes nothing, the block having no program counter. That the pending events
stand in the state is the model's (log 1). -/
def Obligations.IdleStepChangesNothing : Prop := ∀ s : State, s.pending = [] → step s = .next s

/-! ### Acceptance, rejection, status -/

/-- R168: a rejection sets `STATUS`, leaves the rejected word in `CMD`, and changes nothing else. That the run goes on,
marked, when the alignment test has read a register nothing has written is the model's (log 3, log 22). -/
def Obligations.RejectionChangesOnlyCmdAndStatus : Prop :=
  ∀ (s : State) (w : Word),
    (decode w = .illop → writeCmd w s = .next { s with cmd := w, status := 0x00000012 }) ∧
    (decode w = .rsvd → writeCmd w s = .next { s with cmd := w, status := 0x00000022 }) ∧
    (∀ i, decode w = .legal i → ¬ basesAligned i s →
      writeCmd w s = .next { s with cmd := w, status := 0x00000032, mark := markAfterRejection i s })

/-- R56: a misaligned base register is rejected with code 3 and no access, an aligned one is not, and then every
word address the command forms is a multiple of 4. The mark is the model's (log 3, log 22). -/
def Obligations.MisalignedBaseIsRejected : Prop :=
  (∀ (i : Instr) (s : State), ¬ basesAligned i s →
    exec i s = .next { s with status := 0x00000032, mark := markAfterRejection i s }) ∧
  (∀ (i : Instr) (s t : State), basesAligned i s → exec i s = .next t → t.status = 0x00000001) ∧
  (∀ (s : State) (k : Nat), aligned4 (s.reg .eccPtr) → aligned4 (s.eccAddr k)) ∧
  (∀ (s : State) (k : Nat), aligned4 (s.reg .genPtr) → aligned4 (s.genAddr k)) ∧
  (∀ (s : State) (i j : Nat), aligned4 (s.reg .descPtr) → aligned4 (s.descAddr i j))

/-- R25: what each write to `CMD` puts into `STATUS`, that nothing else but reset writes it, and its legal values. -/
def Obligations.StatusFollowsEveryCommandWrite : Prop :=
  (∀ (s t : State) (w : Word) (es : List BusEvent), s.pending = .hostWrite 0x00 32 w :: es → step s = .next t →
    (decode w = .illop → t.status = 0x00000012) ∧
    (decode w = .rsvd → t.status = 0x00000022) ∧
    (∀ i, decode w = .legal i → (¬ basesAligned i s → t.status = 0x00000032) ∧
      (basesAligned i s → t.status = 0x00000001))) ∧
  (∀ (s t : State), (∀ w es, s.pending ≠ .hostWrite 0x00 32 w :: es) → (∀ es, s.pending ≠ .platformReset :: es) →
    step s = .next t → t.status = s.status) ∧
  (∀ (s t : State) (es : List BusEvent), s.pending = .platformReset :: es → step s = .next t → t.status = 0) ∧
  (∀ s t : State, s.status ∈ legalStatus → step s = .next t → t.status ∈ legalStatus) ∧
  (∀ v ∈ legalStatus, ¬ (statusDone v = true ∧ statusCmdErr v = true)) ∧
  (statusDone 1 = true ∧ statusCmdErr 1 = false ∧ statusErrCode 1 = 0) ∧
  (∀ e : CmdErr, statusDone (0x00000002 ||| (e.code <<< 4)) = false ∧
    statusCmdErr (0x00000002 ||| (e.code <<< 4)) = true ∧
    (statusErrCode (0x00000002 ||| (e.code <<< 4))).setWidth 32 = e.code)

/-- R26: `RESULT` is written by every accepted command with the value its row gives, and by nothing else but reset. -/
def Obligations.ResultFollowsEveryAcceptedCommand : Prop :=
  (∀ (i : Instr) (s t : State), basesAligned i s → exec i s = .next t →
    match i with
    | .eccpack count | .eccunpack count => t.result = if count = 2 ∨ count = 8 then 1 else 0
    | .ecccorr idx => t.result = (outcomeCode s.cfg (outcomeOf (errAt s idx))).setWidth 32
    | .eccpage lb =>
      ((∃ o ∈ pageOutcomes lb s, pageFails s.cfg lb (outcomeCode s.cfg o) = true) → t.result = 0xFFFFFFFF) ∧
      ((∀ o ∈ pageOutcomes lb s, pageFails s.cfg lb (outcomeCode s.cfg o) = false) →
        t.result = match lb with | .small => 512 | .large => 2048)
    | .bbcheck lb => t.result = if s.peek (s.markerAddr lb) = s.cfg.goodMarker then 0 else 1
    | .bbmark _ => t.result = 1
    | .dmabuild .small _ => t.result = 5
    | .dmabuild .large _ => t.result = 17) ∧
  (∀ (i : Instr) (s t : State), ¬ basesAligned i s → exec i s = .next t → t.result = s.result) ∧
  (∀ (s t : State) (w : Word), (∀ i, decode w ≠ .legal i) → writeCmd w s = .next t → t.result = s.result) ∧
  (∀ (s t : State), (∀ w es, s.pending ≠ .hostWrite 0x00 32 w :: es) → (∀ es, s.pending ≠ .platformReset :: es) →
    step s = .next t → t.result = s.result)

/-- R28: `CHUNKSTAT` is written by an accepted ECCPAGE only; field `i` holds the outcome code of chunk `i`, the fields of
absent chunks and bits 31:16 are 0. -/
def Obligations.ChunkstatFollowsEccpage : Prop :=
  (∀ (lb : PageSize) (s t : State), basesAligned (.eccpage lb) s → exec (.eccpage lb) s = .next t →
    (pageOutcomes lb s).length = chunksOf lb ∧
    (∀ (i : Nat) (o : EccOutcome), (pageOutcomes lb s)[i]? = some o → chunkField t.chunkstat i = outcomeCode s.cfg o) ∧
    (∀ i, chunksOf lb ≤ i → i < 8 → chunkField t.chunkstat i = 0) ∧
    t.chunkstat.extractLsb' 16 16 = 0) ∧
  (∀ (i : Instr) (s t : State), (∀ lb, i ≠ .eccpage lb) ∨ ¬ basesAligned i s → exec i s = .next t →
    t.chunkstat = s.chunkstat) ∧
  (∀ (s t : State), (∀ w es, s.pending ≠ .hostWrite 0x00 32 w :: es) → (∀ es, s.pending ≠ .platformReset :: es) →
    step s = .next t → t.chunkstat = s.chunkstat)

/-! ### Frames, completion, faults -/

/-- The frame of every command: `CMD`, the operand registers, the parameters, the pending events and the host's last
reads are unchanged, and so is every byte the command does not store to; `CHUNKSTAT` is unchanged but by ECCPAGE; of the
registers nothing has written only `RESULT` and `CHUNKSTAT` can leave the list; a mark is kept (log 3); a rejected
command leaves memory, `RESULT` and `CHUNKSTAT` as they are. -/
def Obligations.CommandFrame : Prop :=
  ∀ (i : Instr) (s t : State), exec i s = .next t →
    t.cmd = s.cmd ∧ t.operands = s.operands ∧ t.cfg = s.cfg ∧ t.pending = s.pending ∧ t.hostData = s.hostData ∧
    t.hostBytes = s.hostBytes ∧
    (∀ x : Word, ¬ storesTo i s x → t.peek x = s.peek x) ∧
    ((∀ lb, i ≠ .eccpage lb) → t.chunkstat = s.chunkstat) ∧
    (∀ r, r ∈ t.unwritten → r ∈ s.unwritten) ∧
    (∀ r, r ∈ s.unwritten → r ≠ .result → r ≠ .chunkstat → r ∈ t.unwritten) ∧
    (∀ m, s.mark = some m → t.mark = some m) ∧
    (¬ basesAligned i s → t.mem = s.mem ∧ t.result = s.result ∧ t.chunkstat = s.chunkstat ∧ t.unwritten = s.unwritten)

/-- Every command completes, with `STATUS` = 1, in every state where its word bases are aligned and the bytes it may
access are admitted (R56, R51, R85). That it completes, marked, also when it reads an operand register nothing has
written since reset, where R166 and R174 have a model fault, is the model's (log 3). -/
def Obligations.AdmittedCommandCompletes : Prop :=
  ∀ (i : Instr) (s : State), basesAligned i s → accessesAdmitted i s →
    ∃ t, exec i s = .next t ∧ t.status = 0x00000001

/-- R51, R171, R174: a command stops only on a byte that is not admitted, only after it has been accepted, and is
never refused. The model's in this: that reading an operand register nothing has written since reset is no stop (log
3), that a register pointing into the window faults and is not refused (log 9), and that the fault names the address
of the access (log 8). -/
def Obligations.CommandStopsOnlyOnUnadmittedByte : Prop :=
  (∀ (i : Instr) (s : State) (e : Fault), exec i s = .fault e →
    basesAligned i s ∧ ∃ a j, e = .memFault a ∧ j < 4 ∧ admits s.cfg (addrAt a j) = false) ∧
  (∀ (i : Instr) (s : State) (r : Refusal), exec i s ≠ .refused r)

/-- R51, R174: an accepted command other than ECCPAGE stops at its first access, in the order of its pseudocode, that
touches a byte not admitted, with the fault that names the access's address (log 8); with no such access it
completes. That the run goes on, marked, past a register nothing has written since reset is the model's (log 3). -/
def Obligations.CommandFaultsAtFirstUnadmittedAccess : Prop :=
  ∀ (i : Instr) (s : State), (∀ lb, i ≠ .eccpage lb) → basesAligned i s →
    (∀ (a : Word) (n : Nat),
      (accessesOf i s).find? (fun x => decide (¬ accessAdmitted s.cfg x)) = some (a, n) →
      exec i s = .fault (.memFault a)) ∧
    ((∀ x ∈ accessesOf i s, accessAdmitted s.cfg x) → ∃ t, exec i s = .next t ∧ t.status = 0x00000001)

/-- R51, R123: ECCPAGE stops where its parts stop: at the first access of its unpack that touches a byte not
admitted, else where ECCCORR of its chunks, one after the other on what the unpack left, first stops. The fault of a
word access names the access's own address (log 8). That the run goes on, marked, past a register nothing has written
since reset is the model's (log 3). -/
def Obligations.EccpageFaultsWhereItsPartsFault : Prop :=
  ∀ (lb : PageSize) (s : State), basesAligned (.eccpage lb) s →
    (∀ (a : Word) (n : Nat),
      (accessesOf (.eccpage lb) s).find? (fun x => decide (¬ accessAdmitted s.cfg x)) = some (a, n) →
      exec (.eccpage lb) s = .fault (.memFault a)) ∧
    (∀ (u : State) (e : Fault), exec (.eccunpack (chunksOf lb)) s = .next u →
      correctionsFault (List.range (chunksOf lb)) u = some e → exec (.eccpage lb) s = .fault e)

/-- R23: the outcome of a command depends on no operand register but those its row marks. -/
def Obligations.CommandReadsOnlyItsRegisters : Prop :=
  ∀ (i : Instr) (s : State) (f : OperandFile), (∀ r ∈ registersOf i, f.get r = s.reg r) →
    exec i { s with operands := f } = mapNext (fun t => { t with operands := f }) (exec i s)

/-- R29: the outcome of a command does not depend on `CMD`, `STATUS`, `RESULT` or `CHUNKSTAT`. -/
def Obligations.CommandIgnoresEarlierOutcome : Prop :=
  ∀ (i : Instr) (s : State) (c st r cs : Word),
    match exec i s, exec i { s with cmd := c, status := st, result := r, chunkstat := cs } with
    | .next t, .next u =>
      u.mem = t.mem ∧ u.status = t.status ∧ u.operands = t.operands ∧ u.mark = t.mark ∧
      (t.status = 0x00000001 → u.result = t.result ∧ ∀ lb, i = .eccpage lb → u.chunkstat = t.chunkstat)
    | .fault e, .fault e' => e' = e
    | _, _ => False

/-- R34 and R174 in the model's form (log 3): a command reading an operand register not written since reset marks the
run with the first such register, in the order it reads them (log 15); one rejected for alignment has read the registers
marked `a` up to the first misaligned one (R166 step 3, log 22); a marked run keeps its mark. -/
def Obligations.UnwrittenOperandMarksTheRun : Prop :=
  ∀ (i : Instr) (s t : State), exec i s = .next t →
    (∀ m, s.mark = some m → t.mark = some m) ∧
    (s.mark = none → basesAligned i s →
      t.mark = ((readRegs i).find? fun r => decide (.operand r ∈ s.unwritten)).map .unwrittenOperand) ∧
    (s.mark = none → ¬ basesAligned i s →
      t.mark = ((testedRegs s (markedA i)).find? fun r => decide (.operand r ∈ s.unwritten)).map .unwrittenOperand) ∧
    readRegs i = markedA i ++ markedOther i ∧
    (∀ r, r ∈ readRegs i ↔ r ∈ registersOf i)

/-- R174: a mark is kept for the rest of the run, whatever the step. That a marked run goes on is the model's (log 3). -/
def Obligations.MarkIsKeptForTheRun : Prop :=
  ∀ (s t : State) (m : Mark), s.mark = some m → step s = .next t → t.mark = some m

/-! ### The invariant -/

/-- Every step keeps the invariant: memory in canonical form, `STATUS` and `RESULT` legal, `CHUNKSTAT`'s reserved half 0,
the parameters within R8's constraints. -/
def Obligations.StepKeepsInvariant : Prop := ∀ s t : State, s.Inv → step s = .next t → t.Inv

/-- The machine right after reset meets the invariant. -/
def Obligations.ResetMeetsInvariant : Prop := State.reset.Inv

/-- R33: no step changes the parameters. -/
def Obligations.ParametersAreFixedForARun : Prop := ∀ s t : State, step s = .next t → t.cfg = s.cfg

/-- R34, R185: the registers the spec gives a reset value have it, in the initial state and after the platform's reset,
which leaves memory and the parameters alone. -/
def Obligations.ResetValues : Prop :=
  State.reset.cmd = 0x00000000 ∧ State.reset.status = 0x00000000 ∧
  ∀ (s : State) (es : List BusEvent), s.pending = .platformReset :: es →
    ∃ t, step s = .next t ∧ t.cmd = 0x00000000 ∧ t.status = 0x00000000 ∧ t.mem = s.mem ∧ t.cfg = s.cfg ∧
      t.pending = es ∧ t.mark = s.mark ∧
      ∀ r, r ∈ t.unwritten ↔ (r = .result ∨ r = .chunkstat ∨ ∃ p, r = .operand p)

/-! ### The window -/

/-- R20: the offsets of the eleven registers; every other aligned offset is reserved. -/
def Obligations.WindowOffsets : Prop :=
  [windowReg 0x00, windowReg 0x04, windowReg 0x08, windowReg 0x0C, windowReg 0x10, windowReg 0x14, windowReg 0x18,
    windowReg 0x1C, windowReg 0x20, windowReg 0x24, windowReg 0x28] =
  [some .cmd, some .status, some .result, some .chunkstat, some (.operand .sparePtr), some (.operand .eccPtr),
    some (.operand .genPtr), some (.operand .bufPtr), some (.operand .descPtr), some (.operand .dataregPtr),
    some (.operand .eccregPtr)] ∧
  (∀ o : BitVec 6, 0x2C ≤ o.toNat → windowReg o = none) ∧
  (∀ r : WindowReg, windowReg (windowOffset r) = some r)

/-- R21: a read returns the register (0 at a reserved offset) and has no side effect on any register; a write to a
read-only register or a reserved offset changes nothing; an access of another width or alignment stops, by a fault of
the model (log 14). That the value read is kept in `hostData`, and that reading a register nothing has written since
reset marks the run and does not stop it (R174 `UnwrittenRead`), are the model's (log 13, log 3). -/
def Obligations.WindowAccessRules : Prop :=
  (∀ (s : State) (r : WindowReg), hostRead (windowOffset r) 32 s =
    .next { s with
      hostData := some (s.windowValue r)
      mark := match s.mark with
        | some m => some m
        | none => if r ∈ s.unwritten then some (.unwrittenRead r) else none }) ∧
  (∀ (s : State) (o : BitVec 6), 0x2C ≤ o.toNat → o.toNat % 4 = 0 →
    hostRead o 32 s = .next { s with hostData := some 0 } ∧ ∀ v, hostWrite o 32 v s = .next s) ∧
  (∀ (s : State) (v : Word), hostWrite 0x04 32 v s = .next s ∧ hostWrite 0x08 32 v s = .next s ∧
    hostWrite 0x0C 32 v s = .next s) ∧
  (∀ (s : State) (o : BitVec 6) (bits : Nat) (v : Word), bits ≠ 32 ∨ o.toNat % 4 ≠ 0 →
    hostRead o bits s = .fault (.badHostAccess o bits) ∧ hostWrite o bits v s = .fault (.badHostAccess o bits))

/-- R22: an operand register holds what the host last wrote, every bit of it, no register aliases another, and nothing
but a host write (and the platform's reset) changes one. -/
def Obligations.OperandRegistersHoldWhatTheHostWrote : Prop :=
  (∀ (s : State) (r : OperandReg) (v : Word) (es : List BusEvent),
    s.pending = .hostWrite (windowOffset (.operand r)) 32 v :: es →
    ∃ t, step s = .next t ∧ t.reg r = v ∧ (∀ q, q ≠ r → t.reg q = s.reg q) ∧ t.mem = s.mem ∧ t.status = s.status ∧
      .operand r ∉ t.unwritten) ∧
  (∀ s t : State, (∀ r v es, s.pending ≠ .hostWrite (windowOffset (.operand r)) 32 v :: es) →
    (∀ es, s.pending ≠ .platformReset :: es) → step s = .next t → t.operands = s.operands)

/-- R6, R54: the host reads the shared memory: it gets the bytes from the address on, modulo 2^32, the lowest address
first (so of a word its least significant byte first), and memory and every register are unchanged. That the bytes are
kept in `hostBytes` and that no byte is refused are the model's (log 13, log 24). -/
def Obligations.HostReadsSharedMemory : Prop :=
  (∀ (s : State) (a : Word) (n : Nat) (es : List BusEvent), s.pending = .hostLoad a n :: es →
    step s = .next { s with pending := es, hostBytes := (List.range n).map fun j => s.peek (addrAt a j) }) ∧
  (∀ (s : State) (a : Word) (es : List BusEvent), s.pending = .hostLoad a 4 :: es →
    step s = .next { s with
      pending := es
      hostBytes := (List.range 4).map fun j => (s.peekWord a).extractLsb' (8 * j) 8 })

/-- R31, R200: an environment write puts its bytes at consecutive addresses, changes no other byte and no register. -/
def Obligations.EnvironmentWritesLand : Prop :=
  ∀ (s : State) (a : Word) (bs : List Byte) (es : List BusEvent), bs.length ≤ 2 ^ 32 →
    s.pending = .envWrite a bs :: es →
    ∃ t, step s = .next t ∧ t = { s with pending := es, mem := t.mem } ∧
      (∀ (j : Nat) (h : j < bs.length), t.peek (addrAt a j) = bs[j]) ∧
      ∀ x, (∀ j < bs.length, x ≠ addrAt a j) → t.peek x = s.peek x

/-! ### Memory accesses -/

/-- R51: no byte of the block's own window is admitted, and a byte outside it is admitted exactly when a region of the
platform's map (log 7) holds it. -/
def Obligations.AdmissionIsTheMapOutsideTheWindow : Prop :=
  (∀ (c : Config) (k : Nat), k < 64 → admits c (addrAt c.regBase k) = false) ∧
  (∀ (c : Config) (a : Word), (∀ k < 64, a ≠ addrAt c.regBase k) →
    (admits c a = true ↔ ∃ r ∈ c.admitted, ∃ k < r.size, a = addrAt r.base k))

/-- R52, R54: an admitted read returns the byte, or the four bytes little-endian, and changes nothing; it needs every
byte admitted, else the access faults at its own address (log 8). -/
def Obligations.MemReadIsLittleEndian : Prop :=
  (∀ (s : State) (a : Word), admits s.cfg a = true → s.readByte a = .ok (s.peek a)) ∧
  (∀ (s : State) (a : Word), admits s.cfg a = false → s.readByte a = .error (.memFault a)) ∧
  (∀ (s : State) (a : Word), (∀ j < 4, admits s.cfg (addrAt a j) = true) →
    s.readWord a = .ok (s.peek (addrAt a 3) ++ s.peek (addrAt a 2) ++ s.peek (addrAt a 1) ++ s.peek a)) ∧
  (∀ (s : State) (a : Word) (j : Nat), j < 4 → admits s.cfg (addrAt a j) = false →
    s.readWord a = .error (.memFault a))

/-- R53: an admitted write puts the byte, or the word's four bytes least significant first, at the address; it
changes no other byte and no register; it needs every byte admitted, else the access faults at its own address (log 8). -/
def Obligations.MemWriteChangesOnlyItsBytes : Prop :=
  (∀ (s : State) (a : Word) (v : Byte), admits s.cfg a = true →
    ∃ t, s.writeByte a v = .ok t ∧ t = { s with mem := t.mem } ∧ t.peek a = v ∧ ∀ x, x ≠ a → t.peek x = s.peek x) ∧
  (∀ (s : State) (a : Word) (v : Byte), admits s.cfg a = false → s.writeByte a v = .error (.memFault a)) ∧
  (∀ (s : State) (a v : Word), (∀ j < 4, admits s.cfg (addrAt a j) = true) →
    ∃ t, s.writeWord a v = .ok t ∧ t = { s with mem := t.mem } ∧
      t.peek a = v.extractLsb' 0 8 ∧ t.peek (addrAt a 1) = v.extractLsb' 8 8 ∧
      t.peek (addrAt a 2) = v.extractLsb' 16 8 ∧ t.peek (addrAt a 3) = v.extractLsb' 24 8 ∧
      ∀ x, x ∉ wordBytes a → t.peek x = s.peek x) ∧
  (∀ (s : State) (a v : Word) (j : Nat), j < 4 → admits s.cfg (addrAt a j) = false →
    s.writeWord a v = .error (.memFault a))

/-- R58: every address is a base register plus an offset, modulo 2^32, and no command modifies a base register. -/
def Obligations.AddressesAreBasePlusOffset : Prop :=
  (∀ (s : State) (e : Fin 6), (s.spareAddr .small e).toNat =
    ((s.reg .sparePtr).toNat + (s.cfg.spLayout[e]).val) % 2 ^ 32) ∧
  (∀ (s : State) (e : Fin 24), (s.spareAddr .large e).toNat =
    ((s.reg .sparePtr).toNat + (s.cfg.lpLayout[e]).val) % 2 ^ 32) ∧
  (∀ s : State, (s.markerAddr .small).toNat = ((s.reg .sparePtr).toNat + s.cfg.sbBbOffs.val) % 2 ^ 32 ∧
    (s.markerAddr .large).toNat = ((s.reg .sparePtr).toNat + s.cfg.lbBbOffs.val) % 2 ^ 32) ∧
  (∀ (s : State) (k : Nat), (s.eccAddr k).toNat = ((s.reg .eccPtr).toNat + 4 * k) % 2 ^ 32 ∧
    (s.genAddr k).toNat = ((s.reg .genPtr).toNat + 4 * k) % 2 ^ 32) ∧
  (∀ (s : State) (idx : Nat) (err : Word), byteOff s.cfg err < 256 ∧
    (s.correctAddr idx err).toNat = ((s.reg .bufPtr).toNat + (256 * idx + byteOff s.cfg err)) % 2 ^ 32) ∧
  (∀ (s : State) (i j : Nat), (s.descAddr i j).toNat = ((s.reg .descPtr).toNat + (16 * i + 4 * j)) % 2 ^ 32) ∧
  (∀ (i : Instr) (s t : State), exec i s = .next t → t.operands = s.operands)

/-! ### ECCPACK and ECCUNPACK -/

/-- R101: bit by bit, what packing and unpacking do, that each undoes the other up to the bits that do not pass, and
what an erased spare area holds. -/
def Obligations.SyndromeTransformIsInverse : Prop :=
  (∀ (v : Word) (i : Nat), i < 22 → (packSyndrome v).getLsbD (i + 2) = !v.getLsbD i) ∧
  (∀ v : Word, (packSyndrome v).getLsbD 0 = true ∧ (packSyndrome v).getLsbD 1 = true ∧ (packSyndrome v).toNat < 2 ^ 24) ∧
  (∀ (u : Word) (i : Nat), i < 22 → (unpackSyndrome u).getLsbD i = !u.getLsbD (i + 2)) ∧
  (∀ u : Word, (unpackSyndrome u).toNat < 2 ^ 22) ∧
  (∀ v : Word, unpackSyndrome (packSyndrome v) = v &&& 0x003FFFFF) ∧
  (∀ u : Word, u.toNat < 2 ^ 24 → packSyndrome (unpackSyndrome u) = u ||| 0x00000003) ∧
  unpackSyndrome 0x00FFFFFF = 0 ∧ packSyndrome 0 = 0x00FFFFFF

/-- R103: ECCPACK with a valid count, on objects that do not overlap: each syndrome word goes inverted and shifted
into its three spare bytes, most significant byte at the lowest entry; `RESULT` = 1; no other byte changes. The mark that
`afterCommand` names is the model's (log 3), here and below. -/
def Obligations.EccpackPacksEverySyndrome : Prop :=
  ∀ (count : Nat) (lb : PageSize) (s : State), validCount count lb → basesAligned (.eccpack count) s →
    accessesAdmitted (.eccpack count) s → s.cfg.LayoutsInjective →
    (∀ x, inSpareLayout s lb x → ¬ inWords s.eccAddr (chunksOf lb) x) →
    ∃ t, exec (.eccpack count) s = .next t ∧ t = afterCommand (.eccpack count) s t.mem 1 ∧
      (∀ k < chunksOf lb,
        t.peek (s.spareAddr lb (3 * k)) = (packed (s.peekWord (s.eccAddr k))).extractLsb' 16 8 ∧
        t.peek (s.spareAddr lb (3 * k + 1)) = (packed (s.peekWord (s.eccAddr k))).extractLsb' 8 8 ∧
        t.peek (s.spareAddr lb (3 * k + 2)) = (packed (s.peekWord (s.eccAddr k))).extractLsb' 0 8) ∧
      ∀ x, ¬ inSpareLayout s lb x → t.peek x = s.peek x

/-- R104: ECCUNPACK with a valid count, on objects that do not overlap: each syndrome word is the inverse transform of
its three spare bytes; `RESULT` = 1; no other byte changes (the mark: log 3). -/
def Obligations.EccunpackUnpacksEverySyndrome : Prop :=
  ∀ (count : Nat) (lb : PageSize) (s : State), validCount count lb → basesAligned (.eccunpack count) s →
    accessesAdmitted (.eccunpack count) s →
    (∀ x, inSpareLayout s lb x → ¬ inWords s.eccAddr (chunksOf lb) x) →
    ∃ t, exec (.eccunpack count) s = .next t ∧ t = afterCommand (.eccunpack count) s t.mem 1 ∧
      (∀ k < chunksOf lb, t.peekWord (s.eccAddr k) = storedSyndrome s lb k) ∧
      ∀ x, ¬ inWords s.eccAddr (chunksOf lb) x → t.peek x = s.peek x

/-- R103, R104 corner case (a): any other count gives `RESULT` = 0 and touches no memory, admitted or not (the
mark: log 3). -/
def Obligations.InvalidCountGivesZero : Prop :=
  ∀ (count : Nat) (s : State), count ≠ 2 → count ≠ 8 → aligned4 (s.reg .eccPtr) →
    exec (.eccpack count) s = .next (afterCommand (.eccpack count) s s.mem 0) ∧
    exec (.eccunpack count) s = .next (afterCommand (.eccunpack count) s s.mem 0)

/-- R105: ECCPACK, then ECCUNPACK of the same spare image into another array, reproduces the syndromes in 22 bits.
(The mark: log 3.) -/
def Obligations.PackThenUnpackReproducesSyndromes : Prop :=
  ∀ (count : Nat) (lb : PageSize) (s : State) (ecc2 : Word), validCount count lb →
    basesAligned (.eccpack count) s → basesAligned (.eccunpack count) (s.setOperand .eccPtr ecc2) →
    accessesAdmitted (.eccpack count) s → accessesAdmitted (.eccunpack count) (s.setOperand .eccPtr ecc2) →
    s.cfg.LayoutsInjective →
    (∀ x, inSpareLayout s lb x → ¬ inWords s.eccAddr (chunksOf lb) x ∧
      ¬ inWords (s.setOperand .eccPtr ecc2).eccAddr (chunksOf lb) x) →
    ∃ t u, exec (.eccpack count) s = .next t ∧ exec (.eccunpack count) (t.setOperand .eccPtr ecc2) = .next u ∧
      ∀ k < chunksOf lb, u.peekWord ((s.setOperand .eccPtr ecc2).eccAddr k) = s.peekWord (s.eccAddr k) &&& 0x003FFFFF

/-- R106: ECCUNPACK, then ECCPACK on the same spare image, leaves every syndrome byte as it was but for the two low
bits of each least significant byte, which become 1. (The mark: log 3.) -/
def Obligations.UnpackThenPackRestoresSpare : Prop :=
  ∀ (count : Nat) (lb : PageSize) (s : State), validCount count lb → basesAligned (.eccpack count) s →
    accessesAdmitted (.eccpack count) s → s.cfg.LayoutsInjective →
    (∀ x, inSpareLayout s lb x → ¬ inWords s.eccAddr (chunksOf lb) x) →
    ∃ t u, exec (.eccunpack count) s = .next t ∧ exec (.eccpack count) t = .next u ∧
      ∀ k < chunksOf lb,
        u.peek (s.spareAddr lb (3 * k)) = s.peek (s.spareAddr lb (3 * k)) ∧
        u.peek (s.spareAddr lb (3 * k + 1)) = s.peek (s.spareAddr lb (3 * k + 1)) ∧
        u.peek (s.spareAddr lb (3 * k + 2)) = s.peek (s.spareAddr lb (3 * k + 2)) ||| 0x03

/-! ### ECCCORR and ECCPAGE -/

/-- R11: the population count is the number of bits that are 1, an integer in 0..32. -/
def Obligations.PopcountCountsOnes : Prop := ∀ v : Word, popcount32 v = onesOf v ∧ popcount32 v ≤ 32

/-- R116, R120: ECCCORR's outcome by the number of ones of `err`, total over its 2^32 values; with 11 ones exactly one
bit of memory changes, in the other three cases none. That the run goes on, marked, past a register nothing has written
is the model's (log 3). -/
def Obligations.EcccorrFollowsDecisionTable : Prop :=
  ∀ (idx : Nat) (s : State), basesAligned (.ecccorr idx) s → accessesAdmitted (.ecccorr idx) s →
    (onesOf (errAt s idx) = 0 →
      exec (.ecccorr idx) s = .next (afterCommand (.ecccorr idx) s s.mem (s.cfg.eccNoErr.setWidth 32))) ∧
    (onesOf (errAt s idx) = 1 →
      exec (.ecccorr idx) s = .next (afterCommand (.ecccorr idx) s s.mem (s.cfg.eccAreaErr.setWidth 32))) ∧
    (onesOf (errAt s idx) = 11 →
      ∃ t, exec (.ecccorr idx) s = .next t ∧
        t = afterCommand (.ecccorr idx) s t.mem (s.cfg.eccCorrected.setWidth 32) ∧
        ∀ (x : Word) (j : Nat), j < 8 → (t.peek x).getLsbD j =
          if x = s.correctAddr idx (errAt s idx) ∧ j = bitOff s.cfg (errAt s idx) then !(s.peek x).getLsbD j
          else (s.peek x).getLsbD j) ∧
    (onesOf (errAt s idx) ∉ [0, 1, 11] →
      exec (.ecccorr idx) s = .next (afterCommand (.ecccorr idx) s s.mem (s.cfg.eccNotCorrectable.setWidth 32)))

/-- R118, R119: the offsets are read from the selected bits, whatever the others are, and lie in the chunk and the byte;
with the default tables they are the odd members of the pairs. -/
def Obligations.LocatedBitLiesInTheChunk : Prop :=
  (∀ (c : Config) (err : Word), bitOff c err < 8 ∧ byteOff c err < 256) ∧
  (∀ (c : Config) (err : Word) (j : Fin 3), (bitOff c err).testBit j.val = err.getLsbD (c.bitSel[j]).val) ∧
  (∀ (c : Config) (err : Word) (k : Fin 8), (byteOff c err).testBit k.val = err.getLsbD (c.byteSel[k]).val) ∧
  (∀ (err : Word) (j : Nat), j < 3 → (bitOff defaultConfig err).testBit j = err.getLsbD (2 * j + 1)) ∧
  (∀ (err : Word) (k : Nat), k < 8 → (byteOff defaultConfig err).testBit k = err.getLsbD (2 * k + 7))

/-- R120 corner case (a), R201: ECCCORR run twice on a chunk with 11 ones in `err` undoes the correction. (The mark:
log 3.) -/
def Obligations.EcccorrTwiceUndoesTheCorrection : Prop :=
  ∀ (idx : Nat) (s : State), basesAligned (.ecccorr idx) s → accessesAdmitted (.ecccorr idx) s →
    onesOf (errAt s idx) = 11 →
    s.correctAddr idx (errAt s idx) ∉ wordBytes (s.eccAddr idx) →
    s.correctAddr idx (errAt s idx) ∉ wordBytes (s.genAddr idx) →
    ∃ t u, exec (.ecccorr idx) s = .next t ∧ exec (.ecccorr idx) t = .next u ∧
      u.result = s.cfg.eccCorrected.setWidth 32 ∧ ∀ x, u.peek x = s.peek x

/-- R128's closed form: with the reference generator of R127 (log 18), flipping bit `b` of byte `B` of any chunk changes
the syndrome by `err(B, b)`, which has 11 ones and selects exactly that bit. -/
def Obligations.SyndromeDifferenceOfOneFlip : Prop :=
  LocatesFlips eccGen ∧
  ∀ B b : Nat, B < 256 → b < 8 →
    onesOf (errOfFlip B b) = 11 ∧ bitOff defaultConfig (errOfFlip B b) = b ∧ byteOff defaultConfig (errOfFlip B b) = B

/-- R127: a generator that differs from another by a fixed XOR mask gives the same difference between any two chunks, so
it serves equally. -/
def Obligations.MaskedGeneratorServesEqually : Prop :=
  ∀ (g : EccGenerator) (m : BitVec 22) (D D' : Chunk),
    syndromeWord (maskedGen g m) D ^^^ syndromeWord (maskedGen g m) D' = syndromeWord g D ^^^ syndromeWord g D'

/-- R128: with the reference generator (log 18), or any other whose syndrome changes by the closed form of R128, a
single flipped bit of a chunk is restored by ECCCORR. (The mark: log 3.) -/
def Obligations.SingleBitFlipIsRecovered : Prop :=
  ∀ (g : EccGenerator) (idx : Nat) (s : State) (D : Chunk) (B : Fin 256) (b : Nat), b < 8 →
    (g = eccGen ∨ syndromeWord g D ^^^ syndromeWord g (flipped D B b) = errOfFlip B.val b) →
    s.cfg.bitSel = defaultConfig.bitSel → s.cfg.byteSel = defaultConfig.byteSel →
    basesAligned (.ecccorr idx) s → accessesAdmitted (.ecccorr idx) s →
    s.peekWord (s.eccAddr idx) = syndromeWord g D → s.peekWord (s.genAddr idx) = syndromeWord g (flipped D B b) →
    (∀ j : Fin 256, s.peek (addrAt (s.chunkAddr idx) j.val) = flipped D B b j) →
    ∃ t, exec (.ecccorr idx) s = .next t ∧ t.result = s.cfg.eccCorrected.setWidth 32 ∧
      ∀ j : Fin 256, t.peek (addrAt (s.chunkAddr idx) j.val) = D j

/-- R127, R147, R153: the environment's deposit of a page's generated syndromes leaves in word `k` of the array the
generator's syndrome of chunk `k`, for any generator, and changes no other byte and no register. That the deposit is one
event is the model's (log 10). -/
def Obligations.SyndromesAreDeposited : Prop :=
  ∀ (g : EccGenerator) (lb : PageSize) (s : State) (es : List BusEvent),
    s.pending = depositSyndromes g lb s :: es →
    ∃ t, step s = .next t ∧ t = { s with pending := es, mem := t.mem } ∧
      (∀ k < chunksOf lb, t.peekWord (s.genAddr k) =
        syndromeWord g fun j => s.peek (addrAt (s.reg .bufPtr) (256 * k + j.val))) ∧
      ∀ x, ¬ inWords s.genAddr (chunksOf lb) x → t.peek x = s.peek x

/-- R124: which outcomes fail a page, by page size and `LB_AREA_ERR_FAILS`, and the failure value. -/
def Obligations.PageFailsByPageSize : Prop :=
  (∀ (c : Config) (lb : PageSize) (o : EccOutcome), c.CodesDistinct →
    (pageFails c lb (outcomeCode c o) = true ↔ failsPage c lb o)) ∧
  (∀ lb, pageResult lb true = 0xFFFFFFFF) ∧ pageResult .small false = 512 ∧ pageResult .large false = 2048

/-- R123, R124: ECCPAGE on objects that do not overlap, in closed form: the stored syndromes are unpacked, every chunk
is decided and corrected on its own difference, `CHUNKSTAT` and `RESULT` collate the outcomes, no other byte or register
changes (the mark: log 3). -/
def Obligations.EccpageCorrectsEveryChunk : Prop :=
  ∀ (lb : PageSize) (s : State) (err : Nat → Word),
    (∀ k, err k = storedSyndrome s lb k ^^^ s.peekWord (s.genAddr k)) →
    basesAligned (.eccpage lb) s → accessesAdmitted (.eccpage lb) s → s.cfg.CodesDistinct →
    (∀ x, inWords s.eccAddr (chunksOf lb) x →
      ¬ inSpareLayout s lb x ∧ ¬ inWords s.genAddr (chunksOf lb) x ∧ ¬ inBuffer s lb x) →
    (∀ x, inWords s.genAddr (chunksOf lb) x → ¬ inBuffer s lb x) →
    ∃ t, exec (.eccpage lb) s = .next t ∧ t = afterPage lb s t.mem t.result t.chunkstat ∧
      ((∃ k < chunksOf lb, failsPage s.cfg lb (outcomeOf (err k))) → t.result = 0xFFFFFFFF) ∧
      ((∀ k < chunksOf lb, ¬ failsPage s.cfg lb (outcomeOf (err k))) → t.result = mainBytes lb) ∧
      (∀ k < chunksOf lb, chunkField t.chunkstat k = outcomeCode s.cfg (outcomeOf (err k))) ∧
      (∀ k < chunksOf lb, t.peekWord (s.eccAddr k) = storedSyndrome s lb k) ∧
      (∀ k < chunksOf lb, ∀ j < 256, t.peek (addrAt (s.chunkAddr k) j) =
        if onesOf (err k) = 11 ∧ j = byteOff s.cfg (err k) then
          s.peek (addrAt (s.chunkAddr k) j) ^^^ ((1 : Byte) <<< bitOff s.cfg (err k))
        else s.peek (addrAt (s.chunkAddr k) j)) ∧
      ∀ x, ¬ inWords s.eccAddr (chunksOf lb) x → ¬ inBuffer s lb x → t.peek x = s.peek x

/-- R122, R123: ECCPAGE is ECCUNPACK followed by ECCCORR of each chunk in ascending order, whether the objects
overlap or not: the same memory, and `CHUNKSTAT` holds the `RESULT` of each correction. (The mark: log 3.) -/
def Obligations.EccpageIsUnpackThenCorrections : Prop :=
  ∀ (lb : PageSize) (s u v : State) (rs : List Word), basesAligned (.eccpage lb) s →
    exec (.eccunpack (chunksOf lb)) s = .next u →
    runCorrections (List.range (chunksOf lb)) u = some (rs, v) →
    ∃ t, exec (.eccpage lb) s = .next t ∧ t.mem = v.mem ∧ rs.length = chunksOf lb ∧
      (∀ (i : Nat) (r : Word), rs[i]? = some r → (chunkField t.chunkstat i).setWidth 32 = r) ∧
      (t.result = 0xFFFFFFFF ↔ ∃ r ∈ rs, pageFails s.cfg lb (r.setWidth 2) = true)

/-! ### BBCHECK and BBMARK -/

/-- R137: every word with opcode 5: rejected with code 2 when a reserved field is set, else the marker byte is read and
compared with the good marker, or the access faults; no byte and no register but `CMD`, `RESULT` and `STATUS` changes.
That the command runs, marked, with a `SPARE_PTR` nothing has written is the model's (log 3). -/
def Obligations.BbcheckTestsTheMarker : Prop :=
  ∀ (w : Word) (s : State), opc w = 5 →
    (wrBitOf w ≠ 0 ∨ rsv0 w ≠ 0 ∨ imm8 w ≠ 0 ∨ rsv1 w ≠ 0 →
      writeCmd w s = .next { s with cmd := w, status := 0x00000022 }) ∧
    (wrBitOf w = 0 → rsv0 w = 0 → imm8 w = 0 → rsv1 w = 0 →
      ∀ a, a = addrAt (s.reg .sparePtr) (if lbBitOf w = 1 then s.cfg.lbBbOffs.val else s.cfg.sbBbOffs.val) →
        (admits s.cfg a = true → writeCmd w s = .next (afterCommand (.bbcheck (pageOf w)) { s with cmd := w } s.mem
          (if s.peek a ≠ s.cfg.goodMarker then 1 else 0))) ∧
        (admits s.cfg a = false → writeCmd w s = .fault (.memFault a)))

/-- R138: every word with opcode 6: rejected with code 2 when a reserved field is set, else 0xFE is written to the
marker byte and to no other byte, `RESULT` = 1, or the access faults; run twice it leaves what it left once. The mark is
the model's (log 3). -/
def Obligations.BbmarkWritesTheMarker : Prop :=
  (∀ (w : Word) (s : State), opc w = 6 →
    (wrBitOf w ≠ 0 ∨ rsv0 w ≠ 0 ∨ imm8 w ≠ 0 ∨ rsv1 w ≠ 0 →
      writeCmd w s = .next { s with cmd := w, status := 0x00000022 }) ∧
    (wrBitOf w = 0 → rsv0 w = 0 → imm8 w = 0 → rsv1 w = 0 →
      ∀ a, a = addrAt (s.reg .sparePtr) (if lbBitOf w = 1 then s.cfg.lbBbOffs.val else s.cfg.sbBbOffs.val) →
        (admits s.cfg a = true → ∃ t, writeCmd w s = .next t ∧
          t = afterCommand (.bbmark (pageOf w)) { s with cmd := w } t.mem 1 ∧
          t.peek a = 0xFE ∧ ∀ x, x ≠ a → t.peek x = s.peek x) ∧
        (admits s.cfg a = false → writeCmd w s = .fault (.memFault a)))) ∧
  (∀ (lb : PageSize) (s t : State), exec (.bbmark lb) s = .next t →
    ∃ u, exec (.bbmark lb) t = .next u ∧ u.result = t.result ∧ ∀ x, u.peek x = t.peek x)

/-- R139: BBMARK then BBCHECK with the same page size and spare image reports bad, when 0xFE is not the good marker;
an erased image reports good, when 0xFF is. (The mark: log 3.) -/
def Obligations.MarkedBlockReportsBad : Prop :=
  (∀ (lb : PageSize) (s t : State), s.cfg.goodMarker ≠ 0xFE → exec (.bbmark lb) s = .next t →
    ∃ u, exec (.bbcheck lb) t = .next u ∧ u.result = 1 ∧ ∀ x, u.peek x = t.peek x) ∧
  (∀ (lb : PageSize) (s : State), s.cfg.goodMarker = 0xFF → accessesAdmitted (.bbcheck lb) s →
    (∀ j < 64, s.peek (addrAt (s.reg .sparePtr) j) = 0xFF) →
    ∃ u, exec (.bbcheck lb) s = .next u ∧ u.result = 0)

/-! ### DMABUILD -/

/-- R146, R148, R149, R150: the words of every descriptor of the chain, `RESULT`, and that no other byte changes (the mark:
log 3). -/
def Obligations.DmabuildWritesTheChain : Prop :=
  ∀ (lb : PageSize) (wr : Direction) (s : State), basesAligned (.dmabuild lb wr) s →
    accessesAdmitted (.dmabuild lb wr) s →
    ∃ t, exec (.dmabuild lb wr) s = .next t ∧
      t = afterCommand (.dmabuild lb wr) s t.mem (match lb with | .small => 5 | .large => 17) ∧
      (∀ k < chunksOf lb,
        fourWords t (addrAt (s.reg .descPtr) (32 * k)) =
          (match wr with
            | .read => [s.reg .dataregPtr, addrAt (s.reg .bufPtr) (256 * k),
                addrAt (s.reg .descPtr) (32 * k + 16), s.cfg.ctrl.dataRead]
            | .write => [addrAt (s.reg .bufPtr) (256 * k), s.reg .dataregPtr,
                addrAt (s.reg .descPtr) (32 * k + 16), s.cfg.ctrl.dataWrite]) ∧
        fourWords t (addrAt (s.reg .descPtr) (32 * k + 16)) =
          [s.reg .eccregPtr, addrAt (s.reg .genPtr) (4 * k), addrAt (s.reg .descPtr) (32 * k + 32), s.cfg.ctrl.ecc]) ∧
      fourWords t (addrAt (s.reg .descPtr) (32 * chunksOf lb)) =
        (match wr, lb with
          | .read, .small => [s.reg .dataregPtr, s.reg .sparePtr, 0, s.cfg.ctrl.spareReadSmall]
          | .read, .large => [s.reg .dataregPtr, s.reg .sparePtr, 0, s.cfg.ctrl.spareReadLarge]
          | .write, .small => [s.reg .sparePtr, s.reg .dataregPtr, 0, s.cfg.ctrl.spareWriteSmall]
          | .write, .large => [s.reg .sparePtr, s.reg .dataregPtr, 0, s.cfg.ctrl.spareWriteLarge]) ∧
      ∀ x, (∀ j < 16 * descriptorsOf lb, x ≠ addrAt (s.reg .descPtr) j) → t.peek x = s.peek x

/-- R150: in a configuration that keeps the sizes, whatever its control words are, every data descriptor of the built chain
moves 256 bytes, every ECC descriptor one 32-bit register, the spare descriptor the full spare area, and the sizes of a
chain's main-area transfers add up to the page; read by R151's layout (log 23). The default table is such. -/
def Obligations.ChainMovesThePage : Prop :=
  (∀ (lb : PageSize) (wr : Direction) (s t : State), s.cfg.ctrl.KeepsSizes → basesAligned (.dmabuild lb wr) s →
    exec (.dmabuild lb wr) s = .next t →
    (∀ k < chunksOf lb,
      movedBytes (t.peekWord (addrAt (s.reg .descPtr) (32 * k + 12))) = some 256 ∧
      movedBytes (t.peekWord (addrAt (s.reg .descPtr) (32 * k + 28))) = some 4) ∧
    movedBytes (t.peekWord (addrAt (s.reg .descPtr) (32 * chunksOf lb + 12))) =
      some (match lb with | .small => 16 | .large => 64) ∧
    256 * chunksOf lb = (match lb with | .small => 512 | .large => 2048)) ∧
  defaultConfig.ctrl.KeepsSizes

/-- R145, R146: followed from `DESC_PTR` by its `next` words, the chain visits its 5 or 17 descriptors in order and ends,
unless the address of a descriptor but the first is 0 (V4.8). -/
def Obligations.ChainVisitsEveryDescriptor : Prop :=
  ∀ (lb : PageSize) (wr : Direction) (s t : State), basesAligned (.dmabuild lb wr) s →
    (∀ i, 0 < i → i < descriptorsOf lb → addrAt (s.reg .descPtr) (16 * i) ≠ 0) →
    exec (.dmabuild lb wr) s = .next t →
    ∀ n, descriptorsOf lb ≤ n →
      walkChain n t (s.reg .descPtr) = (List.range (descriptorsOf lb)).map fun i => addrAt (s.reg .descPtr) (16 * i)

/-- R148 corner cases (b), (d), (e): DMABUILD is idempotent, and a small-block build leaves descriptors 5 to 16 of an
earlier large-block build as they are. (The mark: log 3.) -/
def Obligations.DmabuildIsIdempotent : Prop :=
  (∀ (lb : PageSize) (wr : Direction) (s t : State), basesAligned (.dmabuild lb wr) s →
    exec (.dmabuild lb wr) s = .next t →
    ∃ u, exec (.dmabuild lb wr) t = .next u ∧ u.result = t.result ∧ ∀ x, u.peek x = t.peek x) ∧
  (∀ (wr : Direction) (s t : State), exec (.dmabuild .small wr) s = .next t →
    ∀ j, 80 ≤ j → j < 272 → t.peek (addrAt (s.reg .descPtr) j) = s.peek (addrAt (s.reg .descPtr) j))

/-! ### Scripts -/

/-- R83, R84: a command line writes to `CMD` the word R83 gives for it; the pseudo-instructions expand as R84 says. -/
def Obligations.ScriptLinesExpand : Prop :=
  (∀ imm < 256, (ScriptLine.command (.eccpack imm)).expand = [.hostWrite 0x00 32 (BitVec.ofNat 32 (imm * 256 + 1))] ∧
    (ScriptLine.command (.eccunpack imm)).expand = [.hostWrite 0x00 32 (BitVec.ofNat 32 (imm * 256 + 2))] ∧
    (ScriptLine.command (.ecccorr imm)).expand = [.hostWrite 0x00 32 (BitVec.ofNat 32 (imm * 256 + 3))]) ∧
  [Instr.eccpage .small, .eccpage .large, .bbcheck .small, .bbcheck .large, .bbmark .small, .bbmark .large,
    .dmabuild .small .read, .dmabuild .large .read, .dmabuild .small .write, .dmabuild .large .write].map
      (fun i => (ScriptLine.command i).expand) =
    [0x04, 0x14, 0x05, 0x15, 0x06, 0x16, 0x07, 0x17, 0x27, 0x37].map (fun w => [BusEvent.hostWrite 0x00 32 w]) ∧
  (ScriptLine.eccpackPage .small).expand = (ScriptLine.command (.eccpack 2)).expand ∧
  (ScriptLine.eccpackPage .large).expand = (ScriptLine.command (.eccpack 8)).expand ∧
  (ScriptLine.eccunpackPage .small).expand = (ScriptLine.command (.eccunpack 2)).expand ∧
  (ScriptLine.eccunpackPage .large).expand = (ScriptLine.command (.eccunpack 8)).expand ∧
  (∀ (r : WindowReg) (v : Word), (ScriptLine.wr r v).expand = [.hostWrite (windowOffset r) 32 v] ∧
    (ScriptLine.rd r).expand = [.hostRead (windowOffset r) 32]) ∧
  (∀ w : Word, (ScriptLine.cmd w).expand = [.hostWrite 0x00 32 w]) ∧
  (∀ a b c d : Word, (ScriptLine.setbufs a b c d).expand =
    [.hostWrite 0x10 32 a, .hostWrite 0x14 32 b, .hostWrite 0x18 32 c, .hostWrite 0x1C 32 d])
end

