-- ==== Sys2Proof/Laws/Memory.lean ====
section
/-! SUPPORT. The laws of the sparse memory: a read after a write, the canonical form, and that equal memories in
canonical form are equal lists. -/

namespace Sys2Proof.Machine

open Sys2Proof

/-! ### Reading -/

theorem Memory.read_erase (m : Memory) (x y : Nat) :
    (m.erase x).read y = if y = x then unlistedByte else m.read y := by
  induction m with
  | nil => simp [Memory.erase, Memory.read]
  | cons c m ih =>
    obtain ⟨a, b⟩ := c
    by_cases hax : a = x
    · subst hax
      simp only [Memory.erase, if_true, ih, Memory.read]
      by_cases hy : y = a
      · simp [hy]
      · simp [hy, Ne.symm hy]
    · simp only [Memory.erase, hax, if_false, Memory.read, ih]
      by_cases hay : a = y
      · subst hay; simp [hax]
      · simp [hay]

theorem Memory.read_insert (m : Memory) (x y : Nat) (v : Byte) (h : x ≠ y ∨ ∀ b, (x, b) ∉ m) :
    (m.insert x v).read y = if y = x then v else m.read y := by
  induction m with
  | nil => simp [Memory.insert, Memory.read, eq_comm]
  | cons c m ih =>
    obtain ⟨a, b⟩ := c
    unfold Memory.insert
    split
    · simp only [Memory.read]
      by_cases hxy : x = y
      · simp [hxy]
      · simp [hxy, Ne.symm hxy]
    · simp only [Memory.read]
      by_cases hay : a = y
      · subst hay
        rcases h with h | h
        · simp [Ne.symm h]
        · by_cases hax : a = x
          · subst hax; exact absurd (List.mem_cons_self ..) (h b)
          · simp [hax]
      · simp only [hay, if_false]
        exact ih (h.imp id fun h b hb => h b (List.mem_cons_of_mem _ hb))

theorem Memory.not_mem_erase (m : Memory) (x : Nat) (b : Byte) : (x, b) ∉ m.erase x := by
  induction m with
  | nil => simp [Memory.erase]
  | cons c m ih =>
    obtain ⟨a, b'⟩ := c
    unfold Memory.erase
    split
    · exact ih
    · rename_i h; simp only [List.mem_cons, Prod.mk.injEq, not_or]; exact ⟨fun e => h e.1.symm, ih⟩

/-- A read after a write gives the value written at that address and what was there at every other. -/
theorem Memory.read_write (m : Memory) (x y : Nat) (v : Byte) :
    (m.write x v).read y = if y = x then v else m.read y := by
  unfold Memory.write
  split
  · rename_i h; rw [Memory.read_erase, h]
  · rw [Memory.read_insert _ _ _ _ (.inr fun b => Memory.not_mem_erase m x b), Memory.read_erase]
    split <;> rfl

theorem Memory.read_write_same (m : Memory) (x : Nat) (v : Byte) : (m.write x v).read x = v := by
  simp [Memory.read_write]

theorem Memory.read_write_other (m : Memory) (x y : Nat) (v : Byte) (h : y ≠ x) :
    (m.write x v).read y = m.read y := by
  simp [Memory.read_write, h]

/-! ### The canonical form -/

theorem Memory.wfFrom_mono {lo lo' : Nat} {m : Memory} (h : lo' ≤ lo) (hw : Memory.wfFrom lo m = true) :
    Memory.wfFrom lo' m = true := by
  cases m with
  | nil => rfl
  | cons c m =>
    obtain ⟨a, b⟩ := c
    simp only [Memory.wfFrom, Bool.and_eq_true, decide_eq_true_eq] at hw ⊢
    exact ⟨⟨⟨by omega, hw.1.1.2⟩, hw.1.2⟩, hw.2⟩

theorem Memory.wfFrom_erase {lo : Nat} {m : Memory} (x : Nat) (hw : Memory.wfFrom lo m = true) :
    Memory.wfFrom lo (m.erase x) = true := by
  induction m generalizing lo with
  | nil => rfl
  | cons c m ih =>
    obtain ⟨a, b⟩ := c
    simp only [Memory.wfFrom, Bool.and_eq_true, decide_eq_true_eq] at hw
    unfold Memory.erase
    split
    · exact Memory.wfFrom_mono (by omega) (ih hw.2)
    · simp only [Memory.wfFrom, Bool.and_eq_true, decide_eq_true_eq]
      exact ⟨hw.1, ih hw.2⟩

theorem Memory.wfFrom_insert {lo x : Nat} {m : Memory} {v : Byte} (hw : Memory.wfFrom lo m = true) (hlo : lo ≤ x)
    (hx : x < 2 ^ 32) (hv : v ≠ unlistedByte) (hn : ∀ b, (x, b) ∉ m) :
    Memory.wfFrom lo (m.insert x v) = true := by
  induction m generalizing lo with
  | nil =>
    simp only [Memory.insert, Memory.wfFrom, Bool.and_eq_true, decide_eq_true_eq, and_true]
    exact ⟨⟨hlo, hx⟩, hv⟩
  | cons c m ih =>
    obtain ⟨a, b⟩ := c
    simp only [Memory.wfFrom, Bool.and_eq_true, decide_eq_true_eq] at hw
    have hax : a ≠ x := fun h => hn b (by simp [h])
    unfold Memory.insert
    split
    · simp only [Memory.wfFrom, Bool.and_eq_true, decide_eq_true_eq]
      exact ⟨⟨⟨hlo, hx⟩, hv⟩, ⟨⟨by omega, hw.1.1.2⟩, hw.1.2⟩, hw.2⟩
    · simp only [Memory.wfFrom, Bool.and_eq_true, decide_eq_true_eq]
      exact ⟨hw.1, ih hw.2 (by omega) fun b' hb => hn b' (List.mem_cons_of_mem _ hb)⟩

/-- A write keeps the canonical form. -/
theorem Memory.wf_write {m : Memory} (x : Nat) (v : Byte) (hx : x < 2 ^ 32) (hw : m.wf = true) :
    (m.write x v).wf = true := by
  unfold Memory.write
  split
  · exact Memory.wfFrom_erase x hw
  · rename_i hv
    exact Memory.wfFrom_insert (Memory.wfFrom_erase x hw) (Nat.zero_le x) hx hv (Memory.not_mem_erase m x)

/-- Below its first possible address a canonical memory lists nothing. -/
theorem Memory.read_below {lo : Nat} {m : Memory} (hw : Memory.wfFrom lo m = true) {x : Nat} (hx : x < lo) :
    m.read x = unlistedByte := by
  induction m generalizing lo with
  | nil => rfl
  | cons c m ih =>
    obtain ⟨a, b⟩ := c
    simp only [Memory.wfFrom, Bool.and_eq_true, decide_eq_true_eq] at hw
    unfold Memory.read
    rw [if_neg (by omega)]
    exact ih hw.2 (by omega)

theorem Memory.eq_of_read_from {lo : Nat} {m n : Memory} (hm : Memory.wfFrom lo m = true)
    (hn : Memory.wfFrom lo n = true) (h : ∀ x, m.read x = n.read x) : m = n := by
  induction m generalizing lo n with
  | nil =>
    cases n with
    | nil => rfl
    | cons d n =>
      obtain ⟨a, b⟩ := d
      simp only [Memory.wfFrom, Bool.and_eq_true, decide_eq_true_eq] at hn
      have := h a
      simp only [Memory.read, if_true] at this
      exact absurd this.symm hn.1.2
  | cons c m ih =>
    obtain ⟨a, b⟩ := c
    cases n with
    | nil =>
      simp only [Memory.wfFrom, Bool.and_eq_true, decide_eq_true_eq] at hm
      have := h a
      simp only [Memory.read, if_true] at this
      exact absurd this hm.1.2
    | cons d n =>
      obtain ⟨a', b'⟩ := d
      simp only [Memory.wfFrom, Bool.and_eq_true, decide_eq_true_eq] at hm hn
      have hmb : ∀ x, x ≤ a → Memory.read m x = unlistedByte := fun x hx => Memory.read_below hm.2 (by omega)
      have hnb : ∀ x, x ≤ a' → Memory.read n x = unlistedByte := fun x hx => Memory.read_below hn.2 (by omega)
      have haa : a = a' := by
        rcases Nat.lt_trichotomy a a' with hlt | heq | hgt
        · have := h a
          simp only [Memory.read, if_true, if_neg (Nat.ne_of_gt hlt)] at this
          rw [hnb a (by omega)] at this
          exact absurd this hm.1.2
        · exact heq
        · have := h a'
          simp only [Memory.read, if_true, if_neg (Nat.ne_of_gt hgt)] at this
          rw [hmb a' (by omega)] at this
          exact absurd this.symm hn.1.2
      subst haa
      have hbb : b = b' := by have := h a; simpa [Memory.read] using this
      subst hbb
      have : m = n := by
        refine ih hm.2 hn.2 fun x => ?_
        by_cases hx : x = a
        · subst hx; rw [hmb x (Nat.le_refl x), hnb x (Nat.le_refl x)]
        · have := h x
          simpa only [Memory.read, if_neg (Ne.symm hx)] using this
      rw [this]

/-- Two memories in canonical form that read alike are the same list. -/
theorem Memory.eq_of_read {m n : Memory} (hm : m.wf = true) (hn : n.wf = true) (h : ∀ x, m.read x = n.read x) :
    m = n :=
  Memory.eq_of_read_from hm hn h

end Sys2Proof.Machine
end

