-- ==== Sys2Proof/Laws/State.lean ====
section
/-! SUPPORT. One lemma per field per update of the state, so that no later proof unfolds a record update. -/

namespace Sys2Proof.Machine

open Sys2Proof

@[simp] theorem State.poke_cmd (s : State) (a : Word) (v : Byte) : (s.poke a v).cmd = s.cmd := rfl
@[simp] theorem State.poke_status (s : State) (a : Word) (v : Byte) : (s.poke a v).status = s.status := rfl
@[simp] theorem State.poke_result (s : State) (a : Word) (v : Byte) : (s.poke a v).result = s.result := rfl
@[simp] theorem State.poke_chunkstat (s : State) (a : Word) (v : Byte) : (s.poke a v).chunkstat = s.chunkstat := rfl
@[simp] theorem State.poke_operands (s : State) (a : Word) (v : Byte) : (s.poke a v).operands = s.operands := rfl
@[simp] theorem State.poke_mem (s : State) (a : Word) (v : Byte) : (s.poke a v).mem = s.mem.write a.toNat v := rfl
@[simp] theorem State.poke_unwritten (s : State) (a : Word) (v : Byte) : (s.poke a v).unwritten = s.unwritten := rfl
@[simp] theorem State.poke_mark (s : State) (a : Word) (v : Byte) : (s.poke a v).mark = s.mark := rfl
@[simp] theorem State.poke_pending (s : State) (a : Word) (v : Byte) : (s.poke a v).pending = s.pending := rfl
@[simp] theorem State.poke_hostData (s : State) (a : Word) (v : Byte) : (s.poke a v).hostData = s.hostData := rfl
@[simp] theorem State.poke_hostBytes (s : State) (a : Word) (v : Byte) : (s.poke a v).hostBytes = s.hostBytes := rfl
@[simp] theorem State.poke_cfg (s : State) (a : Word) (v : Byte) : (s.poke a v).cfg = s.cfg := rfl

@[simp] theorem State.noteWritten_cmd (s : State) (r : WindowReg) : (s.noteWritten r).cmd = s.cmd := rfl
@[simp] theorem State.noteWritten_status (s : State) (r : WindowReg) : (s.noteWritten r).status = s.status := rfl
@[simp] theorem State.noteWritten_result (s : State) (r : WindowReg) : (s.noteWritten r).result = s.result := rfl
@[simp] theorem State.noteWritten_chunkstat (s : State) (r : WindowReg) : (s.noteWritten r).chunkstat = s.chunkstat := rfl
@[simp] theorem State.noteWritten_operands (s : State) (r : WindowReg) : (s.noteWritten r).operands = s.operands := rfl
@[simp] theorem State.noteWritten_mem (s : State) (r : WindowReg) : (s.noteWritten r).mem = s.mem := rfl
@[simp] theorem State.noteWritten_unwritten (s : State) (r : WindowReg) : (s.noteWritten r).unwritten = s.unwritten.filter fun x => decide (x ≠ r) := rfl
@[simp] theorem State.noteWritten_mark (s : State) (r : WindowReg) : (s.noteWritten r).mark = s.mark := rfl
@[simp] theorem State.noteWritten_pending (s : State) (r : WindowReg) : (s.noteWritten r).pending = s.pending := rfl
@[simp] theorem State.noteWritten_hostData (s : State) (r : WindowReg) : (s.noteWritten r).hostData = s.hostData := rfl
@[simp] theorem State.noteWritten_hostBytes (s : State) (r : WindowReg) : (s.noteWritten r).hostBytes = s.hostBytes := rfl
@[simp] theorem State.noteWritten_cfg (s : State) (r : WindowReg) : (s.noteWritten r).cfg = s.cfg := rfl

@[simp] theorem State.setOperand_cmd (s : State) (r : OperandReg) (v : Word) : (s.setOperand r v).cmd = s.cmd := rfl
@[simp] theorem State.setOperand_status (s : State) (r : OperandReg) (v : Word) : (s.setOperand r v).status = s.status := rfl
@[simp] theorem State.setOperand_result (s : State) (r : OperandReg) (v : Word) : (s.setOperand r v).result = s.result := rfl
@[simp] theorem State.setOperand_chunkstat (s : State) (r : OperandReg) (v : Word) : (s.setOperand r v).chunkstat = s.chunkstat := rfl
@[simp] theorem State.setOperand_operands (s : State) (r : OperandReg) (v : Word) : (s.setOperand r v).operands = s.operands.set r v := rfl
@[simp] theorem State.setOperand_mem (s : State) (r : OperandReg) (v : Word) : (s.setOperand r v).mem = s.mem := rfl
@[simp] theorem State.setOperand_unwritten (s : State) (r : OperandReg) (v : Word) : (s.setOperand r v).unwritten = s.unwritten.filter fun x => decide (x ≠ .operand r) := rfl
@[simp] theorem State.setOperand_mark (s : State) (r : OperandReg) (v : Word) : (s.setOperand r v).mark = s.mark := rfl
@[simp] theorem State.setOperand_pending (s : State) (r : OperandReg) (v : Word) : (s.setOperand r v).pending = s.pending := rfl
@[simp] theorem State.setOperand_hostData (s : State) (r : OperandReg) (v : Word) : (s.setOperand r v).hostData = s.hostData := rfl
@[simp] theorem State.setOperand_hostBytes (s : State) (r : OperandReg) (v : Word) : (s.setOperand r v).hostBytes = s.hostBytes := rfl
@[simp] theorem State.setOperand_cfg (s : State) (r : OperandReg) (v : Word) : (s.setOperand r v).cfg = s.cfg := rfl

@[simp] theorem State.setResult_cmd (s : State) (v : Word) : (s.setResult v).cmd = s.cmd := rfl
@[simp] theorem State.setResult_status (s : State) (v : Word) : (s.setResult v).status = s.status := rfl
@[simp] theorem State.setResult_result (s : State) (v : Word) : (s.setResult v).result = v := rfl
@[simp] theorem State.setResult_chunkstat (s : State) (v : Word) : (s.setResult v).chunkstat = s.chunkstat := rfl
@[simp] theorem State.setResult_operands (s : State) (v : Word) : (s.setResult v).operands = s.operands := rfl
@[simp] theorem State.setResult_mem (s : State) (v : Word) : (s.setResult v).mem = s.mem := rfl
@[simp] theorem State.setResult_unwritten (s : State) (v : Word) : (s.setResult v).unwritten = s.unwritten.filter fun x => decide (x ≠ .result) := rfl
@[simp] theorem State.setResult_mark (s : State) (v : Word) : (s.setResult v).mark = s.mark := rfl
@[simp] theorem State.setResult_pending (s : State) (v : Word) : (s.setResult v).pending = s.pending := rfl
@[simp] theorem State.setResult_hostData (s : State) (v : Word) : (s.setResult v).hostData = s.hostData := rfl
@[simp] theorem State.setResult_hostBytes (s : State) (v : Word) : (s.setResult v).hostBytes = s.hostBytes := rfl
@[simp] theorem State.setResult_cfg (s : State) (v : Word) : (s.setResult v).cfg = s.cfg := rfl

@[simp] theorem State.setChunkstat_cmd (s : State) (v : Word) : (s.setChunkstat v).cmd = s.cmd := rfl
@[simp] theorem State.setChunkstat_status (s : State) (v : Word) : (s.setChunkstat v).status = s.status := rfl
@[simp] theorem State.setChunkstat_result (s : State) (v : Word) : (s.setChunkstat v).result = s.result := rfl
@[simp] theorem State.setChunkstat_chunkstat (s : State) (v : Word) : (s.setChunkstat v).chunkstat = v := rfl
@[simp] theorem State.setChunkstat_operands (s : State) (v : Word) : (s.setChunkstat v).operands = s.operands := rfl
@[simp] theorem State.setChunkstat_mem (s : State) (v : Word) : (s.setChunkstat v).mem = s.mem := rfl
@[simp] theorem State.setChunkstat_unwritten (s : State) (v : Word) : (s.setChunkstat v).unwritten = s.unwritten.filter fun x => decide (x ≠ .chunkstat) := rfl
@[simp] theorem State.setChunkstat_mark (s : State) (v : Word) : (s.setChunkstat v).mark = s.mark := rfl
@[simp] theorem State.setChunkstat_pending (s : State) (v : Word) : (s.setChunkstat v).pending = s.pending := rfl
@[simp] theorem State.setChunkstat_hostData (s : State) (v : Word) : (s.setChunkstat v).hostData = s.hostData := rfl
@[simp] theorem State.setChunkstat_hostBytes (s : State) (v : Word) : (s.setChunkstat v).hostBytes = s.hostBytes := rfl
@[simp] theorem State.setChunkstat_cfg (s : State) (v : Word) : (s.setChunkstat v).cfg = s.cfg := rfl

@[simp] theorem State.setCmd_cmd (s : State) (w : Word) : (s.setCmd w).cmd = w := rfl
@[simp] theorem State.setCmd_status (s : State) (w : Word) : (s.setCmd w).status = s.status := rfl
@[simp] theorem State.setCmd_result (s : State) (w : Word) : (s.setCmd w).result = s.result := rfl
@[simp] theorem State.setCmd_chunkstat (s : State) (w : Word) : (s.setCmd w).chunkstat = s.chunkstat := rfl
@[simp] theorem State.setCmd_operands (s : State) (w : Word) : (s.setCmd w).operands = s.operands := rfl
@[simp] theorem State.setCmd_mem (s : State) (w : Word) : (s.setCmd w).mem = s.mem := rfl
@[simp] theorem State.setCmd_unwritten (s : State) (w : Word) : (s.setCmd w).unwritten = s.unwritten := rfl
@[simp] theorem State.setCmd_mark (s : State) (w : Word) : (s.setCmd w).mark = s.mark := rfl
@[simp] theorem State.setCmd_pending (s : State) (w : Word) : (s.setCmd w).pending = s.pending := rfl
@[simp] theorem State.setCmd_hostData (s : State) (w : Word) : (s.setCmd w).hostData = s.hostData := rfl
@[simp] theorem State.setCmd_hostBytes (s : State) (w : Word) : (s.setCmd w).hostBytes = s.hostBytes := rfl
@[simp] theorem State.setCmd_cfg (s : State) (w : Word) : (s.setCmd w).cfg = s.cfg := rfl

@[simp] theorem State.raiseCmdErr_cmd (s : State) (e : CmdErr) : (s.raiseCmdErr e).cmd = s.cmd := rfl
@[simp] theorem State.raiseCmdErr_status (s : State) (e : CmdErr) : (s.raiseCmdErr e).status = 0x00000002 ||| (e.code <<< 4) := rfl
@[simp] theorem State.raiseCmdErr_result (s : State) (e : CmdErr) : (s.raiseCmdErr e).result = s.result := rfl
@[simp] theorem State.raiseCmdErr_chunkstat (s : State) (e : CmdErr) : (s.raiseCmdErr e).chunkstat = s.chunkstat := rfl
@[simp] theorem State.raiseCmdErr_operands (s : State) (e : CmdErr) : (s.raiseCmdErr e).operands = s.operands := rfl
@[simp] theorem State.raiseCmdErr_mem (s : State) (e : CmdErr) : (s.raiseCmdErr e).mem = s.mem := rfl
@[simp] theorem State.raiseCmdErr_unwritten (s : State) (e : CmdErr) : (s.raiseCmdErr e).unwritten = s.unwritten := rfl
@[simp] theorem State.raiseCmdErr_mark (s : State) (e : CmdErr) : (s.raiseCmdErr e).mark = s.mark := rfl
@[simp] theorem State.raiseCmdErr_pending (s : State) (e : CmdErr) : (s.raiseCmdErr e).pending = s.pending := rfl
@[simp] theorem State.raiseCmdErr_hostData (s : State) (e : CmdErr) : (s.raiseCmdErr e).hostData = s.hostData := rfl
@[simp] theorem State.raiseCmdErr_hostBytes (s : State) (e : CmdErr) : (s.raiseCmdErr e).hostBytes = s.hostBytes := rfl
@[simp] theorem State.raiseCmdErr_cfg (s : State) (e : CmdErr) : (s.raiseCmdErr e).cfg = s.cfg := rfl

@[simp] theorem State.complete_cmd (s : State) : s.complete.cmd = s.cmd := rfl
@[simp] theorem State.complete_status (s : State) : s.complete.status = 0x00000001 := rfl
@[simp] theorem State.complete_result (s : State) : s.complete.result = s.result := rfl
@[simp] theorem State.complete_chunkstat (s : State) : s.complete.chunkstat = s.chunkstat := rfl
@[simp] theorem State.complete_operands (s : State) : s.complete.operands = s.operands := rfl
@[simp] theorem State.complete_mem (s : State) : s.complete.mem = s.mem := rfl
@[simp] theorem State.complete_unwritten (s : State) : s.complete.unwritten = s.unwritten := rfl
@[simp] theorem State.complete_mark (s : State) : s.complete.mark = s.mark := rfl
@[simp] theorem State.complete_pending (s : State) : s.complete.pending = s.pending := rfl
@[simp] theorem State.complete_hostData (s : State) : s.complete.hostData = s.hostData := rfl
@[simp] theorem State.complete_hostBytes (s : State) : s.complete.hostBytes = s.hostBytes := rfl
@[simp] theorem State.complete_cfg (s : State) : s.complete.cfg = s.cfg := rfl

@[simp] theorem State.setPending_cmd (s : State) (es : List BusEvent) : (s.setPending es).cmd = s.cmd := rfl
@[simp] theorem State.setPending_status (s : State) (es : List BusEvent) : (s.setPending es).status = s.status := rfl
@[simp] theorem State.setPending_result (s : State) (es : List BusEvent) : (s.setPending es).result = s.result := rfl
@[simp] theorem State.setPending_chunkstat (s : State) (es : List BusEvent) : (s.setPending es).chunkstat = s.chunkstat := rfl
@[simp] theorem State.setPending_operands (s : State) (es : List BusEvent) : (s.setPending es).operands = s.operands := rfl
@[simp] theorem State.setPending_mem (s : State) (es : List BusEvent) : (s.setPending es).mem = s.mem := rfl
@[simp] theorem State.setPending_unwritten (s : State) (es : List BusEvent) : (s.setPending es).unwritten = s.unwritten := rfl
@[simp] theorem State.setPending_mark (s : State) (es : List BusEvent) : (s.setPending es).mark = s.mark := rfl
@[simp] theorem State.setPending_pending (s : State) (es : List BusEvent) : (s.setPending es).pending = es := rfl
@[simp] theorem State.setPending_hostData (s : State) (es : List BusEvent) : (s.setPending es).hostData = s.hostData := rfl
@[simp] theorem State.setPending_hostBytes (s : State) (es : List BusEvent) : (s.setPending es).hostBytes = s.hostBytes := rfl
@[simp] theorem State.setPending_cfg (s : State) (es : List BusEvent) : (s.setPending es).cfg = s.cfg := rfl

@[simp] theorem State.giveHost_cmd (s : State) (v : Word) : (s.giveHost v).cmd = s.cmd := rfl
@[simp] theorem State.giveHost_status (s : State) (v : Word) : (s.giveHost v).status = s.status := rfl
@[simp] theorem State.giveHost_result (s : State) (v : Word) : (s.giveHost v).result = s.result := rfl
@[simp] theorem State.giveHost_chunkstat (s : State) (v : Word) : (s.giveHost v).chunkstat = s.chunkstat := rfl
@[simp] theorem State.giveHost_operands (s : State) (v : Word) : (s.giveHost v).operands = s.operands := rfl
@[simp] theorem State.giveHost_mem (s : State) (v : Word) : (s.giveHost v).mem = s.mem := rfl
@[simp] theorem State.giveHost_unwritten (s : State) (v : Word) : (s.giveHost v).unwritten = s.unwritten := rfl
@[simp] theorem State.giveHost_mark (s : State) (v : Word) : (s.giveHost v).mark = s.mark := rfl
@[simp] theorem State.giveHost_pending (s : State) (v : Word) : (s.giveHost v).pending = s.pending := rfl
@[simp] theorem State.giveHost_hostData (s : State) (v : Word) : (s.giveHost v).hostData = some v := rfl
@[simp] theorem State.giveHost_hostBytes (s : State) (v : Word) : (s.giveHost v).hostBytes = s.hostBytes := rfl
@[simp] theorem State.giveHost_cfg (s : State) (v : Word) : (s.giveHost v).cfg = s.cfg := rfl

@[simp] theorem State.hostLoad_cmd (s : State) (a : Word) (n : Nat) : (s.hostLoad a n).cmd = s.cmd := rfl
@[simp] theorem State.hostLoad_status (s : State) (a : Word) (n : Nat) : (s.hostLoad a n).status = s.status := rfl
@[simp] theorem State.hostLoad_result (s : State) (a : Word) (n : Nat) : (s.hostLoad a n).result = s.result := rfl
@[simp] theorem State.hostLoad_chunkstat (s : State) (a : Word) (n : Nat) : (s.hostLoad a n).chunkstat = s.chunkstat := rfl
@[simp] theorem State.hostLoad_operands (s : State) (a : Word) (n : Nat) : (s.hostLoad a n).operands = s.operands := rfl
@[simp] theorem State.hostLoad_mem (s : State) (a : Word) (n : Nat) : (s.hostLoad a n).mem = s.mem := rfl
@[simp] theorem State.hostLoad_unwritten (s : State) (a : Word) (n : Nat) : (s.hostLoad a n).unwritten = s.unwritten := rfl
@[simp] theorem State.hostLoad_mark (s : State) (a : Word) (n : Nat) : (s.hostLoad a n).mark = s.mark := rfl
@[simp] theorem State.hostLoad_pending (s : State) (a : Word) (n : Nat) : (s.hostLoad a n).pending = s.pending := rfl
@[simp] theorem State.hostLoad_hostData (s : State) (a : Word) (n : Nat) : (s.hostLoad a n).hostData = s.hostData := rfl
@[simp] theorem State.hostLoad_cfg (s : State) (a : Word) (n : Nat) : (s.hostLoad a n).cfg = s.cfg := rfl
@[simp] theorem State.hostLoad_hostBytes (s : State) (a : Word) (n : Nat) : (s.hostLoad a n).hostBytes = s.peekBytes a n :=
  rfl

@[simp] theorem State.afterReset_cmd (s : State) : s.afterReset.cmd = 0x00000000 := rfl
@[simp] theorem State.afterReset_status (s : State) : s.afterReset.status = 0x00000000 := rfl
@[simp] theorem State.afterReset_result (s : State) : s.afterReset.result = unspecifiedAtReset := rfl
@[simp] theorem State.afterReset_chunkstat (s : State) : s.afterReset.chunkstat = unspecifiedAtReset := rfl
@[simp] theorem State.afterReset_operands (s : State) : s.afterReset.operands = OperandFile.reset := rfl
@[simp] theorem State.afterReset_mem (s : State) : s.afterReset.mem = s.mem := rfl
@[simp] theorem State.afterReset_unwritten (s : State) : s.afterReset.unwritten = unwrittenAtReset := rfl
@[simp] theorem State.afterReset_mark (s : State) : s.afterReset.mark = s.mark := rfl
@[simp] theorem State.afterReset_pending (s : State) : s.afterReset.pending = s.pending := rfl
@[simp] theorem State.afterReset_hostData (s : State) : s.afterReset.hostData = s.hostData := rfl
@[simp] theorem State.afterReset_hostBytes (s : State) : s.afterReset.hostBytes = s.hostBytes := rfl
@[simp] theorem State.afterReset_cfg (s : State) : s.afterReset.cfg = s.cfg := rfl

@[simp] theorem State.markRun_cmd (s : State) (m : Mark) : (s.markRun m).cmd = s.cmd := by
  unfold State.markRun; split <;> rfl
@[simp] theorem State.markRun_status (s : State) (m : Mark) : (s.markRun m).status = s.status := by
  unfold State.markRun; split <;> rfl
@[simp] theorem State.markRun_result (s : State) (m : Mark) : (s.markRun m).result = s.result := by
  unfold State.markRun; split <;> rfl
@[simp] theorem State.markRun_chunkstat (s : State) (m : Mark) : (s.markRun m).chunkstat = s.chunkstat := by
  unfold State.markRun; split <;> rfl
@[simp] theorem State.markRun_operands (s : State) (m : Mark) : (s.markRun m).operands = s.operands := by
  unfold State.markRun; split <;> rfl
@[simp] theorem State.markRun_mem (s : State) (m : Mark) : (s.markRun m).mem = s.mem := by
  unfold State.markRun; split <;> rfl
@[simp] theorem State.markRun_unwritten (s : State) (m : Mark) : (s.markRun m).unwritten = s.unwritten := by
  unfold State.markRun; split <;> rfl
@[simp] theorem State.markRun_pending (s : State) (m : Mark) : (s.markRun m).pending = s.pending := by
  unfold State.markRun; split <;> rfl
@[simp] theorem State.markRun_hostData (s : State) (m : Mark) : (s.markRun m).hostData = s.hostData := by
  unfold State.markRun; split <;> rfl
@[simp] theorem State.markRun_hostBytes (s : State) (m : Mark) : (s.markRun m).hostBytes = s.hostBytes := by
  unfold State.markRun; split <;> rfl
@[simp] theorem State.markRun_cfg (s : State) (m : Mark) : (s.markRun m).cfg = s.cfg := by
  unfold State.markRun; split <;> rfl

@[simp] theorem State.noteRead_cmd (s : State) (r : OperandReg) : (s.noteRead r).cmd = s.cmd := by
  unfold State.noteRead; split <;> simp
@[simp] theorem State.noteRead_status (s : State) (r : OperandReg) : (s.noteRead r).status = s.status := by
  unfold State.noteRead; split <;> simp
@[simp] theorem State.noteRead_result (s : State) (r : OperandReg) : (s.noteRead r).result = s.result := by
  unfold State.noteRead; split <;> simp
@[simp] theorem State.noteRead_chunkstat (s : State) (r : OperandReg) : (s.noteRead r).chunkstat = s.chunkstat := by
  unfold State.noteRead; split <;> simp
@[simp] theorem State.noteRead_operands (s : State) (r : OperandReg) : (s.noteRead r).operands = s.operands := by
  unfold State.noteRead; split <;> simp
@[simp] theorem State.noteRead_mem (s : State) (r : OperandReg) : (s.noteRead r).mem = s.mem := by
  unfold State.noteRead; split <;> simp
@[simp] theorem State.noteRead_unwritten (s : State) (r : OperandReg) : (s.noteRead r).unwritten = s.unwritten := by
  unfold State.noteRead; split <;> simp
@[simp] theorem State.noteRead_pending (s : State) (r : OperandReg) : (s.noteRead r).pending = s.pending := by
  unfold State.noteRead; split <;> simp
@[simp] theorem State.noteRead_hostData (s : State) (r : OperandReg) : (s.noteRead r).hostData = s.hostData := by
  unfold State.noteRead; split <;> simp
@[simp] theorem State.noteRead_hostBytes (s : State) (r : OperandReg) : (s.noteRead r).hostBytes = s.hostBytes := by
  unfold State.noteRead; split <;> simp
@[simp] theorem State.noteRead_cfg (s : State) (r : OperandReg) : (s.noteRead r).cfg = s.cfg := by
  unfold State.noteRead; split <;> simp

@[simp] theorem State.noteReads_cmd (rs : List OperandReg) (s : State) : (s.noteReads rs).cmd = s.cmd := by
  induction rs generalizing s with
  | nil => rfl
  | cons r rs ih => simp [State.noteReads, ih]
@[simp] theorem State.noteReads_status (rs : List OperandReg) (s : State) : (s.noteReads rs).status = s.status := by
  induction rs generalizing s with
  | nil => rfl
  | cons r rs ih => simp [State.noteReads, ih]
@[simp] theorem State.noteReads_result (rs : List OperandReg) (s : State) : (s.noteReads rs).result = s.result := by
  induction rs generalizing s with
  | nil => rfl
  | cons r rs ih => simp [State.noteReads, ih]
@[simp] theorem State.noteReads_chunkstat (rs : List OperandReg) (s : State) : (s.noteReads rs).chunkstat = s.chunkstat := by
  induction rs generalizing s with
  | nil => rfl
  | cons r rs ih => simp [State.noteReads, ih]
@[simp] theorem State.noteReads_operands (rs : List OperandReg) (s : State) : (s.noteReads rs).operands = s.operands := by
  induction rs generalizing s with
  | nil => rfl
  | cons r rs ih => simp [State.noteReads, ih]
@[simp] theorem State.noteReads_mem (rs : List OperandReg) (s : State) : (s.noteReads rs).mem = s.mem := by
  induction rs generalizing s with
  | nil => rfl
  | cons r rs ih => simp [State.noteReads, ih]
@[simp] theorem State.noteReads_unwritten (rs : List OperandReg) (s : State) : (s.noteReads rs).unwritten = s.unwritten := by
  induction rs generalizing s with
  | nil => rfl
  | cons r rs ih => simp [State.noteReads, ih]
@[simp] theorem State.noteReads_pending (rs : List OperandReg) (s : State) : (s.noteReads rs).pending = s.pending := by
  induction rs generalizing s with
  | nil => rfl
  | cons r rs ih => simp [State.noteReads, ih]
@[simp] theorem State.noteReads_hostData (rs : List OperandReg) (s : State) : (s.noteReads rs).hostData = s.hostData := by
  induction rs generalizing s with
  | nil => rfl
  | cons r rs ih => simp [State.noteReads, ih]
@[simp] theorem State.noteReads_hostBytes (rs : List OperandReg) (s : State) : (s.noteReads rs).hostBytes = s.hostBytes := by
  induction rs generalizing s with
  | nil => rfl
  | cons r rs ih => simp [State.noteReads, ih]
@[simp] theorem State.noteReads_cfg (rs : List OperandReg) (s : State) : (s.noteReads rs).cfg = s.cfg := by
  induction rs generalizing s with
  | nil => rfl
  | cons r rs ih => simp [State.noteReads, ih]

@[simp] theorem State.noteHostRead_cmd (s : State) (r : WindowReg) : (s.noteHostRead r).cmd = s.cmd := by
  unfold State.noteHostRead; split <;> simp
@[simp] theorem State.noteHostRead_status (s : State) (r : WindowReg) : (s.noteHostRead r).status = s.status := by
  unfold State.noteHostRead; split <;> simp
@[simp] theorem State.noteHostRead_result (s : State) (r : WindowReg) : (s.noteHostRead r).result = s.result := by
  unfold State.noteHostRead; split <;> simp
@[simp] theorem State.noteHostRead_chunkstat (s : State) (r : WindowReg) : (s.noteHostRead r).chunkstat = s.chunkstat := by
  unfold State.noteHostRead; split <;> simp
@[simp] theorem State.noteHostRead_operands (s : State) (r : WindowReg) : (s.noteHostRead r).operands = s.operands := by
  unfold State.noteHostRead; split <;> simp
@[simp] theorem State.noteHostRead_mem (s : State) (r : WindowReg) : (s.noteHostRead r).mem = s.mem := by
  unfold State.noteHostRead; split <;> simp
@[simp] theorem State.noteHostRead_unwritten (s : State) (r : WindowReg) : (s.noteHostRead r).unwritten = s.unwritten := by
  unfold State.noteHostRead; split <;> simp
@[simp] theorem State.noteHostRead_pending (s : State) (r : WindowReg) : (s.noteHostRead r).pending = s.pending := by
  unfold State.noteHostRead; split <;> simp
@[simp] theorem State.noteHostRead_hostData (s : State) (r : WindowReg) : (s.noteHostRead r).hostData = s.hostData := by
  unfold State.noteHostRead; split <;> simp
@[simp] theorem State.noteHostRead_hostBytes (s : State) (r : WindowReg) : (s.noteHostRead r).hostBytes = s.hostBytes := by
  unfold State.noteHostRead; split <;> simp
@[simp] theorem State.noteHostRead_cfg (s : State) (r : WindowReg) : (s.noteHostRead r).cfg = s.cfg := by
  unfold State.noteHostRead; split <;> simp

@[simp] theorem State.pokeWord_cmd (s : State) (a v : Word) : (s.pokeWord a v).cmd = s.cmd := rfl
@[simp] theorem State.pokeWord_status (s : State) (a v : Word) : (s.pokeWord a v).status = s.status := rfl
@[simp] theorem State.pokeWord_result (s : State) (a v : Word) : (s.pokeWord a v).result = s.result := rfl
@[simp] theorem State.pokeWord_chunkstat (s : State) (a v : Word) : (s.pokeWord a v).chunkstat = s.chunkstat := rfl
@[simp] theorem State.pokeWord_operands (s : State) (a v : Word) : (s.pokeWord a v).operands = s.operands := rfl
@[simp] theorem State.pokeWord_unwritten (s : State) (a v : Word) : (s.pokeWord a v).unwritten = s.unwritten := rfl
@[simp] theorem State.pokeWord_mark (s : State) (a v : Word) : (s.pokeWord a v).mark = s.mark := rfl
@[simp] theorem State.pokeWord_pending (s : State) (a v : Word) : (s.pokeWord a v).pending = s.pending := rfl
@[simp] theorem State.pokeWord_hostData (s : State) (a v : Word) : (s.pokeWord a v).hostData = s.hostData := rfl
@[simp] theorem State.pokeWord_hostBytes (s : State) (a v : Word) : (s.pokeWord a v).hostBytes = s.hostBytes := rfl
@[simp] theorem State.pokeWord_cfg (s : State) (a v : Word) : (s.pokeWord a v).cfg = s.cfg := rfl

@[simp] theorem State.pokeBytes_cmd (bs : List Byte) (s : State) (a : Word) : (s.pokeBytes a bs).cmd = s.cmd := by
  induction bs generalizing s a with
  | nil => rfl
  | cons b bs ih => simp [State.pokeBytes, ih]
@[simp] theorem State.pokeBytes_status (bs : List Byte) (s : State) (a : Word) : (s.pokeBytes a bs).status = s.status := by
  induction bs generalizing s a with
  | nil => rfl
  | cons b bs ih => simp [State.pokeBytes, ih]
@[simp] theorem State.pokeBytes_result (bs : List Byte) (s : State) (a : Word) : (s.pokeBytes a bs).result = s.result := by
  induction bs generalizing s a with
  | nil => rfl
  | cons b bs ih => simp [State.pokeBytes, ih]
@[simp] theorem State.pokeBytes_chunkstat (bs : List Byte) (s : State) (a : Word) : (s.pokeBytes a bs).chunkstat = s.chunkstat := by
  induction bs generalizing s a with
  | nil => rfl
  | cons b bs ih => simp [State.pokeBytes, ih]
@[simp] theorem State.pokeBytes_operands (bs : List Byte) (s : State) (a : Word) : (s.pokeBytes a bs).operands = s.operands := by
  induction bs generalizing s a with
  | nil => rfl
  | cons b bs ih => simp [State.pokeBytes, ih]
@[simp] theorem State.pokeBytes_unwritten (bs : List Byte) (s : State) (a : Word) : (s.pokeBytes a bs).unwritten = s.unwritten := by
  induction bs generalizing s a with
  | nil => rfl
  | cons b bs ih => simp [State.pokeBytes, ih]
@[simp] theorem State.pokeBytes_mark (bs : List Byte) (s : State) (a : Word) : (s.pokeBytes a bs).mark = s.mark := by
  induction bs generalizing s a with
  | nil => rfl
  | cons b bs ih => simp [State.pokeBytes, ih]
@[simp] theorem State.pokeBytes_pending (bs : List Byte) (s : State) (a : Word) : (s.pokeBytes a bs).pending = s.pending := by
  induction bs generalizing s a with
  | nil => rfl
  | cons b bs ih => simp [State.pokeBytes, ih]
@[simp] theorem State.pokeBytes_hostData (bs : List Byte) (s : State) (a : Word) : (s.pokeBytes a bs).hostData = s.hostData := by
  induction bs generalizing s a with
  | nil => rfl
  | cons b bs ih => simp [State.pokeBytes, ih]
@[simp] theorem State.pokeBytes_hostBytes (bs : List Byte) (s : State) (a : Word) : (s.pokeBytes a bs).hostBytes = s.hostBytes := by
  induction bs generalizing s a with
  | nil => rfl
  | cons b bs ih => simp [State.pokeBytes, ih]
@[simp] theorem State.pokeBytes_cfg (bs : List Byte) (s : State) (a : Word) : (s.pokeBytes a bs).cfg = s.cfg := by
  induction bs generalizing s a with
  | nil => rfl
  | cons b bs ih => simp [State.pokeBytes, ih]

/-! ### The mark (R174) -/

/-- A marked run keeps its first mark. -/
theorem State.markRun_keeps (s : State) (m n : Mark) (h : s.mark = some n) : (s.markRun m).mark = some n := by
  unfold State.markRun; rw [h]; exact h

/-- An unmarked run takes the mark. -/
theorem State.markRun_sets (s : State) (m : Mark) (h : s.mark = none) : (s.markRun m).mark = some m := by
  unfold State.markRun; rw [h]

/-- Reading a register that has been written leaves the state as it is. -/
theorem State.noteRead_written (s : State) (r : OperandReg) (h : .operand r ∉ s.unwritten) : s.noteRead r = s := by
  unfold State.noteRead; simp [h]

/-- Reading registers that have all been written leaves the state as it is. -/
theorem State.noteReads_written (rs : List OperandReg) (s : State)
    (h : ∀ r ∈ rs, WindowReg.operand r ∉ s.unwritten) : s.noteReads rs = s := by
  induction rs with
  | nil => rfl
  | cons r rs ih =>
    rw [State.noteReads, s.noteRead_written r (h r (by simp))]
    exact ih fun x hx => h x (by simp [hx])

/-- Reading two lists of registers in turn is reading their concatenation. -/
theorem State.noteReads_append (rs qs : List OperandReg) (s : State) :
    s.noteReads (rs ++ qs) = (s.noteReads rs).noteReads qs := by
  induction rs generalizing s with
  | nil => rfl
  | cons r rs ih => simp [State.noteReads, ih]

/-- Reading registers changes the mark at most. -/
theorem State.noteReads_eq (rs : List OperandReg) (s : State) :
    s.noteReads rs = { s with mark := (s.noteReads rs).mark } := by
  rw [State.mk.injEq]; simp

/-! ### The operand registers (R22) -/

@[simp] theorem OperandFile.get_set_same (f : OperandFile) (r : OperandReg) (v : Word) : (f.set r v).get r = v := by
  cases r <;> rfl

/-- Writing one operand register leaves the others: none aliases another (R22). -/
theorem OperandFile.get_set_other (f : OperandFile) (r q : OperandReg) (v : Word) (h : q ≠ r) :
    (f.set r v).get q = f.get q := by
  cases r <;> cases q <;> first | rfl | exact absurd rfl h

@[simp] theorem State.poke_reg (s : State) (a : Word) (v : Byte) (r : OperandReg) : (s.poke a v).reg r = s.reg r := rfl
@[simp] theorem State.noteWritten_reg (s : State) (x : WindowReg) (r : OperandReg) : (s.noteWritten x).reg r = s.reg r := rfl
@[simp] theorem State.setResult_reg (s : State) (v : Word) (r : OperandReg) : (s.setResult v).reg r = s.reg r := rfl
@[simp] theorem State.setChunkstat_reg (s : State) (v : Word) (r : OperandReg) : (s.setChunkstat v).reg r = s.reg r := rfl
@[simp] theorem State.setCmd_reg (s : State) (w : Word) (r : OperandReg) : (s.setCmd w).reg r = s.reg r := rfl
@[simp] theorem State.raiseCmdErr_reg (s : State) (e : CmdErr) (r : OperandReg) : (s.raiseCmdErr e).reg r = s.reg r := rfl
@[simp] theorem State.complete_reg (s : State) (r : OperandReg) : s.complete.reg r = s.reg r := rfl
@[simp] theorem State.setPending_reg (s : State) (es : List BusEvent) (r : OperandReg) : (s.setPending es).reg r = s.reg r := rfl
@[simp] theorem State.giveHost_reg (s : State) (v : Word) (r : OperandReg) : (s.giveHost v).reg r = s.reg r := rfl
@[simp] theorem State.noteRead_reg (s : State) (q r : OperandReg) : (s.noteRead q).reg r = s.reg r := by
  simp [State.reg]
@[simp] theorem State.noteReads_reg (rs : List OperandReg) (s : State) (r : OperandReg) :
    (s.noteReads rs).reg r = s.reg r := by
  simp [State.reg]
@[simp] theorem State.pokeWord_reg (s : State) (a v : Word) (r : OperandReg) : (s.pokeWord a v).reg r = s.reg r := rfl

end Sys2Proof.Machine
end

