-- ==== Sys2Proof/Laws/Ops.lean ====
section
/-! SUPPORT. What each shared operation can do, said once: memory accesses, loops, acceptance. -/

namespace Sys2Proof.Machine

open Sys2Proof

/-! ### Changing memory only -/

/-- `t` is `s` but for the bytes in `A`; a memory in canonical form stays in it. -/
structure Writes (A : Word → Prop) (s t : State) : Prop where
  only : t = { s with mem := t.mem }
  frame : ∀ x, ¬ A x → t.peek x = s.peek x
  wf : Memory.wf s.mem = true → Memory.wf t.mem = true

theorem Writes.refl (A : Word → Prop) (s : State) : Writes A s s := ⟨rfl, fun _ _ => rfl, id⟩

theorem Writes.trans {A : Word → Prop} {s t u : State} (h : Writes A s t) (k : Writes A t u) : Writes A s u where
  only := by rw [k.only, h.only]
  frame x hx := (k.frame x hx).trans (h.frame x hx)
  wf hw := k.wf (h.wf hw)

theorem Writes.mono {A B : Word → Prop} {s t : State} (h : Writes A s t) (hAB : ∀ x, A x → B x) : Writes B s t :=
  ⟨h.only, fun x hx => h.frame x fun ha => hx (hAB x ha), h.wf⟩

section
variable {A : Word → Prop} {s t : State} (h : Writes A s t)
include h

theorem Writes.cmd : t.cmd = s.cmd := by rw [h.only]
theorem Writes.status : t.status = s.status := by rw [h.only]
theorem Writes.result : t.result = s.result := by rw [h.only]
theorem Writes.chunkstat : t.chunkstat = s.chunkstat := by rw [h.only]
theorem Writes.operands : t.operands = s.operands := by rw [h.only]
theorem Writes.unwritten : t.unwritten = s.unwritten := by rw [h.only]
theorem Writes.mark : t.mark = s.mark := by rw [h.only]
theorem Writes.pending : t.pending = s.pending := by rw [h.only]
theorem Writes.hostData : t.hostData = s.hostData := by rw [h.only]
theorem Writes.hostBytes : t.hostBytes = s.hostBytes := by rw [h.only]
theorem Writes.cfg : t.cfg = s.cfg := by rw [h.only]
theorem Writes.reg (r : OperandReg) : t.reg r = s.reg r := by simp [State.reg, h.operands]
theorem Writes.spareAddr (lb : PageSize) (e : Nat) : t.spareAddr lb e = s.spareAddr lb e := by
  simp [State.spareAddr, h.reg, h.cfg]
theorem Writes.eccAddr (k : Nat) : t.eccAddr k = s.eccAddr k := by simp [State.eccAddr, h.reg]
theorem Writes.genAddr (k : Nat) : t.genAddr k = s.genAddr k := by simp [State.genAddr, h.reg]
theorem Writes.chunkAddr (k : Nat) : t.chunkAddr k = s.chunkAddr k := by simp [State.chunkAddr, h.reg]
theorem Writes.descAddr (i j : Nat) : t.descAddr i j = s.descAddr i j := by simp [State.descAddr, h.reg]
theorem Writes.markerAddr (lb : PageSize) : t.markerAddr lb = s.markerAddr lb := by
  simp [State.markerAddr, h.reg, h.cfg]
theorem Writes.correctAddr (k : Nat) (err : Word) : t.correctAddr k err = s.correctAddr k err := by
  simp [State.correctAddr, h.chunkAddr, h.cfg]

end

/-! ### One byte -/

@[simp] theorem State.peek_poke (s : State) (a x : Word) (v : Byte) :
    (s.poke a v).peek x = if x = a then v else s.peek x := by
  simp [State.peek, Memory.read_write, BitVec.toNat_inj]

theorem State.poke_writes (s : State) (a : Word) (v : Byte) : Writes (· = a) s (s.poke a v) where
  only := rfl
  frame x hx := by simp [hx]
  wf hw := Memory.wf_write _ _ a.isLt hw

theorem State.readByte_ok_iff (s : State) (a : Word) (b : Byte) :
    s.readByte a = .ok b ↔ admits s.cfg a = true ∧ b = s.peek a := by
  unfold State.readByte
  by_cases h : admits s.cfg a = true <;> simp [h, eq_comm]

theorem State.writeByte_ok_iff (s t : State) (a : Word) (v : Byte) :
    s.writeByte a v = .ok t ↔ admits s.cfg a = true ∧ t = s.poke a v := by
  unfold State.writeByte
  by_cases h : admits s.cfg a = true <;> simp [h, eq_comm]

/-! ### One word (R52, R53) -/

theorem addrAt_inj {a : Word} {i j : Nat} (hi : i < 2 ^ 32) (hj : j < 2 ^ 32) :
    addrAt a i = addrAt a j ↔ i = j := by
  constructor
  · intro h
    have h2 : BitVec.ofNat 32 i = BitVec.ofNat 32 j := by
      unfold addrAt at h; exact (BitVec.add_right_inj a).mp h
    have := congrArg BitVec.toNat h2
    simp only [BitVec.toNat_ofNat] at this
    rwa [Nat.mod_eq_of_lt hi, Nat.mod_eq_of_lt hj] at this
  · rintro rfl; rfl

@[simp] theorem addrAt_zero (a : Word) : addrAt a 0 = a := by simp [addrAt]

theorem addrAt_addrAt (a : Word) (i j : Nat) : addrAt (addrAt a i) j = addrAt a (i + j) := by
  simp [addrAt, BitVec.ofNat_add, BitVec.add_assoc]

theorem mem_wordBytes (a x : Word) : x ∈ wordBytes a ↔ ∃ j, j < 4 ∧ x = addrAt a j := by
  constructor
  · intro h
    simp only [wordBytes, List.mem_cons, List.not_mem_nil, or_false] at h
    rcases h with h | h | h | h
    · exact ⟨0, by omega, by simpa using h⟩
    · exact ⟨1, by omega, h⟩
    · exact ⟨2, by omega, h⟩
    · exact ⟨3, by omega, h⟩
  · rintro ⟨j, hj, rfl⟩
    have : j = 0 ∨ j = 1 ∨ j = 2 ∨ j = 3 := by omega
    rcases this with rfl | rfl | rfl | rfl <;> simp [wordBytes]

/-- The byte `j` of a word just stored (R53, R54). -/
theorem State.peek_pokeWord_byte (s : State) (a v : Word) (j : Nat) (hj : j < 4) :
    (s.pokeWord a v).peek (addrAt a j) = byteOf v j := by
  have h : ∀ i k : Nat, i < 4 → k < 4 → (addrAt a i = addrAt a k ↔ i = k) := fun i k hi hk =>
    addrAt_inj (by omega) (by omega)
  have h0 : ∀ k : Nat, k < 4 → (addrAt a k = a ↔ k = 0) := fun k hk => by
    have := h k 0 hk (by omega); rwa [addrAt_zero] at this
  have : j = 0 ∨ j = 1 ∨ j = 2 ∨ j = 3 := by omega
  unfold State.pokeWord
  rcases this with rfl | rfl | rfl | rfl
  · have h1 : ¬ a = addrAt a 1 := fun e => by have := (h0 1 (by omega)).mp e.symm; omega
    have h2 : ¬ a = addrAt a 2 := fun e => by have := (h0 2 (by omega)).mp e.symm; omega
    have h3 : ¬ a = addrAt a 3 := fun e => by have := (h0 3 (by omega)).mp e.symm; omega
    simp [State.peek_poke, h1, h2, h3]
  · simp [State.peek_poke, h]
  · simp [State.peek_poke, h]
  · simp [State.peek_poke]

theorem State.peek_pokeWord_other (s : State) (a v x : Word) (h : x ∉ wordBytes a) :
    (s.pokeWord a v).peek x = s.peek x := by
  simp only [wordBytes, List.mem_cons, List.not_mem_nil, or_false, not_or] at h
  unfold State.pokeWord
  simp [State.peek_poke, h.1, h.2.1, h.2.2.1, h.2.2.2]

theorem State.pokeWord_writes (s : State) (a v : Word) : Writes (· ∈ wordBytes a) s (s.pokeWord a v) where
  only := rfl
  frame x hx := s.peek_pokeWord_other a v x hx
  wf hw := by
    unfold State.pokeWord
    simp only [State.poke_mem]
    exact Memory.wf_write _ _ (BitVec.isLt _) (Memory.wf_write _ _ (BitVec.isLt _)
      (Memory.wf_write _ _ (BitVec.isLt _) (Memory.wf_write _ _ (BitVec.isLt _) hw)))

theorem wordOfBytes_byteOf (v : Word) : wordOfBytes (byteOf v 3) (byteOf v 2) (byteOf v 1) (byteOf v 0) = v := by
  unfold wordOfBytes byteOf
  apply BitVec.eq_of_getLsbD_eq
  intro i hi
  simp only [BitVec.getLsbD_append, BitVec.getLsbD_extractLsb']
  by_cases h1 : i < 8
  · simp [h1]
  · by_cases h2 : i < 16
    · simp [h1, show i - 8 < 8 by omega, show 8 + (i - 8) = i by omega]
    · by_cases h3 : i < 24
      · simp [h1, show ¬ i - 8 < 8 by omega, show i - 8 - 8 < 8 by omega, show 16 + (i - 8 - 8) = i by omega]
      · simp [h1, show ¬ i - 8 < 8 by omega, show ¬ i - 8 - 8 < 8 by omega, show i - 8 - 8 - 8 < 8 by omega,
          show 24 + (i - 8 - 8 - 8) = i by omega]

/-- A word read just after it was stored (R52, R53). -/
theorem State.peekWord_pokeWord (s : State) (a v : Word) : (s.pokeWord a v).peekWord a = v := by
  unfold State.peekWord
  have h0 := s.peek_pokeWord_byte a v 0 (by omega)
  rw [addrAt_zero] at h0
  rw [h0, s.peek_pokeWord_byte a v 1 (by omega), s.peek_pokeWord_byte a v 2 (by omega),
    s.peek_pokeWord_byte a v 3 (by omega), wordOfBytes_byteOf]

/-- A word none of whose bytes changed reads as before. -/
theorem State.peekWord_congr {s t : State} {a : Word} (h : ∀ x ∈ wordBytes a, t.peek x = s.peek x) :
    t.peekWord a = s.peekWord a := by
  simp only [wordBytes, List.mem_cons, List.not_mem_nil, or_false, forall_eq_or_imp, forall_eq] at h
  simp [State.peekWord, h]

theorem State.readWord_ok_iff (s : State) (a v : Word) :
    s.readWord a = .ok v ↔ admitsWord s.cfg a = true ∧ v = s.peekWord a := by
  unfold State.readWord
  by_cases h : admitsWord s.cfg a = true <;> simp [h, eq_comm]

theorem State.writeWord_ok_iff (s t : State) (a v : Word) :
    s.writeWord a v = .ok t ↔ admitsWord s.cfg a = true ∧ t = s.pokeWord a v := by
  unfold State.writeWord
  by_cases h : admitsWord s.cfg a = true <;> simp [h, eq_comm]

/-! ### Host reads and environment writes -/

@[simp] theorem State.peekBytes_length (s : State) (a : Word) (n : Nat) : (s.peekBytes a n).length = n := by
  induction n generalizing a with
  | zero => rfl
  | succ n ih => simp [State.peekBytes, ih]

theorem State.pokeBytes_wf (bs : List Byte) (s : State) (a : Word) (hw : Memory.wf s.mem = true) :
    Memory.wf (s.pokeBytes a bs).mem = true := by
  induction bs generalizing s a with
  | nil => exact hw
  | cons b bs ih => exact ih _ _ ((s.poke_writes a b).wf hw)

/-! ### Sequencing and loops -/

theorem andThen_ok_iff {α β : Type} (r : Except Fault α) (f : α → Except Fault β) (b : β) :
    andThen r f = .ok b ↔ ∃ a, r = .ok a ∧ f a = .ok b := by
  cases r <;> simp [andThen]

@[simp] theorem andThen_ok {α β : Type} (a : α) (f : α → Except Fault β) : andThen (.ok a) f = f a := rfl

@[simp] theorem andThen_error {α β : Type} (e : Fault) (f : α → Except Fault β) : andThen (.error e) f = .error e :=
  rfl

/-- If every pass changes only bytes of `A`, so does the loop. -/
theorem forEach_writes {A : Word → Prop} {f : Nat → State → Except Fault State} {s : State} (ks : List Nat)
    (hf : ∀ k ∈ ks, ∀ u v, Writes A s u → f k u = .ok v → Writes A u v) {u t : State} (hu : Writes A s u)
    (h : forEach f ks u = .ok t) : Writes A s t := by
  induction ks generalizing u with
  | nil => simp only [forEach, Except.ok.injEq] at h; exact h ▸ hu
  | cons k ks ih =>
    obtain ⟨v, hv, h⟩ := (andThen_ok_iff _ _ _).mp h
    exact ih (fun k' hk' => hf k' (by simp [hk'])) (hu.trans (hf k (by simp) u v hu hv)) h

/-- If every pass completes from every state the loop can reach, the loop completes. -/
theorem forEach_completes {A : Word → Prop} {f : Nat → State → Except Fault State} {s : State} (ks : List Nat)
    (hf : ∀ k ∈ ks, ∀ u, Writes A s u → ∃ v, f k u = .ok v ∧ Writes A u v) {u : State} (hu : Writes A s u) :
    ∃ t, forEach f ks u = .ok t ∧ Writes A s t := by
  induction ks generalizing u with
  | nil => exact ⟨u, rfl, hu⟩
  | cons k ks ih =>
    obtain ⟨v, hv, hw⟩ := hf k (by simp) u hu
    obtain ⟨t, ht, htw⟩ := ih (fun k' hk' => hf k' (by simp [hk'])) (hu.trans hw)
    exact ⟨t, by simp only [forEach, hv, andThen_ok]; exact ht, htw⟩

theorem forEach_append (f : Nat → State → Except Fault State) (ks js : List Nat) (s : State) :
    forEach f (ks ++ js) s = andThen (forEach f ks s) fun t => forEach f js t := by
  induction ks generalizing s with
  | nil => rfl
  | cons k ks ih =>
    simp only [List.cons_append, forEach]
    cases f k s with
    | ok t => exact ih t
    | error e => rfl

/-! ### Acceptance (R166) -/

/-- The mark after reading operand registers: the run's, else the first register nothing has written (log 3). -/
theorem State.noteReads_mark (rs : List OperandReg) (s : State) :
    (s.noteReads rs).mark = match s.mark with
      | some m => some m
      | none => (rs.find? fun r => decide (.operand r ∈ s.unwritten)).map .unwrittenOperand := by
  induction rs generalizing s with
  | nil => cases h : s.mark <;> simp [State.noteReads, h]
  | cons r rs ih =>
    simp only [State.noteReads, ih]
    unfold State.noteRead State.markRun
    by_cases hr : WindowReg.operand r ∈ s.unwritten <;> cases h : s.mark <;> simp [hr, h]

/-- The registers the alignment test reads: up to the first misaligned one, with it (R166 step 3). -/
def testedPart (s : State) : List OperandReg → List OperandReg
  | [] => []
  | r :: rs => if wordAligned (s.reg r) then r :: testedPart s rs else [r]

theorem testedPart_congr {s t : State} (h : ∀ r, t.reg r = s.reg r) (rs : List OperandReg) :
    testedPart t rs = testedPart s rs := by
  induction rs with
  | nil => rfl
  | cons r rs ih => simp only [testedPart, h, ih]

/-- When all are aligned, the test reads them all. -/
theorem testedPart_aligned (s : State) (rs : List OperandReg) (h : rs.all (fun r => wordAligned (s.reg r)) = true) :
    testedPart s rs = rs := by
  induction rs with
  | nil => rfl
  | cons r rs ih =>
    simp only [List.all_cons, Bool.and_eq_true] at h
    simp [testedPart, h.1, ih h.2]

/-- The alignment test: which registers it reads, and what it answers. -/
theorem readAligned_eq (rs : List OperandReg) (s : State) :
    State.readAligned rs s = (s.noteReads (testedPart s rs), rs.all fun r => wordAligned (s.reg r)) := by
  induction rs generalizing s with
  | nil => rfl
  | cons r rs ih =>
    by_cases hr : wordAligned (s.reg r) = true
    · have hreg : ∀ q, (s.noteRead r).reg q = s.reg q := fun q => by simp
      simp only [State.readAligned, hr, if_true, ih, testedPart, State.noteReads, testedPart_congr hreg, hreg,
        List.all_cons, Bool.true_and]
    · simp [State.readAligned, hr, testedPart, State.noteReads]

/-- An aligned command runs its operation, after reading the registers R23 marks. -/
theorem accept_aligned (i : Instr) (op : State → Except Fault State) (s : State) (h : operandsAligned i s = true) :
    accept i op s = finish (op (s.noteReads (readRegs i))) := by
  unfold accept operandsAligned at *
  rw [readAligned_eq, h, testedPart_aligned _ _ h, readRegs, State.noteReads_append]

/-- A misaligned command is rejected, after reading the registers up to the first misaligned one. -/
theorem accept_misaligned (i : Instr) (op : State → Except Fault State) (s : State)
    (h : operandsAligned i s = false) :
    accept i op s = .next ((s.noteReads (testedPart s (alignedRegs i))).raiseCmdErr .align) := by
  unfold accept operandsAligned at *
  rw [readAligned_eq, h]

theorem finish_next_iff (r : Except Fault State) (t : State) : finish r = .next t ↔ ∃ u, r = .ok u ∧ t = u.complete := by
  cases r <;> simp [finish, eq_comm]

/-- What an accepted-or-rejected command can answer: a rejection, a completed operation, a model fault. -/
theorem accept_cases (i : Instr) (op : State → Except Fault State) (s : State) :
    (operandsAligned i s = false ∧
      accept i op s = .next ((s.noteReads (testedPart s (alignedRegs i))).raiseCmdErr .align)) ∨
    (operandsAligned i s = true ∧ ∃ u, op (s.noteReads (readRegs i)) = .ok u ∧ accept i op s = .next u.complete) ∨
    (operandsAligned i s = true ∧ ∃ e, op (s.noteReads (readRegs i)) = .error e ∧ accept i op s = .fault e) := by
  cases h : operandsAligned i s with
  | false => exact .inl ⟨rfl, accept_misaligned i op s h⟩
  | true =>
    rw [accept_aligned i op s h]
    cases ho : op (s.noteReads (readRegs i)) with
    | ok u => exact .inr (.inl ⟨rfl, u, rfl, rfl⟩)
    | error e => exact .inr (.inr ⟨rfl, e, rfl, rfl⟩)

end Sys2Proof.Machine
end

