-- ==== Sys2Proof/Laws/Commands.lean ====
section
/-! SUPPORT. What one pass of each command's loop can do, and which bytes each operation can change. -/

namespace Sys2Proof.Machine

open Sys2Proof

/-! ### Addresses do not depend on memory -/

@[simp] theorem State.spareAddr_poke (s : State) (a : Word) (v : Byte) (lb : PageSize) (e : Nat) :
    (s.poke a v).spareAddr lb e = s.spareAddr lb e := rfl
@[simp] theorem State.spareAddr_noteReads (s : State) (rs : List OperandReg) (lb : PageSize) (e : Nat) :
    (s.noteReads rs).spareAddr lb e = s.spareAddr lb e := by simp [State.spareAddr]
@[simp] theorem State.eccAddr_noteReads (s : State) (rs : List OperandReg) (k : Nat) :
    (s.noteReads rs).eccAddr k = s.eccAddr k := by simp [State.eccAddr]
@[simp] theorem State.genAddr_noteReads (s : State) (rs : List OperandReg) (k : Nat) :
    (s.noteReads rs).genAddr k = s.genAddr k := by simp [State.genAddr]
@[simp] theorem State.chunkAddr_noteReads (s : State) (rs : List OperandReg) (k : Nat) :
    (s.noteReads rs).chunkAddr k = s.chunkAddr k := by simp [State.chunkAddr]
@[simp] theorem State.correctAddr_noteReads (s : State) (rs : List OperandReg) (k : Nat) (err : Word) :
    (s.noteReads rs).correctAddr k err = s.correctAddr k err := by simp [State.correctAddr]
@[simp] theorem State.markerAddr_noteReads (s : State) (rs : List OperandReg) (lb : PageSize) :
    (s.noteReads rs).markerAddr lb = s.markerAddr lb := by simp [State.markerAddr]
@[simp] theorem State.descAddr_noteReads (s : State) (rs : List OperandReg) (i j : Nat) :
    (s.noteReads rs).descAddr i j = s.descAddr i j := by simp [State.descAddr]
@[simp] theorem State.descAddr_pokeWord (s : State) (a v : Word) (i j : Nat) :
    (s.pokeWord a v).descAddr i j = s.descAddr i j := rfl
@[simp] theorem State.peek_noteReads (s : State) (rs : List OperandReg) (x : Word) :
    (s.noteReads rs).peek x = s.peek x := by simp [State.peek]
@[simp] theorem State.peekWord_noteReads (s : State) (rs : List OperandReg) (a : Word) :
    (s.noteReads rs).peekWord a = s.peekWord a := by simp [State.peekWord]
@[simp] theorem State.peek_setResult (s : State) (v x : Word) : (s.setResult v).peek x = s.peek x := rfl
@[simp] theorem State.peek_setChunkstat (s : State) (v x : Word) : (s.setChunkstat v).peek x = s.peek x := rfl
@[simp] theorem State.peek_complete (s : State) (x : Word) : s.complete.peek x = s.peek x := rfl
@[simp] theorem State.peek_raiseCmdErr (s : State) (e : CmdErr) (x : Word) : (s.raiseCmdErr e).peek x = s.peek x := rfl

/-! ### ECCPACK and ECCUNPACK (R103, R104) -/

/-- One pass of ECCPACK: when it completes, and the state it leaves. -/
theorem packChunk_ok_iff (lb : PageSize) (k : Nat) (s t : State) :
    packChunk lb k s = .ok t ↔
      (admitsWord s.cfg (s.eccAddr k) = true ∧ admits s.cfg (s.spareAddr lb (3 * k + 2)) = true ∧
        admits s.cfg (s.spareAddr lb (3 * k + 1)) = true ∧ admits s.cfg (s.spareAddr lb (3 * k)) = true) ∧
      t = ((s.poke (s.spareAddr lb (3 * k + 2)) (byteOf (packSyndrome (s.peekWord (s.eccAddr k))) 0)).poke
            (s.spareAddr lb (3 * k + 1)) (byteOf (packSyndrome (s.peekWord (s.eccAddr k))) 1)).poke
            (s.spareAddr lb (3 * k)) (byteOf (packSyndrome (s.peekWord (s.eccAddr k))) 2) := by
  simp only [packChunk, andThen_ok_iff, State.readWord_ok_iff, State.writeByte_ok_iff]
  constructor
  · rintro ⟨_, ⟨h0, rfl⟩, _, ⟨h1, rfl⟩, _, ⟨h2, rfl⟩, h3, rfl⟩
    exact ⟨⟨h0, h1, h2, h3⟩, rfl⟩
  · rintro ⟨⟨h0, h1, h2, h3⟩, rfl⟩
    exact ⟨_, ⟨h0, rfl⟩, _, ⟨h1, rfl⟩, _, ⟨h2, rfl⟩, h3, rfl⟩

/-- The three spare bytes of syndrome `k`. -/
def spareTriple (s : State) (lb : PageSize) (k : Nat) : List Word :=
  [s.spareAddr lb (3 * k), s.spareAddr lb (3 * k + 1), s.spareAddr lb (3 * k + 2)]

theorem packChunk_writes {lb : PageSize} {k : Nat} {s t : State} (h : packChunk lb k s = .ok t) :
    Writes (· ∈ spareTriple s lb k) s t := by
  obtain ⟨-, rfl⟩ := (packChunk_ok_iff lb k s t).mp h
  have step : ∀ (u : State) (x : Word) (v : Byte), x ∈ spareTriple s lb k →
      Writes (· ∈ spareTriple s lb k) u (u.poke x v) := fun u x v hx =>
    (u.poke_writes x v).mono fun y hy => hy ▸ hx
  exact ((step s _ _ (by simp [spareTriple])).trans (step _ _ _ (by simp [spareTriple]))).trans
    (step _ _ _ (by simp [spareTriple]))

/-- One pass of ECCUNPACK: when it completes, and the state it leaves. -/
theorem unpackChunk_ok_iff (lb : PageSize) (k : Nat) (s t : State) :
    unpackChunk lb k s = .ok t ↔
      (admits s.cfg (s.spareAddr lb (3 * k)) = true ∧ admits s.cfg (s.spareAddr lb (3 * k + 1)) = true ∧
        admits s.cfg (s.spareAddr lb (3 * k + 2)) = true ∧ admitsWord s.cfg (s.eccAddr k) = true) ∧
      t = s.pokeWord (s.eccAddr k) (unpackSyndrome (word24 (s.peek (s.spareAddr lb (3 * k)))
            (s.peek (s.spareAddr lb (3 * k + 1))) (s.peek (s.spareAddr lb (3 * k + 2))))) := by
  simp only [unpackChunk, andThen_ok_iff, State.readByte_ok_iff, State.writeWord_ok_iff]
  constructor
  · rintro ⟨_, ⟨h0, rfl⟩, _, ⟨h1, rfl⟩, _, ⟨h2, rfl⟩, h3, rfl⟩
    exact ⟨⟨h0, h1, h2, h3⟩, rfl⟩
  · rintro ⟨⟨h0, h1, h2, h3⟩, rfl⟩
    exact ⟨_, ⟨h0, rfl⟩, _, ⟨h1, rfl⟩, _, ⟨h2, rfl⟩, h3, rfl⟩

theorem unpackChunk_writes {lb : PageSize} {k : Nat} {s t : State} (h : unpackChunk lb k s = .ok t) :
    Writes (· ∈ wordBytes (s.eccAddr k)) s t := by
  obtain ⟨-, rfl⟩ := (unpackChunk_ok_iff lb k s t).mp h
  exact s.pokeWord_writes _ _

/-! ### ECCCORR (R120) -/

/-- The correcting branch: one bit of one admitted byte. -/
theorem correctBit_ok_iff (idx : Nat) (err : Word) (s t : State) :
    correctBit idx err s = .ok t ↔
      admits s.cfg (s.correctAddr idx err) = true ∧
      t = s.poke (s.correctAddr idx err) (flipBit (s.peek (s.correctAddr idx err)) (bitOff s.cfg err)) := by
  simp only [correctBit, andThen_ok_iff, State.readByte_ok_iff, State.writeByte_ok_iff]
  constructor
  · rintro ⟨_, ⟨h0, rfl⟩, _, rfl⟩; exact ⟨h0, rfl⟩
  · rintro ⟨h0, rfl⟩; exact ⟨_, ⟨h0, rfl⟩, h0, rfl⟩

/-- The branch `err` selects: when it completes, what it answers, what it leaves. -/
theorem correctBranch_ok_iff (idx : Nat) (err : Word) (s t : State) (o : EccOutcome) :
    correctBranch idx err s = .ok (o, t) ↔
      o = classifyErr err ∧ ((o = .corrected ∧ correctBit idx err s = .ok t) ∨ (o ≠ .corrected ∧ t = s)) := by
  unfold correctBranch
  cases classifyErr err with
  | corrected =>
    simp only [andThen_ok_iff, Except.ok.injEq, Prod.mk.injEq]
    constructor
    · rintro ⟨_, h, rfl, rfl⟩; exact ⟨rfl, .inl ⟨rfl, h⟩⟩
    · rintro ⟨rfl, ⟨-, h⟩ | ⟨h, -⟩⟩
      · exact ⟨_, h, rfl, rfl⟩
      · exact absurd rfl h
  | noErr =>
    simp only [Except.ok.injEq, Prod.mk.injEq]
    constructor
    · rintro ⟨rfl, rfl⟩; exact ⟨rfl, .inr ⟨nofun, rfl⟩⟩
    · rintro ⟨rfl, ⟨h, -⟩ | ⟨-, rfl⟩⟩
      · cases h
      · exact ⟨rfl, rfl⟩
  | areaErr =>
    simp only [Except.ok.injEq, Prod.mk.injEq]
    constructor
    · rintro ⟨rfl, rfl⟩; exact ⟨rfl, .inr ⟨nofun, rfl⟩⟩
    · rintro ⟨rfl, ⟨h, -⟩ | ⟨-, rfl⟩⟩
      · cases h
      · exact ⟨rfl, rfl⟩
  | notCorrectable =>
    simp only [Except.ok.injEq, Prod.mk.injEq]
    constructor
    · rintro ⟨rfl, rfl⟩; exact ⟨rfl, .inr ⟨nofun, rfl⟩⟩
    · rintro ⟨rfl, ⟨h, -⟩ | ⟨-, rfl⟩⟩
      · cases h
      · exact ⟨rfl, rfl⟩

/-- `Correct(idx)`: when it completes, what it answers, what it leaves. -/
theorem correctChunk_ok_iff (idx : Nat) (s t : State) (o : EccOutcome) :
    correctChunk idx s = .ok (o, t) ↔
      (admitsWord s.cfg (s.genAddr idx) = true ∧ admitsWord s.cfg (s.eccAddr idx) = true ∧
        o = classifyErr (errAt s idx)) ∧
      ((o = .corrected ∧ correctBit idx (errAt s idx) s = .ok t) ∨ (o ≠ .corrected ∧ t = s)) := by
  simp only [correctChunk, andThen_ok_iff, State.readWord_ok_iff, correctBranch_ok_iff, errAt]
  constructor
  · rintro ⟨_, ⟨h0, rfl⟩, _, ⟨h1, rfl⟩, h, h'⟩; exact ⟨⟨h0, h1, h⟩, h'⟩
  · rintro ⟨⟨h0, h1, h⟩, h'⟩; exact ⟨_, ⟨h0, rfl⟩, _, ⟨h1, rfl⟩, h, h'⟩

theorem correctChunk_writes {idx : Nat} {s t : State} {o : EccOutcome} (h : correctChunk idx s = .ok (o, t)) :
    Writes (fun x => o = .corrected ∧ x = s.correctAddr idx (errAt s idx)) s t := by
  obtain ⟨-, ⟨ho, hb⟩ | ⟨-, rfl⟩⟩ := (correctChunk_ok_iff idx s t o).mp h
  · obtain ⟨-, rfl⟩ := (correctBit_ok_iff _ _ _ _).mp hb
    exact (s.poke_writes _ _).mono fun x hx => ⟨ho, hx⟩
  · exact Writes.refl _ _

/-! ### DMABUILD (R148) -/

/-- `WriteDesc`: when it completes, and the state it leaves. -/
theorem writeDescriptor_ok_iff (i : Nat) (d : Descriptor) (s t : State) :
    writeDescriptor i d s = .ok t ↔
      (∀ j, j < 4 → admitsWord s.cfg (s.descAddr i j) = true) ∧
      t = (((s.pokeWord (s.descAddr i 0) d.src).pokeWord (s.descAddr i 1) d.dst).pokeWord (s.descAddr i 2)
            d.next).pokeWord (s.descAddr i 3) d.ctrl := by
  have hall : (∀ j, j < 4 → admitsWord s.cfg (s.descAddr i j) = true) ↔
      (admitsWord s.cfg (s.descAddr i 0) = true ∧ admitsWord s.cfg (s.descAddr i 1) = true ∧
        admitsWord s.cfg (s.descAddr i 2) = true ∧ admitsWord s.cfg (s.descAddr i 3) = true) := by
    constructor
    · intro h; exact ⟨h 0 (by omega), h 1 (by omega), h 2 (by omega), h 3 (by omega)⟩
    · rintro ⟨h0, h1, h2, h3⟩ j hj
      have : j = 0 ∨ j = 1 ∨ j = 2 ∨ j = 3 := by omega
      rcases this with rfl | rfl | rfl | rfl
      · exact h0
      · exact h1
      · exact h2
      · exact h3
  rw [hall]
  simp only [writeDescriptor, andThen_ok_iff, State.writeWord_ok_iff]
  constructor
  · rintro ⟨u1, ⟨h0, e1⟩, u2, ⟨h1, e2⟩, u3, ⟨h2, e3⟩, h3, e4⟩
    subst e1; subst e2; subst e3
    simp only [State.pokeWord_cfg, State.descAddr_pokeWord] at h1 h2 h3 e4
    exact ⟨⟨h0, h1, h2, h3⟩, e4⟩
  · rintro ⟨⟨h0, h1, h2, h3⟩, e4⟩
    refine ⟨_, ⟨h0, rfl⟩, s.pokeWord (s.descAddr i 0) d.src |>.pokeWord (s.descAddr i 1) d.dst, ⟨?_, ?_⟩,
      (s.pokeWord (s.descAddr i 0) d.src |>.pokeWord (s.descAddr i 1) d.dst).pokeWord (s.descAddr i 2) d.next,
      ⟨?_, ?_⟩, ?_, ?_⟩ <;>
    simp only [State.pokeWord_cfg, State.descAddr_pokeWord, h1, h2, h3, e4]

/-- The sixteen bytes of descriptor `i`. -/
def descriptorBytes (s : State) (i : Nat) (x : Word) : Prop := ∃ j, j < 4 ∧ x ∈ wordBytes (s.descAddr i j)

theorem writeDescriptor_writes {i : Nat} {d : Descriptor} {s t : State} (h : writeDescriptor i d s = .ok t) :
    Writes (descriptorBytes s i) s t := by
  obtain ⟨-, rfl⟩ := (writeDescriptor_ok_iff i d s t).mp h
  have step : ∀ (u : State) (j : Nat) (v : Word), j < 4 →
      Writes (descriptorBytes s i) u (u.pokeWord (s.descAddr i j) v) := fun u j v hj =>
    (u.pokeWord_writes _ _).mono fun x hx => ⟨j, hj, hx⟩
  exact (((step s 0 _ (by omega)).trans (step _ 1 _ (by omega))).trans (step _ 2 _ (by omega))).trans
    (step _ 3 _ (by omega))

end Sys2Proof.Machine
end

