-- ==== Sys2Proof/Laws/Congruence.lean ====
section
/-! SUPPORT. An operation depends on memory, the operand registers and the parameters only (R23, R29): from two states
that agree on those it answers alike. -/

namespace Sys2Proof.Machine

open Sys2Proof

/-- The two states agree on what an operation reads. -/
structure SameInputs (s t : State) : Prop where
  mem : t.mem = s.mem
  operands : t.operands = s.operands
  cfg : t.cfg = s.cfg

theorem SameInputs.refl (s : State) : SameInputs s s := ⟨rfl, rfl, rfl⟩

/-- Two answers: related values, or the same fault. -/
def Alike {α β : Type} (R : α → β → Prop) : Except Fault α → Except Fault β → Prop
  | .ok a, .ok b => R a b
  | .error e, .error e' => e' = e
  | .ok _, .error _ => False
  | .error _, .ok _ => False

theorem andThen_alike {α β γ δ : Type} {R : α → β → Prop} {Q : γ → δ → Prop} {r : Except Fault α} {r' : Except Fault β}
    {f : α → Except Fault γ} {g : β → Except Fault δ} (h : Alike R r r') (hf : ∀ a b, R a b → Alike Q (f a) (g b)) :
    Alike Q (andThen r f) (andThen r' g) := by
  cases r <;> cases r' <;> simp only [Alike] at h
  · exact h
  · exact hf _ _ h

section
variable {s t : State} (h : SameInputs s t)
include h

theorem SameInputs.peek (x : Word) : t.peek x = s.peek x := by simp [State.peek, h.mem]
theorem SameInputs.peekWord (a : Word) : t.peekWord a = s.peekWord a := by simp [State.peekWord, h.peek]
theorem SameInputs.reg (r : OperandReg) : t.reg r = s.reg r := by simp [State.reg, h.operands]
theorem SameInputs.spareAddr (lb : PageSize) (e : Nat) : t.spareAddr lb e = s.spareAddr lb e := by
  simp [State.spareAddr, h.reg, h.cfg]
theorem SameInputs.markerAddr (lb : PageSize) : t.markerAddr lb = s.markerAddr lb := by
  simp [State.markerAddr, h.reg, h.cfg]
theorem SameInputs.eccAddr (k : Nat) : t.eccAddr k = s.eccAddr k := by simp [State.eccAddr, h.reg]
theorem SameInputs.genAddr (k : Nat) : t.genAddr k = s.genAddr k := by simp [State.genAddr, h.reg]
theorem SameInputs.chunkAddr (k : Nat) : t.chunkAddr k = s.chunkAddr k := by simp [State.chunkAddr, h.reg]
theorem SameInputs.correctAddr (k : Nat) (err : Word) : t.correctAddr k err = s.correctAddr k err := by
  simp [State.correctAddr, h.chunkAddr, h.cfg]
theorem SameInputs.descAddr (i j : Nat) : t.descAddr i j = s.descAddr i j := by simp [State.descAddr, h.reg]
theorem SameInputs.errAt (k : Nat) : Machine.errAt t k = Machine.errAt s k := by
  simp [Machine.errAt, h.peekWord, h.eccAddr, h.genAddr]
theorem SameInputs.poke (a : Word) (v : Byte) : SameInputs (s.poke a v) (t.poke a v) :=
  ⟨by simp [h.mem], h.operands, h.cfg⟩
theorem SameInputs.pokeWord (a v : Word) : SameInputs (s.pokeWord a v) (t.pokeWord a v) :=
  (((h.poke _ _).poke _ _).poke _ _).poke _ _

theorem readByte_alike (a : Word) : Alike Eq (s.readByte a) (t.readByte a) := by
  unfold State.readByte; rw [h.cfg]; split <;> simp [Alike, h.peek]
theorem readWord_alike (a : Word) : Alike Eq (s.readWord a) (t.readWord a) := by
  unfold State.readWord; rw [h.cfg]; split <;> simp [Alike, h.peekWord]
theorem writeByte_alike (a : Word) (v : Byte) : Alike SameInputs (s.writeByte a v) (t.writeByte a v) := by
  unfold State.writeByte; rw [h.cfg]; split
  · exact h.poke a v
  · rfl
theorem writeWord_alike (a v : Word) : Alike SameInputs (s.writeWord a v) (t.writeWord a v) := by
  unfold State.writeWord; rw [h.cfg]; split
  · exact h.pokeWord a v
  · rfl

theorem packChunk_alike (lb : PageSize) (k : Nat) : Alike SameInputs (packChunk lb k s) (packChunk lb k t) := by
  unfold packChunk
  rw [h.eccAddr, h.spareAddr]
  refine andThen_alike (readWord_alike h _) fun v w hvw => ?_
  subst hvw
  refine andThen_alike (writeByte_alike h _ _) fun s1 t1 h1 => ?_
  rw [h1.spareAddr]
  refine andThen_alike (writeByte_alike h1 _ _) fun s2 t2 h2 => ?_
  rw [h2.spareAddr]
  exact writeByte_alike h2 _ _

theorem unpackChunk_alike (lb : PageSize) (k : Nat) : Alike SameInputs (unpackChunk lb k s) (unpackChunk lb k t) := by
  unfold unpackChunk
  rw [h.eccAddr, h.spareAddr, h.spareAddr, h.spareAddr]
  refine andThen_alike (readByte_alike h _) fun b2 c2 e2 => ?_
  refine andThen_alike (readByte_alike h _) fun b1 c1 e1 => ?_
  refine andThen_alike (readByte_alike h _) fun b0 c0 e0 => ?_
  subst e2; subst e1; subst e0
  exact writeWord_alike h _ _

theorem correctChunk_alike (i : Nat) :
    Alike (fun a b => b.1 = a.1 ∧ SameInputs a.2 b.2) (correctChunk i s) (correctChunk i t) := by
  unfold correctChunk
  rw [h.eccAddr, h.genAddr]
  refine andThen_alike (readWord_alike h _) fun v w e => ?_
  refine andThen_alike (readWord_alike h _) fun v' w' e' => ?_
  subst e; subst e'
  unfold correctBranch
  cases classifyErr (v' ^^^ v) with
  | corrected =>
    refine andThen_alike (R := SameInputs) ?_ fun a b hab => ⟨rfl, hab⟩
    unfold correctBit
    rw [h.correctAddr, h.cfg]
    refine andThen_alike (readByte_alike h _) fun b c e => ?_
    subst e
    exact writeByte_alike h _ _
  | noErr => exact ⟨rfl, h⟩
  | areaErr => exact ⟨rfl, h⟩
  | notCorrectable => exact ⟨rfl, h⟩

theorem buildDescriptor_alike (lb : PageSize) (wr : Direction) (i : Nat) :
    Alike SameInputs (buildDescriptor lb wr i s) (buildDescriptor lb wr i t) := by
  have hd : descriptorAt t lb wr i = descriptorAt s lb wr i := by
    unfold descriptorAt descAddrs nextPointer
    simp only [h.reg, h.cfg, h.chunkAddr, h.genAddr]
  unfold buildDescriptor writeDescriptor
  rw [hd, h.descAddr]
  refine andThen_alike (writeWord_alike h _ _) fun s1 t1 h1 => ?_
  rw [h1.descAddr]
  refine andThen_alike (writeWord_alike h1 _ _) fun s2 t2 h2 => ?_
  rw [h2.descAddr]
  refine andThen_alike (writeWord_alike h2 _ _) fun s3 t3 h3 => ?_
  rw [h3.descAddr]
  exact writeWord_alike h3 _ _

end

/-- A loop of passes that answer alike answers alike. -/
theorem forEach_alike {f : Nat → State → Except Fault State}
    (hf : ∀ k s t, SameInputs s t → Alike SameInputs (f k s) (f k t)) (ks : List Nat) {s t : State}
    (h : SameInputs s t) : Alike SameInputs (forEach f ks s) (forEach f ks t) := by
  induction ks generalizing s t with
  | nil => exact h
  | cons k ks ih => exact andThen_alike (hf k s t h) fun a b hab => ih hab

/-- The correction loop of a page answers alike, with the same collation. -/
theorem correctChunks_alike (lb : PageSize) (is : List Nat) (a : PageAcc) {s t : State} (h : SameInputs s t) :
    Alike (fun x y => y.1 = x.1 ∧ SameInputs x.2 y.2) (correctChunks lb is a s) (correctChunks lb is a t) := by
  induction is generalizing a s t with
  | nil => exact ⟨rfl, h⟩
  | cons i is ih =>
    unfold correctChunks
    refine andThen_alike (correctChunk_alike h i) fun x y hxy => ?_
    rw [hxy.1, h.cfg]
    exact ih _ hxy.2

theorem outcomesFrom_same (is : List Nat) {s t : State} (h : SameInputs s t) : outcomesFrom is t = outcomesFrom is s := by
  induction is generalizing s t with
  | nil => rfl
  | cons i is ih =>
    have hc := correctChunk_alike h i
    unfold outcomesFrom
    cases hs : correctChunk i s <;> cases ht : correctChunk i t <;> rw [hs, ht] at hc <;> simp only [Alike] at hc
    rename_i x y
    obtain ⟨o, u⟩ := x; obtain ⟨o', v⟩ := y
    obtain ⟨rfl, hv⟩ := hc
    simp only [ih hv]

theorem correctedFrom_same (is : List Nat) {s t : State} (h : SameInputs s t) :
    correctedFrom is t = correctedFrom is s := by
  induction is generalizing s t with
  | nil => rfl
  | cons i is ih =>
    have hc := correctChunk_alike h i
    unfold correctedFrom
    cases hs : correctChunk i s <;> cases ht : correctChunk i t <;> rw [hs, ht] at hc <;> simp only [Alike] at hc
    rename_i x y
    obtain ⟨o, u⟩ := x; obtain ⟨o', v⟩ := y
    obtain ⟨rfl, hv⟩ := hc
    simp only [ih hv, h.errAt, h.correctAddr]

/-- Reading operand registers changes nothing an operation reads. -/
theorem SameInputs.noteReads (s : State) (rs : List OperandReg) : SameInputs s (s.noteReads rs) :=
  ⟨by simp, by simp, by simp⟩

theorem pageOutcomes_same (lb : PageSize) {s t : State} (h : SameInputs s t) : pageOutcomes lb t = pageOutcomes lb s := by
  have hu := forEach_alike (f := unpackChunk lb) (fun k s t h => unpackChunk_alike h lb k) (List.range (chunksOf lb)) h
  unfold pageOutcomes unpackPage
  cases hs : forEach (unpackChunk lb) (List.range (chunksOf lb)) s <;>
    cases ht : forEach (unpackChunk lb) (List.range (chunksOf lb)) t <;> rw [hs, ht] at hu <;> simp only [Alike] at hu
  exact outcomesFrom_same _ hu

theorem pageCorrected_same (lb : PageSize) {s t : State} (h : SameInputs s t) :
    pageCorrected lb t = pageCorrected lb s := by
  have hu := forEach_alike (f := unpackChunk lb) (fun k s t h => unpackChunk_alike h lb k) (List.range (chunksOf lb)) h
  unfold pageCorrected unpackPage
  cases hs : forEach (unpackChunk lb) (List.range (chunksOf lb)) s <;>
    cases ht : forEach (unpackChunk lb) (List.range (chunksOf lb)) t <;> rw [hs, ht] at hu <;> simp only [Alike] at hu
  exact correctedFrom_same _ hu

end Sys2Proof.Machine
end

