-- ==== Sys2Proof/Laws/Exec.lean ====
section
/-! SUPPORT. What `exec` can do, said once: every command is acceptance around its operation; a completed operation
changes the bytes it stores to, `RESULT`, and for ECCPAGE `CHUNKSTAT`. A hint for proofs: addresses such as
`s.descAddr i j` are best compared through the lemmas here, since unifying two of them unfolds bit vectors. -/

namespace Sys2Proof.Machine

open Sys2Proof

/-- The operation of a command, between acceptance and the `STATUS` update. -/
def opOf : Instr → State → Except Fault State
  | .eccpack c => packOp c
  | .eccunpack c => unpackOp c
  | .ecccorr i => corrOp i
  | .eccpage lb => pageOp lb
  | .bbcheck lb => checkOp lb
  | .bbmark lb => markOp lb
  | .dmabuild lb wr => buildOp lb wr

/-- Every command is acceptance around its operation (R166). -/
theorem exec_eq (i : Instr) (s : State) : exec i s = accept i (opOf i) s := by cases i <;> rfl

/-- The alignment test of R56, arithmetically. -/
theorem wordAligned_iff (a : Word) : wordAligned a = true ↔ a.toNat % 4 = 0 := by
  unfold wordAligned
  rw [decide_eq_true_iff, ← BitVec.toNat_inj, BitVec.toNat_and]
  have := Nat.and_two_pow_sub_one_eq_mod a.toNat 2
  simp at this ⊢
  omega

theorem pack_writes {lb s t} (h : packPage lb s = .ok t) : Writes (inSpareLayout s lb) s t := by
  refine forEach_writes (A := inSpareLayout s lb) _ ?_ (Writes.refl _ s) h
  intro k hk u v hu hv
  refine (packChunk_writes hv).mono fun x hx => ?_
  simp only [List.mem_range] at hk
  simp only [spareTriple, List.mem_cons, List.not_mem_nil, or_false, hu.spareAddr] at hx
  rcases hx with rfl | rfl | rfl
  · exact ⟨_, by omega, rfl⟩
  · exact ⟨_, by omega, rfl⟩
  · exact ⟨_, by omega, rfl⟩

theorem unpack_writes {lb s t} (h : unpackPage lb s = .ok t) : Writes (inWords s.eccAddr (chunksOf lb)) s t := by
  refine forEach_writes _ ?_ (Writes.refl _ s) h
  intro k hk u v hu hv
  refine (unpackChunk_writes hv).mono fun x hx => ?_
  rw [hu.eccAddr] at hx
  exact ⟨k, by simpa using hk, hx⟩

theorem build_writes {lb wr s t} (h : forEach (buildDescriptor lb wr) (List.range (descriptorsOf lb)) s = .ok t) :
    Writes (fun x => ∃ i < descriptorsOf lb, ∃ j < 4, x ∈ wordBytes (s.descAddr i j)) s t := by
  refine forEach_writes _ ?_ (Writes.refl _ s) h
  intro k hk u v hu hv
  refine (writeDescriptor_writes hv).mono fun x hx => ?_
  obtain ⟨j, hj, hx⟩ := hx
  rw [hu.descAddr] at hx
  exact ⟨k, by simpa using hk, j, hj, hx⟩

theorem corrs_writes {lb is a s b t} (h : correctChunks lb is a s = .ok (b, t)) :
    Writes (· ∈ correctedFrom is s) s t := by
  induction is generalizing a s with
  | nil => simp only [correctChunks, Except.ok.injEq, Prod.mk.injEq] at h; exact h.2 ▸ Writes.refl _ _
  | cons i is ih =>
    simp only [correctChunks, andThen_ok_iff] at h
    obtain ⟨⟨o, u⟩, hc, h⟩ := h
    have h1 := correctChunk_writes hc
    have h2 := ih h
    refine (h1.mono ?_).trans (h2.mono ?_)
    · rintro x ⟨rfl, rfl⟩; simp [correctedFrom, hc]
    · intro x hx; simp only [correctedFrom, hc, List.mem_append]; exact .inr hx

/-- What a completed operation has done: its stores, then `RESULT`, and for ECCPAGE `CHUNKSTAT` before it. -/
theorem op_writes (i : Instr) (s t : State) (h : opOf i s = .ok t) :
    ∃ u r, Writes (storesTo i s) s u ∧
      (((∀ lb, i ≠ .eccpage lb) ∧ t = u.setResult r) ∨ (∃ lb cs, i = .eccpage lb ∧ t = (u.setChunkstat cs).setResult r)) := by
  cases i with
  | eccpack c =>
    simp only [opOf, packOp] at h
    cases hc : pageOfCount c with
    | none => rw [hc] at h; cases h; exact ⟨s, 0, Writes.refl _ s, .inl ⟨nofun, rfl⟩⟩
    | some lb =>
      rw [hc] at h; simp only [andThen_ok_iff] at h
      obtain ⟨u, hu, h⟩ := h; cases h
      exact ⟨u, 1, (pack_writes hu).mono fun x hx => by simpa [storesTo, hc] using hx, .inl ⟨nofun, rfl⟩⟩
  | eccunpack c =>
    simp only [opOf, unpackOp] at h
    cases hc : pageOfCount c with
    | none => rw [hc] at h; cases h; exact ⟨s, 0, Writes.refl _ s, .inl ⟨nofun, rfl⟩⟩
    | some lb =>
      rw [hc] at h; simp only [andThen_ok_iff] at h
      obtain ⟨u, hu, h⟩ := h; cases h
      exact ⟨u, 1, (unpack_writes hu).mono fun x hx => by simpa [storesTo, hc] using hx, .inl ⟨nofun, rfl⟩⟩
  | ecccorr idx =>
    simp only [opOf, corrOp, andThen_ok_iff] at h
    obtain ⟨⟨o, u⟩, hu, h⟩ := h; cases h
    refine ⟨u, _, (correctChunk_writes hu).mono ?_, .inl ⟨nofun, rfl⟩⟩
    rintro x ⟨rfl, rfl⟩
    exact ⟨((correctChunk_ok_iff _ _ _ _).mp hu).1.2.2.symm, rfl⟩
  | eccpage lb =>
    simp only [opOf, pageOp, andThen_ok_iff] at h
    obtain ⟨u, hu, ⟨a, v⟩, hv, h⟩ := h; cases h
    refine ⟨v, _, ?_, .inr ⟨lb, _, rfl, rfl⟩⟩
    refine ((unpack_writes hu).mono fun x hx => .inl hx).trans ((corrs_writes hv).mono fun x hx => .inr ?_)
    simpa [pageCorrected, hu] using hx
  | bbcheck lb =>
    simp only [opOf, checkOp, andThen_ok_iff] at h
    obtain ⟨m, hm, h⟩ := h; cases h
    exact ⟨s, _, Writes.refl _ s, .inl ⟨nofun, rfl⟩⟩
  | bbmark lb =>
    simp only [opOf, markOp, andThen_ok_iff, State.writeByte_ok_iff] at h
    obtain ⟨u, ⟨-, rfl⟩, h⟩ := h; cases h
    exact ⟨_, _, s.poke_writes _ _, .inl ⟨nofun, rfl⟩⟩
  | dmabuild lb wr =>
    simp only [opOf, buildOp, andThen_ok_iff] at h
    obtain ⟨u, hu, h⟩ := h; cases h
    exact ⟨u, _, build_writes hu, .inl ⟨nofun, rfl⟩⟩

/-- The bytes a command stores to depend on its inputs only. -/
theorem storesTo_same (i : Instr) {s t : State} (h : SameInputs s t) (x : Word) : storesTo i t x ↔ storesTo i s x := by
  have he : t.eccAddr = s.eccAddr := funext h.eccAddr
  cases i with
  | eccpack c => unfold storesTo; cases pageOfCount c <;> simp [inSpareLayout, h.spareAddr]
  | eccunpack c => unfold storesTo; cases pageOfCount c <;> simp [inWords, he]
  | ecccorr i => simp [storesTo, h.errAt, h.correctAddr]
  | eccpage lb => simp [storesTo, inWords, he, pageCorrected_same lb h]
  | bbcheck lb => simp [storesTo]
  | bbmark lb => simp [storesTo, h.markerAddr]
  | dmabuild lb wr => simp [storesTo, h.descAddr]

/-- What a command that answers a next state has done: it was rejected for alignment, or its operation completed. -/
theorem exec_next (i : Instr) (s t : State) (h : exec i s = .next t) :
    (operandsAligned i s = false ∧ t = (s.noteReads (testedPart s (alignedRegs i))).raiseCmdErr .align) ∨
    (operandsAligned i s = true ∧ ∃ u, opOf i (s.noteReads (readRegs i)) = .ok u ∧ t = u.complete) := by
  rw [exec_eq] at h
  rcases accept_cases i (opOf i) s with ⟨ha, e⟩ | ⟨ha, u, hu, e⟩ | ⟨ha, u, hu, e⟩
  · rw [e] at h; cases h; exact .inl ⟨ha, rfl⟩
  · rw [e] at h; cases h; exact .inr ⟨ha, u, hu, rfl⟩
  · rw [e] at h; cases h


end Sys2Proof.Machine
end

