-- ==== Sys2Proof/Laws/Pages.lean ====
section
/-! SUPPORT. The two page loops of 40_ecc_pack.md said once, for objects that do not overlap, with what they rest on: a
loop rule with an invariant indexed by the pass, and that the layout tables put no two bytes in one place (R100). -/

namespace Sys2Proof.Machine

open Sys2Proof

/-- An aligned command is its operation, after reading the registers R23 marks. -/
theorem exec_aligned (i : Instr) (s : State) (h : operandsAligned i s = true) :
    exec i s = finish (opOf i (s.noteReads (readRegs i))) := by
  rw [exec_eq, accept_aligned _ _ _ h]

/-- Two entries of a layout table differ (R8, R100). -/
theorem layout_inj {c : Config} (hc : c.LayoutsInjective) (lb : PageSize) {e e' : Nat} (he : e < 3 * chunksOf lb)
    (he' : e' < 3 * chunksOf lb) (h : layoutEntry c lb e = layoutEntry c lb e') : e = e' := by
  cases lb with
  | small =>
    simp only [chunksOf] at he he'
    have hn : (c.spLayout.toList.map Fin.val).Nodup := hc.1.map Fin.val_injective
    have hl : (c.spLayout.toList.map Fin.val).length = 6 := by simp
    simp only [layoutEntry] at h
    rw [List.getElem?_eq_getElem (by omega), List.getElem?_eq_getElem (by omega)] at h
    simp only [Option.getD_some] at h
    exact (List.Nodup.getElem_inj_iff hn).mp h
  | large =>
    simp only [chunksOf] at he he'
    have hn : (c.lpLayout.toList.map Fin.val).Nodup := hc.2.map Fin.val_injective
    have hl : (c.lpLayout.toList.map Fin.val).length = 24 := by simp
    simp only [layoutEntry] at h
    rw [List.getElem?_eq_getElem (by omega), List.getElem?_eq_getElem (by omega)] at h
    simp only [Option.getD_some] at h
    exact (List.Nodup.getElem_inj_iff hn).mp h

/-- A layout entry is a spare-area offset. -/
theorem layout_lt (c : Config) (lb : PageSize) (e : Nat) : layoutEntry c lb e < 64 := by
  cases lb with
  | small =>
    simp only [layoutEntry]
    cases h : (c.spLayout.toList.map Fin.val)[e]? with
    | none => simp
    | some x =>
      have := List.mem_of_getElem? h
      simp only [List.mem_map] at this
      obtain ⟨y, -, rfl⟩ := this
      simp; omega
  | large =>
    simp only [layoutEntry]
    cases h : (c.lpLayout.toList.map Fin.val)[e]? with
    | none => simp
    | some x =>
      have := List.mem_of_getElem? h
      simp only [List.mem_map] at this
      obtain ⟨y, -, rfl⟩ := this
      simp

/-- Two layout entries name different spare bytes. -/
theorem spare_inj {s : State} (hc : s.cfg.LayoutsInjective) (lb : PageSize) {e e' : Nat} (he : e < 3 * chunksOf lb)
    (he' : e' < 3 * chunksOf lb) (h : s.spareAddr lb e = s.spareAddr lb e') : e = e' := by
  unfold State.spareAddr at h
  have h1 := layout_lt s.cfg lb e
  have h2 := layout_lt s.cfg lb e'
  exact layout_inj hc lb he he' ((addrAt_inj (by omega) (by omega)).mp h)

/-- A loop over `0 .. n-1` completes, and keeps an invariant of the passes done, if each pass does. -/
theorem forEach_range {f : Nat → State → Except Fault State} {n : Nat} {P : Nat → State → Prop} {s : State}
    (h0 : P 0 s) (hs : ∀ k < n, ∀ u, P k u → ∃ v, f k u = .ok v ∧ P (k+1) v) :
    ∃ t, forEach f (List.range n) s = .ok t ∧ P n t := by
  induction n with
  | zero => exact ⟨s, rfl, h0⟩
  | succ n ih =>
    obtain ⟨t, ht, hp⟩ := ih fun k hk => hs k (by omega)
    obtain ⟨v, hv, hpv⟩ := hs n (by omega) t hp
    refine ⟨v, ?_, hpv⟩
    rw [List.range_succ, forEach_append, ht]
    simp [forEach, hv]

/-- In `u`, the three spare bytes of syndrome `k` hold the syndrome word of `s`, packed (R101, R102). -/
def PackedAt (s u : State) (lb : PageSize) (k : Nat) : Prop :=
  u.peek (s.spareAddr lb (3 * k)) = byteOf (packSyndrome (s.peekWord (s.eccAddr k))) 2 ∧
  u.peek (s.spareAddr lb (3 * k + 1)) = byteOf (packSyndrome (s.peekWord (s.eccAddr k))) 1 ∧
  u.peek (s.spareAddr lb (3 * k + 2)) = byteOf (packSyndrome (s.peekWord (s.eccAddr k))) 0

/-- In `u`, syndrome word `k` is the three spare bytes of `s`, unpacked (R101, R102). -/
def UnpackedAt (s u : State) (lb : PageSize) (k : Nat) : Prop :=
  u.peekWord (s.eccAddr k) = unpackSyndrome (word24 (s.peek (s.spareAddr lb (3 * k)))
    (s.peek (s.spareAddr lb (3 * k + 1))) (s.peek (s.spareAddr lb (3 * k + 2))))

/-- The loop of R103: it completes, changes layout bytes only, and leaves each syndrome packed in its three. -/
theorem packPage_spec (lb : PageSize) (s : State) (hsp : spareAdmitted s lb)
    (hwd : wordsAdmitted s s.eccAddr (chunksOf lb)) (hc : s.cfg.LayoutsInjective)
    (hd : ∀ x, inSpareLayout s lb x → ¬ inWords s.eccAddr (chunksOf lb) x) :
    ∃ t, packPage lb s = .ok t ∧ Writes (inSpareLayout s lb) s t ∧ ∀ k < chunksOf lb, PackedAt s t lb k := by
  unfold packPage
  refine forEach_range (P := fun n u => Writes (inSpareLayout s lb) s u ∧ ∀ k < n, PackedAt s u lb k)
    ⟨Writes.refl _ s, fun k hk => by omega⟩ ?_
  rintro k hk u ⟨hu, hq⟩
  have hv := (packChunk_ok_iff lb k u _).mpr
    ⟨⟨by rw [hu.cfg, hu.eccAddr]; exact hwd k hk, by rw [hu.cfg, hu.spareAddr]; exact hsp _ (by omega),
      by rw [hu.cfg, hu.spareAddr]; exact hsp _ (by omega), by rw [hu.cfg, hu.spareAddr]; exact hsp _ (by omega)⟩, rfl⟩
  refine ⟨_, hv, hu.trans ((packChunk_writes hv).mono fun x hx => ?_), fun j hj => ?_⟩
  · simp only [spareTriple, List.mem_cons, List.not_mem_nil, or_false, hu.spareAddr] at hx
    rcases hx with rfl | rfl | rfl
    · exact ⟨_, by omega, rfl⟩
    · exact ⟨_, by omega, rfl⟩
    · exact ⟨_, by omega, rfl⟩
  have hpw : u.peekWord (u.eccAddr k) = s.peekWord (s.eccAddr k) := by
    rw [hu.eccAddr]
    exact State.peekWord_congr fun x hx => hu.frame x fun hin => hd x hin ⟨k, hk, hx⟩
  have hne : ∀ e e', e < 3 * chunksOf lb → e' < 3 * chunksOf lb → e ≠ e' →
      ¬ (s.spareAddr lb e = s.spareAddr lb e') := fun e e' he he' hn h => hn (spare_inj hc lb he he' h)
  rw [hpw]
  simp only [PackedAt, hu.spareAddr, State.peek_poke]
  by_cases hjk : j = k
  · subst hjk
    simp (disch := omega) only [hne, if_true, if_false, and_self]
  · simp (disch := omega) only [hne, if_false]
    exact hq j (by omega)

/-- The loop of R104: it completes, changes the array's words only, and leaves each syndrome unpacked. -/
theorem unpackPage_spec (lb : PageSize) (s : State) (hsp : spareAdmitted s lb)
    (hwd : wordsAdmitted s s.eccAddr (chunksOf lb))
    (hd : ∀ x, inSpareLayout s lb x → ¬ inWords s.eccAddr (chunksOf lb) x) :
    ∃ t, unpackPage lb s = .ok t ∧ Writes (inWords s.eccAddr (chunksOf lb)) s t ∧
      ∀ k < chunksOf lb, UnpackedAt s t lb k := by
  have hn8 : chunksOf lb ≤ 8 := by cases lb <;> simp [chunksOf]
  unfold unpackPage
  refine forEach_range
    (P := fun n u => Writes (inWords s.eccAddr (chunksOf lb)) s u ∧ ∀ k < n, UnpackedAt s u lb k)
    ⟨Writes.refl _ s, fun k hk => by omega⟩ ?_
  rintro k hk u ⟨hu, hq⟩
  have hv := (unpackChunk_ok_iff lb k u _).mpr
    ⟨⟨by rw [hu.cfg, hu.spareAddr]; exact hsp _ (by omega), by rw [hu.cfg, hu.spareAddr]; exact hsp _ (by omega),
      by rw [hu.cfg, hu.spareAddr]; exact hsp _ (by omega), by rw [hu.cfg, hu.eccAddr]; exact hwd k hk⟩, rfl⟩
  refine ⟨_, hv, hu.trans ((unpackChunk_writes hv).mono fun x hx => ?_), fun j hj => ?_⟩
  · rw [hu.eccAddr] at hx; exact ⟨k, hk, hx⟩
  have hpk : ∀ e < 3 * chunksOf lb, u.peek (s.spareAddr lb e) = s.peek (s.spareAddr lb e) := fun e he =>
    hu.frame _ (hd _ ⟨e, he, rfl⟩)
  simp only [UnpackedAt, hu.spareAddr, hu.eccAddr]
  rw [hpk _ (by omega), hpk _ (by omega), hpk _ (by omega)]
  by_cases hjk : j = k
  · subst hjk; rw [State.peekWord_pokeWord]
  · refine Eq.trans ?_ (hq j (by omega))
    refine State.peekWord_congr fun x hx => State.peek_pokeWord_other _ _ _ _ fun hx' => ?_
    obtain ⟨a, ha, rfl⟩ := (mem_wordBytes _ _).mp hx
    obtain ⟨b, hb, e⟩ := (mem_wordBytes _ _).mp hx'
    simp only [State.eccAddr, addrAt_addrAt] at e
    rw [addrAt_inj (by omega) (by omega)] at e
    omega

end Sys2Proof.Machine
end

