-- ==== Sys2Proof/Laws/PerInstr.lean ====
section
/-! SUPPORT. The family `Encoding` of statements about each command as a word: a well-formed command's word lies in
the row of its opcode (30_encoding.md rule R80). One lemma per constructor. -/

namespace Sys2Proof.Laws.Encoding

open Sys2Proof

/-- The word of a well-formed command has the fixed bits of its row of R80, so every reserved bit is 0. -/
def Statement (i : Instr) : Prop := i.WellFormed → encode i &&& i.opcode.mask = i.opcode.pattern

/-- An immediate below 256 reaches bits 15:8 only. -/
theorem immBits_masked (imm : Nat) (h : imm < 256) : immBits imm &&& 0xFFFF00FF = 0 := by
  have : ∀ n : Fin 256, immBits n.val &&& 0xFFFF00FF = 0 := by decide +kernel
  exact this ⟨imm, h⟩

theorem ci_masked (imm : Nat) (h : imm < 256) (o : Word) (ho : o &&& 0xFFFF00FF = o) :
    (immBits imm ||| o) &&& 0xFFFF00FF = o := by
  have e : (immBits imm ||| o) &&& 0xFFFF00FF = (immBits imm &&& 0xFFFF00FF) ||| (o &&& 0xFFFF00FF) := by
    apply BitVec.eq_of_getLsbD_eq
    intro j hj
    simp only [BitVec.getLsbD_and, BitVec.getLsbD_or, Bool.and_or_distrib_right]
  rw [e, immBits_masked imm h, ho]
  simp

theorem eccpack (count : Nat) : Statement (.eccpack count) := fun h => ci_masked count h 1 (by decide)
theorem eccunpack (count : Nat) : Statement (.eccunpack count) := fun h => ci_masked count h 2 (by decide)
theorem ecccorr (idx : Nat) : Statement (.ecccorr idx) := fun h => ci_masked idx h 3 (by decide)
theorem eccpage (lb : PageSize) : Statement (.eccpage lb) := fun _ => by cases lb <;> decide
theorem bbcheck (lb : PageSize) : Statement (.bbcheck lb) := fun _ => by cases lb <;> decide
theorem bbmark (lb : PageSize) : Statement (.bbmark lb) := fun _ => by cases lb <;> decide
theorem dmabuild (lb : PageSize) (wr : Direction) : Statement (.dmabuild lb wr) := fun _ => by
  cases lb <;> cases wr <;> decide

end Sys2Proof.Laws.Encoding
end

