-- ==== Sys2Proof/Tests/Slice0.lean ====
section
/-! SUPPORT. The model's own tests. Every expected value is taken from 95_test_vectors.md (its id stands in the
docstring) or written out from the encoding and layout rules; each test is about one step or one decoding. Last come
the witnesses: for each statement with hypotheses, a state and operands that meet them together, clause by clause. -/

namespace Sys2Proof.Tests

open Sys2Proof Sys2Proof.Machine Sys2Proof.Claims

/-! ### Helpers -/

/-- The next state of an outcome. -/
def nextOf : Host.Outcome State Fault Refusal → Option State
  | .next t => some t
  | .fault _ => none
  | .refused _ => none

/-- The operand registers of 95_test_vectors.md V2 and V4. -/
def vectorOperands : OperandFile where
  sparePtr := 0x08001000
  eccPtr := 0x08001100
  genPtr := 0x08001140
  bufPtr := 0x08002000
  descPtr := 0x08003000
  dataregPtr := 0x20020038
  eccregPtr := 0x20020034

/-- The machine after reset with those registers written by the host. -/
def base : State := { State.reset with operands := vectorOperands, unwritten := [.result, .chunkstat] }

/-- `base` with one operand register holding another value. -/
def baseWith (r : OperandReg) (v : Word) : State := { base with operands := base.operands.set r v }

/-- `RESULT` and `STATUS` after an outcome. -/
def resultStatus (o : Host.Outcome State Fault Refusal) : Option (Word × Word) :=
  (nextOf o).map fun t => (t.result, t.status)

/-- Bytes of memory from `a` on after an outcome. -/
def bytesAt (o : Host.Outcome State Fault Refusal) (a : Word) (n : Nat) : Option (List Byte) :=
  (nextOf o).map fun t => (List.range n).map fun j => t.peek (addrAt a j)

/-- Words of memory from `a` on after an outcome. -/
def wordsAt (o : Host.Outcome State Fault Refusal) (a : Word) (n : Nat) : Option (List Word) :=
  (nextOf o).map fun t => (List.range n).map fun j => t.peekWord (addrAt a (4 * j))

/-! ### Well-formedness: an ill-formed term for each check -/

theorem test_imm_in_range : (Instr.eccpack 255).WellFormed := by decide
theorem test_eccpack_256_ill_formed : ¬ (Instr.eccpack 256).WellFormed := by decide
theorem test_eccunpack_256_ill_formed : ¬ (Instr.eccunpack 256).WellFormed := by decide
theorem test_ecccorr_256_ill_formed : ¬ (Instr.ecccorr 256).WellFormed := by decide
theorem test_default_config_well_formed : defaultConfig.WellFormed := by decide
theorem test_repeated_small_layout_ill_formed :
    ¬ { defaultConfig with spLayout := #v[10, 10, 12, 13, 14, 15] }.WellFormed := by decide
theorem test_repeated_large_layout_ill_formed :
    ¬ { defaultConfig with lpLayout := Vector.replicate 24 40 }.WellFormed := by decide
theorem test_equal_codes_ill_formed : ¬ { defaultConfig with eccAreaErr := 0 }.WellFormed := by decide
theorem test_small_marker_in_layout_ill_formed : ¬ { defaultConfig with sbBbOffs := 10 }.WellFormed := by decide
theorem test_large_marker_in_layout_ill_formed : ¬ { defaultConfig with lbBbOffs := 40 }.WellFormed := by decide
theorem test_zero_control_words_ill_formed :
    ¬ { defaultConfig with ctrl := ⟨0, 0, 0, 0, 0, 0, 0⟩ }.WellFormed := by decide
/-- R150, column transfer -/
theorem test_control_word_sizes :
    [0x0A489040, 0x05489040, 0x02480001, 0x8A489004, 0x85489010].map ctrlBytes =
      [some 256, some 256, some 4, some 16, some 64] := by decide
theorem test_small_capacity_ill_formed : ¬ { defaultConfig with numOfDmaDesc := 16 }.WellFormed := by decide

/-! ### Decoding, words written out bit by bit from R77 -/

theorem test_decode_eccpack : decode 0b00000000000000000000001000000001 = .legal (.eccpack 2) := by decide
theorem test_decode_eccunpack : decode 0b00000000000000000001000000000010 = .legal (.eccunpack 16) := by decide
theorem test_decode_ecccorr : decode 0b00000000000000001111111100000011 = .legal (.ecccorr 255) := by decide
theorem test_decode_eccpage : decode 0b00000000000000000000000000010100 = .legal (.eccpage .large) := by decide
theorem test_decode_bbcheck : decode 0b00000000000000000000000000000101 = .legal (.bbcheck .small) := by decide
theorem test_decode_bbmark : decode 0b00000000000000000000000000010110 = .legal (.bbmark .large) := by decide
theorem test_decode_dmabuild :
    decode 0b00000000000000000000000000100111 = .legal (.dmabuild .small .write) := by decide
/-- V5.1, V5.2, V5.3, V5.4 -/
theorem test_decode_illegal_opcodes :
    [0x00000000, 0xFFFFFFFF, 0x00000008, 0x0000000F, 0x00000108].map decode = List.replicate 5 .illop := by decide
/-- V5.6 to V5.9, V5.14, V4.7 -/
theorem test_decode_reserved_fields :
    [0x00000211, 0x00000221, 0x00000241, 0x00000281, 0x00010201, 0x00000034, 0x00000047, 0x00000107,
      0x80000007].map decode = List.replicate 9 .rsvd := by decide
theorem test_decodeTableWord_row : decodeTableWord 32 0x00000037 = some (.dmabuild .large .write) := by decide

/-! ### ECCPACK and ECCUNPACK (V1) -/

/-- V1.7 and V1.12, the transform alone -/
theorem test_pack_transform :
    packSyndrome 0x00123456 = 0xB72EA7 ∧ packSyndrome 0xFFFFFFFF = 0x000003 ∧ packSyndrome 0x00000001 = 0xFFFFFB := by
  decide
/-- V1.18 and V1.15 -/
theorem test_unpack_transform :
    unpackSyndrome (word24 0x12 0x34 0x56) = 0x003B72EA ∧ unpackSyndrome (word24 0 0 0) = 0x003FFFFF := by decide

/-- R103's worked example -/
def packStart : State := (base.pokeWord 0x08001100 0x00123456).pokeWord 0x08001104 0x003FFFFF

theorem test_eccpack_small :
    bytesAt (exec (.eccpack 2) packStart) 0x0800100A 6 = some [0xB7, 0x2E, 0xA7, 0x00, 0x00, 0x03] ∧
    resultStatus (exec (.eccpack 2) packStart) = some (1, 1) := by decide
/-- V1.22 -/
theorem test_eccpack_invalid_count : resultStatus (exec (.eccpack 3) packStart) = some (0, 1) := by decide
/-- R104's worked example -/
theorem test_eccunpack_small :
    wordsAt (exec (.eccunpack 2) (base.pokeBytes 0x0800100A [0xB7, 0x2E, 0xA7, 0xFF, 0xFF, 0xFF])) 0x08001100 2 =
      some [0x00123456, 0x00000000] := by decide
/-- V1.24 -/
theorem test_eccunpack_misaligned :
    exec (.eccunpack 2) (baseWith .eccPtr 0x08001102) =
      .next { baseWith .eccPtr 0x08001102 with status := 0x00000032 } := by rfl

/-! ### ECCCORR and ECCPAGE (V2) -/

/-- V2.21 -/
theorem test_ecccorr_flips :
    bytesAt (exec (.ecccorr 0) (base.pokeWord 0x08001140 0x0019A65A)) 0x0800205A 1 = some [0x08] ∧
    resultStatus (exec (.ecccorr 0) (base.pokeWord 0x08001140 0x0019A65A)) = some (1, 1) := by decide
/-- V2.25: the chunk base wraps; V2.11: bits 31:22 count -/
theorem test_ecccorr_wraps :
    bytesAt (exec (.ecccorr 1) ((baseWith .bufPtr 0xFFFFFF00).pokeWord 0x08001104 0x00155555)) 0x00000000 1 =
      some [0x01] ∧
    bitOff defaultConfig 0xFFE00000 = 0 ∧ byteOff defaultConfig 0xFFE00000 = 128 := by decide
/-- V2.13 to V2.20: the thresholds -/
theorem test_classify_thresholds :
    [0x00000000, 0x00000400, 0x80000000, 0x00000003, 0x00155554, 0x00155555, 0x00155557, 0xFFFFFFFF].map classifyErr =
      [.noErr, .areaErr, .areaErr, .notCorrectable, .notCorrectable, .corrected, .notCorrectable, .notCorrectable] := by
  decide

/-- The spare image all 0xFF, small-block (V2.33). -/
def pageStart33 : State :=
  ((base.pokeBytes 0x08001000 (List.replicate 16 0xFF)).pokeWord 0x08001140 0x00155555).pokeWord 0x08001144 0x00000003

/-- V2.33 -/
theorem test_eccpage_small_fails_and_corrects :
    (nextOf (exec (.eccpage .small) pageStart33)).map (fun t => (t.chunkstat, t.result, t.peek 0x08002000)) =
      some (0x0000000D, 0xFFFFFFFF, 0x01) := by decide
/-- V2.35, both settings of `LB_AREA_ERR_FAILS` -/
theorem test_page_fails_large :
    pageFails defaultConfig .large 2 = false ∧ pageFails { defaultConfig with lbAreaErrFails := true } .large 2 = true ∧
    pageFails defaultConfig .small 2 = true := by decide
/-- R127, R128: the reference generator on V2's chunks, and its closed form -/
theorem test_errOfFlip_vectors :
    errOfFlip 0 0 = 0x00155555 ∧ errOfFlip 255 7 = 0x002AAAAA ∧ errOfFlip 90 3 = 0x0019A65A := by decide
theorem test_eccGen_vector : eccGen (fun B => if B = 0 then 0x01 else if B = 90 then 0x08 else 0) = 0x000CF30F := by
  decide +kernel

/-! ### BBCHECK and BBMARK (V3) -/

/-- V3.2 and V3.1 -/
theorem test_bbcheck_small :
    resultStatus (exec (.bbcheck .small) (base.poke 0x08001005 0xFE)) = some (1, 1) ∧
    resultStatus (exec (.bbcheck .small) (base.poke 0x08001005 0xFF)) = some (0, 1) := by decide
/-- V3.10 -/
theorem test_bbcheck_odd_pointer :
    resultStatus (exec (.bbcheck .small) ((baseWith .sparePtr 0x08001003).poke 0x08001008 0xFE)) = some (1, 1) := by
  decide
/-- V3.7 and V3.8 -/
theorem test_bbmark :
    bytesAt (exec (.bbmark .small) base) 0x08001004 3 = some [0x00, 0xFE, 0x00] ∧
    bytesAt (exec (.bbmark .large) base) 0x08001000 2 = some [0xFE, 0x00] := by decide
/-- V6.5 -/
theorem test_bbcheck_not_admitted :
    exec (.bbcheck .small) { base with cfg := { base.cfg with admitted := [⟨0x08001000, 5⟩] } } =
      .fault (.memFault 0x08001005) := by rfl

/-! ### DMABUILD (V4) -/

/-- V4.2 -/
theorem test_dmabuild_small_write :
    wordsAt (exec (.dmabuild .small .write) base) 0x08003000 20 = some
      [0x08002000, 0x20020038, 0x08003010, 0x05489040, 0x20020034, 0x08001140, 0x08003020, 0x02480001,
       0x08002100, 0x20020038, 0x08003030, 0x05489040, 0x20020034, 0x08001144, 0x08003040, 0x02480001,
       0x08001000, 0x20020038, 0x00000000, 0x85489004] := by decide +kernel
/-- V4.3, the last two descriptors -/
theorem test_dmabuild_large_read_end :
    wordsAt (exec (.dmabuild .large .read) base) 0x080030F0 8 = some
      [0x20020034, 0x0800115C, 0x08003100, 0x02480001, 0x20020038, 0x08001000, 0x00000000, 0x8A489010] := by
  decide +kernel

/-! ### The window, rejection, reset (V5, V6) -/

/-- V5.10: the reserved-field test precedes the alignment test -/
theorem test_rsvd_before_align :
    writeCmd 0x00000211 (baseWith .eccPtr 0x08001101) =
      .next { baseWith .eccPtr 0x08001101 with cmd := 0x00000211, status := 0x00000022 } := by rfl
/-- V5.12 -/
theorem test_two_misaligned :
    writeCmd 0x00000014 { base with operands := { vectorOperands with eccPtr := 1, genPtr := 2 } } =
      .next { base with operands := { vectorOperands with eccPtr := 1, genPtr := 2 }, cmd := 0x00000014, status := 0x00000032 } := by
  rfl
/-- V6.4 -/
theorem test_illegal_word_reads_no_operand :
    (nextOf (step (State.reset.withFetchWord 32 0))).map (fun t => (t.status, t.mark)) = some (0x12, none) := by decide
/-- V6.3, with the mark in the place of the stop (log 3) -/
theorem test_unwritten_operand_marks :
    (nextOf (step (State.reset.withFetchWord 32 5))).map (fun t => (t.status, t.mark)) =
      some (1, some (.unwrittenOperand .sparePtr)) := by decide
/-- V6.2, with the mark in the place of the stop (log 3) -/
theorem test_unwritten_read_marks :
    (nextOf (hostRead 0x08 32 State.reset)).map (fun t => (t.hostData, t.mark)) =
      some (some 0, some (.unwrittenRead .result)) := by decide
/-- V6.6 and V6.7 -/
theorem test_read_only_and_reserved :
    hostWrite 0x04 32 0xFFFFFFFF base = .next base ∧ hostWrite 0x2C 32 0xFFFFFFFF base = .next base ∧
    (nextOf (hostRead 0x2C 32 base)).map (·.hostData) = some (some 0) := by
  exact ⟨rfl, rfl, rfl⟩
/-- R21, R174 -/
theorem test_bad_host_access :
    hostRead 0x04 16 base = .fault (.badHostAccess 0x04 16) ∧ hostWrite 0x12 32 0 base = .fault (.badHostAccess 0x12 32) := by
  exact ⟨rfl, rfl⟩
theorem test_reset_invariant : State.reset.status = 0 ∧ State.reset.cmd = 0 ∧ Memory.wf State.reset.mem = true := by decide
/-- R54: the host reads a word byte by byte, least significant first; R58: past the top of memory -/
theorem test_host_load :
    (nextOf (busEvent (.hostLoad 0x08001100 4) packStart)).map (·.hostBytes) = some [0x56, 0x34, 0x12, 0x00] ∧
    (nextOf (busEvent (.hostLoad 0xFFFFFFFF 2) ((base.poke 0xFFFFFFFF 1).poke 0 2))).map (·.hostBytes) =
      some [1, 2] := by decide
/-- R51: the block never reaches its own window -/
theorem test_window_not_admitted :
    admits defaultConfig 0x4000003F = false ∧ admits defaultConfig 0x40000040 = true := by decide
/-- R83, R84 -/
theorem test_script_pseudo :
    (ScriptLine.eccpackPage .large).expand = [.hostWrite 0x00 32 0x00000801] ∧
    (ScriptLine.wr (.operand .eccregPtr) 7).expand = [.hostWrite 0x28 32 7] := by decide

/-! ### Witnesses of the statements' hypotheses -/

/-- Every command, at the ends of its operands' ranges. -/
def allForms : List Instr :=
  [.eccpack 2, .eccpack 8, .eccpack 0, .eccunpack 2, .eccunpack 8, .eccunpack 255, .ecccorr 0, .ecccorr 255,
   .eccpage .small, .eccpage .large, .bbcheck .small, .bbcheck .large, .bbmark .small, .bbmark .large,
   .dmabuild .small .read, .dmabuild .small .write, .dmabuild .large .read, .dmabuild .large .write]

/-- Both word bases of ECCCORR and ECCPAGE, and every other base, one byte off. -/
def oddOperands : OperandFile where
  sparePtr := 0x08001001
  eccPtr := 0x08001101
  genPtr := 0x08001141
  bufPtr := 0x08002001
  descPtr := 0x08003001
  dataregPtr := 0x20020039
  eccregPtr := 0x20020035

/-- `base` with those registers. -/
def odd : State := { base with operands := oddOperands }

/-- `base` with one pending event. -/
def pendingOf (e : BusEvent) : State := base.setPending [e]

/-- `base` with an erased spare image. -/
def erased : State := base.pokeBytes 0x08001000 (List.replicate 64 0xFF)

/-- Only the first 16 bytes of the spare image are admitted. -/
def narrow : State := { base with cfg := { base.cfg with admitted := [⟨0x08001000, 16⟩] } }

/-- Only the spare image and the stored syndromes are admitted. -/
def noGen : State := { base with cfg := { base.cfg with admitted := [⟨0x08001000, 0x108⟩] } }

/-- CommandWordsAreClassified: the ends of each class. -/
theorem witness_word_classes :
    illegalOpcode 0x00000000 ∧ illegalOpcode 0x00000008 ∧ illegalOpcode 0xFFFFFFFF ∧
    (¬ illegalOpcode 0x00000011 ∧ reservedFieldSet 0x00000011) ∧
    (¬ illegalOpcode 0x80000007 ∧ reservedFieldSet 0x80000007) ∧
    (¬ illegalOpcode 0x00000001 ∧ ¬ reservedFieldSet 0x00000001) ∧
    (¬ illegalOpcode 0x00000037 ∧ ¬ reservedFieldSet 0x00000037) := by
  refine ⟨?_, ?_, ?_, ⟨?_, ?_⟩, ⟨?_, ?_⟩, ⟨?_, ?_⟩, ⟨?_, ?_⟩⟩ <;> decide

/-- DecodeEncodeRoundTrip and LegalWordsAreEncodings. -/
theorem witness_well_formed :
    (Instr.ecccorr 0).WellFormed ∧ (Instr.ecccorr 255).WellFormed ∧ decode 0x0000FF03 = .legal (.ecccorr 255) := by decide

/-- StepRunsDecodedCommand, both clauses. -/
theorem witness_step_runs :
    (pendingOf (.hostWrite 0x00 32 0x15)).pending = .hostWrite 0x00 32 0x15 :: [] ∧
    decode 0x15 = .legal (.bbcheck .large) ∧ decodeTableWord 32 0x15 = some (.bbcheck .large) := by decide

/-- Every form answers a next state at `base` (the statements about `exec i s = .next t`, with an aligned base). -/
theorem witness_exec_next : ∀ i ∈ allForms, (nextOf (exec i base)).isSome = true := by decide +kernel

/-- Every form has its word bases aligned at `base`; MisalignedBaseIsRejected (3) to (5) ask the same. -/
theorem witness_aligned (i : Instr) : basesAligned i base := by
  cases i <;> simp only [basesAligned] <;> decide

/-- Every form with a word base is misaligned at `odd`, and there answers a next state. -/
theorem witness_misaligned :
    ¬ basesAligned (.eccpack 2) odd ∧ ¬ basesAligned (.eccunpack 2) odd ∧ ¬ basesAligned (.ecccorr 0) odd ∧
    ¬ basesAligned (.eccpage .small) odd ∧ ¬ basesAligned (.dmabuild .large .write) odd ∧
    ∀ i ∈ allForms, (nextOf (exec i odd)).isSome = true := by
  simp only [basesAligned]; decide +kernel

/-- IdleStepChangesNothing. -/
theorem witness_idle : State.reset.pending = [] := rfl

/-- RejectionChangesOnlyCmdAndStatus and CmdHoldsTheWordWritten: the three rejections, and an acceptance. -/
theorem witness_write_cmd :
    (decode 0x00000010 = .illop ∧ (nextOf (writeCmd 0x00000010 odd)).isSome = true) ∧
    (decode 0x00000024 = .rsvd ∧ (nextOf (writeCmd 0x00000024 odd)).isSome = true) ∧
    (decode 0x00000001 = .legal (.eccpack 0) ∧ ¬ basesAligned (.eccpack 0) odd ∧
      (nextOf (writeCmd 0x00000001 odd)).isSome = true) ∧
    (decode 0x00000005 = .legal (.bbcheck .small) ∧ (nextOf (writeCmd 0x00000005 odd)).isSome = true) := by
  simp only [basesAligned]
  refine ⟨⟨?_, ?_⟩, ⟨?_, ?_⟩, ⟨?_, ?_, ?_⟩, ?_, ?_⟩ <;> decide

/-- The statements about a step whose event is a command, is neither a command nor a reset, or is a reset. -/
theorem witness_steps :
    (nextOf (step (pendingOf (.hostWrite 0x00 32 0x05)))).isSome = true ∧
    (nextOf (step (pendingOf (.hostWrite 0x28 32 0xFFFFFFFF)))).isSome = true ∧
    (nextOf (step (pendingOf (.hostRead 0x3C 32)))).isSome = true ∧
    (nextOf (step (pendingOf (.envWrite 0xFFFFFFFF [1, 2])))).isSome = true ∧
    (nextOf (step (pendingOf .platformReset))).isSome = true ∧
    base.status ∈ legalStatus := by decide

/-- AdmittedCommandCompletes, and the statements that ask `accessesAdmitted`: one form of each command. -/
theorem witness_admitted :
    accessesAdmitted (.eccpack 8) base ∧ accessesAdmitted (.eccunpack 2) base ∧ accessesAdmitted (.ecccorr 255) base ∧
    accessesAdmitted (.eccpage .small) base ∧ accessesAdmitted (.bbcheck .large) base ∧
    accessesAdmitted (.bbmark .small) base ∧ accessesAdmitted (.dmabuild .large .write) base :=
  ⟨show spareAdmitted base .large ∧ wordsAdmitted base base.eccAddr 8 by decide +kernel,
   show spareAdmitted base .small ∧ wordsAdmitted base base.eccAddr 2 by decide +kernel,
   by simp only [accessesAdmitted]; decide +kernel,
   show spareAdmitted base .small ∧ wordsAdmitted base base.eccAddr 2 ∧ wordsAdmitted base base.genAddr 2 ∧
     ∀ j < 512, admits base.cfg (addrAt (base.reg .bufPtr) j) = true by decide +kernel,
   show admits base.cfg (base.markerAddr .large) = true by decide,
   show admits base.cfg (base.markerAddr .small) = true by decide,
   show ∀ i < 17, ∀ j < 4, admitsWord base.cfg (base.descAddr i j) = true by decide +kernel⟩

/-- CommandStopsOnlyOnUnadmittedByte: a byte past the only admitted ones. -/
theorem witness_fault : exec (.eccpack 2) narrow = .fault (.memFault 0x08001100) := by rfl

/-- CommandFaultsAtFirstUnadmittedAccess and EccpageFaultsWhereItsPartsFault: the first access not admitted, a command
with none, and a page whose unpack completes and whose first correction stops. -/
theorem witness_first_fault :
    (accessesOf (.eccpack 2) narrow).find? (fun x => decide (¬ accessAdmitted narrow.cfg x)) = some (0x08001100, 4) ∧
    (accessesOf (.eccpage .small) narrow).find? (fun x => decide (¬ accessAdmitted narrow.cfg x)) =
      some (0x08001100, 4) ∧
    (∀ x ∈ accessesOf (.bbcheck .small) narrow, accessAdmitted narrow.cfg x) ∧
    ((nextOf (exec (.eccunpack 2) noGen)).map fun u => correctionsFault (List.range 2) u) =
      some (some (.memFault 0x08001140)) := by
  refine ⟨?_, ?_, ?_, ?_⟩ <;> decide +kernel

/-- AdmissionIsTheMapOutsideTheWindow: the window's last byte, and the first after it. -/
theorem witness_outside_window :
    (63 : Nat) < 64 ∧ ∀ k < 64, addrAt defaultConfig.regBase 64 ≠ addrAt defaultConfig.regBase k := by decide +kernel

/-- MarkIsKeptForTheRun: a marked state that steps. -/
theorem witness_marked_step :
    (State.reset.markRun (.unwrittenRead .result)).mark = some (.unwrittenRead .result) ∧
    (nextOf (step ((State.reset.markRun (.unwrittenRead .result)).withFetchWord 32 5))).isSome = true := by decide

/-- SyndromesAreDeposited. -/
theorem witness_deposit :
    (pendingOf (depositSyndromes (fun _ => 5) .small base)).pending =
      [depositSyndromes (fun _ => 5) .small (pendingOf (depositSyndromes (fun _ => 5) .small base))] := rfl

/-- ChainMovesThePage. -/
theorem witness_sizes : base.cfg.ctrl.KeepsSizes := by decide

/-- CommandReadsOnlyItsRegisters: another register file that agrees on the registers BBCHECK reads. -/
theorem witness_other_registers :
    (∀ r ∈ registersOf (.bbcheck .small), (oddOperands.set .sparePtr 0x08001000).get r = base.reg r) ∧
    oddOperands.set .sparePtr 0x08001000 ≠ base.operands := by decide

/-- After reset, with only GEN_PTR written, misaligned. -/
def halfWritten : State := State.reset.setOperand .genPtr 0x08001141

/-- UnwrittenOperandMarksTheRun, rejected (log 22). -/
theorem witness_marked_rejection :
    halfWritten.mark = none ∧ ¬ basesAligned (.ecccorr 0) halfWritten ∧
    (nextOf (exec (.ecccorr 0) halfWritten)).map (fun t => (t.status, t.mark)) =
      some (0x00000032, some (.unwrittenOperand .eccPtr)) := by
  simp only [basesAligned]; decide

/-- UnwrittenOperandMarksTheRun: no mark and a register not written, and a run already marked. -/
theorem witness_marks :
    State.reset.mark = none ∧ .operand .sparePtr ∈ State.reset.unwritten ∧ basesAligned (.bbcheck .small) State.reset ∧
    (nextOf (exec (.bbcheck .small) State.reset)).isSome = true ∧
    (nextOf (exec (.bbcheck .small) (State.reset.markRun (.unwrittenRead .result)))).map (·.mark) =
      some (some (.unwrittenRead .result)) := by
  simp only [basesAligned]; decide

/-- StepKeepsInvariant: a state with a command pending meets the invariant, and steps. -/
theorem witness_invariant :
    (pendingOf (.hostWrite 0x00 32 0x17)).Inv ∧
    (nextOf (step (pendingOf (.hostWrite 0x00 32 0x17)))).isSome = true :=
  ⟨⟨by decide, by decide, by decide, by decide, by decide, by decide⟩, by decide +kernel⟩

/-- WindowOffsets and WindowAccessRules: the ends of the reserved offsets, and the refused accesses. -/
theorem witness_window :
    (0x2C ≤ (0x2C : BitVec 6).toNat ∧ (0x2C : BitVec 6).toNat % 4 = 0) ∧
    (0x2C ≤ (0x3C : BitVec 6).toNat ∧ (0x3C : BitVec 6).toNat % 4 = 0) ∧
    (16 : Nat) ≠ 32 ∧ (0x12 : BitVec 6).toNat % 4 ≠ 0 := by decide

/-- OperandRegistersHoldWhatTheHostWrote: an operand write, and an event that is none. -/
theorem witness_operand_write :
    (pendingOf (.hostWrite 0x10 32 7)).pending = .hostWrite (windowOffset (.operand .sparePtr)) 32 7 :: [] ∧
    ∀ r, (pendingOf (.hostRead 0x10 32)).pending ≠ .hostWrite (windowOffset (.operand r)) 32 7 :: [] :=
  ⟨by decide, nofun⟩

/-- HostReadsSharedMemory: a read across the top of memory, and a read of a word. -/
theorem witness_host_load :
    (pendingOf (.hostLoad 0xFFFFFFFF 2)).pending = [.hostLoad 0xFFFFFFFF 2] ∧
    (pendingOf (.hostLoad 0x08001100 4)).pending = [.hostLoad 0x08001100 4] := by decide

/-- EnvironmentWritesLand: bytes that wrap past the top of memory. -/
theorem witness_env_write :
    [(1 : Byte), 2].length ≤ 2 ^ 32 ∧
    (pendingOf (.envWrite 0xFFFFFFFF [1, 2])).pending = .envWrite 0xFFFFFFFF [1, 2] :: [] ∧
    (nextOf (step (pendingOf (.envWrite 0xFFFFFFFF [1, 2])))).map (fun t => (t.peek 0xFFFFFFFF, t.peek 0)) =
      some (1, 2) := by decide

/-- MemReadIsLittleEndian and MemWriteChangesOnlyItsBytes: the last admitted word, and one a byte further. -/
theorem witness_access :
    admits narrow.cfg 0x0800100F = true ∧ admits narrow.cfg 0x08001010 = false ∧
    (∀ j < 4, admits narrow.cfg (addrAt 0x0800100C j) = true) ∧
    (∃ j < 4, admits narrow.cfg (addrAt 0x0800100D j) = false) := by decide

/-- SyndromeTransformIsInverse: the ends of its ranges. -/
theorem witness_transform : (21 : Nat) < 22 ∧ (0x00FFFFFF : Word).toNat < 2 ^ 24 := by decide

/-- The spare image and the syndrome array of `base` do not overlap (EccpackPacksEverySyndrome and the three laws
after it), for either page size. -/
theorem witness_pack_disjoint :
    (validCount 2 .small ∧ ∀ x, inSpareLayout base .small x → ¬ inWords base.eccAddr 2 x) ∧
    (validCount 8 .large ∧ ∀ x, inSpareLayout base .large x → ¬ inWords base.eccAddr 8 x) ∧
    base.cfg.WellFormed := by
  have h1 : ∀ e < 6, ¬ inWords base.eccAddr 2 (base.spareAddr .small e) := by decide +kernel
  have h2 : ∀ e < 24, ¬ inWords base.eccAddr 8 (base.spareAddr .large e) := by decide +kernel
  refine ⟨⟨by decide, ?_⟩, ⟨by decide, ?_⟩, by decide⟩
  · rintro x ⟨e, he, rfl⟩; exact h1 e he
  · rintro x ⟨e, he, rfl⟩; exact h2 e he

/-- PackThenUnpackReproducesSyndromes, large page: a second array that meets what it asks of one. -/
theorem witness_second_array_large :
    basesAligned (.eccunpack 8) (base.setOperand .eccPtr 0x08001200) ∧
    accessesAdmitted (.eccunpack 8) (base.setOperand .eccPtr 0x08001200) ∧
    ∀ x, inSpareLayout base .large x → ¬ inWords (base.setOperand .eccPtr 0x08001200).eccAddr 8 x := by
  have h : ∀ e < 24, ¬ inWords (base.setOperand .eccPtr 0x08001200).eccAddr 8 (base.spareAddr .large e) := by
    decide +kernel
  refine ⟨by simp only [basesAligned]; decide, ?_, ?_⟩
  · show spareAdmitted (base.setOperand .eccPtr 0x08001200) .large ∧
      wordsAdmitted (base.setOperand .eccPtr 0x08001200) (base.setOperand .eccPtr 0x08001200).eccAddr 8
    decide +kernel
  rintro x ⟨e, he, rfl⟩; exact h e he

/-- PackThenUnpackReproducesSyndromes: a second array that meets what it asks of one. -/
theorem witness_second_array :
    basesAligned (.eccunpack 2) (base.setOperand .eccPtr 0x08001200) ∧
    accessesAdmitted (.eccunpack 2) (base.setOperand .eccPtr 0x08001200) ∧
    ∀ x, inSpareLayout base .small x → ¬ inWords (base.setOperand .eccPtr 0x08001200).eccAddr 2 x := by
  have h : ∀ e < 6, ¬ inWords (base.setOperand .eccPtr 0x08001200).eccAddr 2 (base.spareAddr .small e) := by
    decide +kernel
  refine ⟨by simp only [basesAligned]; decide, ?_, ?_⟩
  · show spareAdmitted (base.setOperand .eccPtr 0x08001200) .small ∧
      wordsAdmitted (base.setOperand .eccPtr 0x08001200) (base.setOperand .eccPtr 0x08001200).eccAddr 2
    decide +kernel
  rintro x ⟨e, he, rfl⟩; exact h e he

/-- InvalidCountGivesZero: a count beside each valid one. -/
theorem witness_invalid_count :
    ((1 : Nat) ≠ 2 ∧ (1 : Nat) ≠ 8) ∧ ((9 : Nat) ≠ 2 ∧ (9 : Nat) ≠ 8) ∧ aligned4 (base.reg .eccPtr) := by decide

/-- `base` with a generated syndrome for chunk 0. -/
def errState (e : Word) : State := base.pokeWord 0x08001140 e

/-- In `errState e`, `err` of chunk 0 is `e`. -/
theorem errAt_errState (e : Word) : errAt (errState e) 0 = e := by
  have hg : (errState e).peekWord 0x08001140 = e := State.peekWord_pokeWord _ _ _
  have he : (errState e).peekWord 0x08001100 = 0 := by
    unfold errState
    rw [State.peekWord_congr (s := base)]
    · decide
    · intro x hx
      refine State.peek_pokeWord_other _ _ _ _ ?_
      simp only [wordBytes, List.mem_cons, List.not_mem_nil, or_false] at hx
      rcases hx with rfl | rfl | rfl | rfl <;> decide
  show (errState e).peekWord 0x08001100 ^^^ (errState e).peekWord 0x08001140 = e
  rw [he, hg]; simp

/-- EcccorrFollowsDecisionTable and EcccorrTwiceUndoesTheCorrection: each row, and its neighbours. -/
theorem witness_decision_table :
    [0x00000000, 0x80000000, 0x00155555].map (fun e => onesOf (errAt (errState e) 0)) = [0, 1, 11] ∧
    [0x00000003, 0x00155554, 0x00155557, 0xFFFFFFFF].map (fun e => onesOf (errAt (errState e) 0)) = [2, 10, 12, 32] := by
  simp only [errAt_errState]
  decide +kernel

/-- The correcting row: aligned, admitted, and the corrected byte outside the two syndrome words. -/
theorem witness_correcting :
    basesAligned (.ecccorr 0) (errState 0x00155555) ∧ accessesAdmitted (.ecccorr 0) (errState 0x00155555) ∧
    (errState 0x00155555).correctAddr 0 0x00155555 ∉ wordBytes ((errState 0x00155555).eccAddr 0) ∧
    (errState 0x00155555).correctAddr 0 0x00155555 ∉ wordBytes ((errState 0x00155555).genAddr 0) := by
  simp only [basesAligned, accessesAdmitted, errAt_errState]
  refine ⟨?_, ?_, ?_, ?_⟩ <;> decide

/-- A chunk of zeros read back with its first bit flipped, and the syndrome generated from it. -/
def flipState : State := (errState 0x00155555).poke 0x08002000 0x01

/-- SyndromeDifferenceOfOneFlip and SingleBitFlipIsRecovered: a chunk of zeros read back with its first bit flipped. -/
theorem witness_single_flip :
    basesAligned (.ecccorr 0) flipState ∧ accessesAdmitted (.ecccorr 0) flipState ∧
    flipState.cfg.bitSel = defaultConfig.bitSel ∧ flipState.cfg.byteSel = defaultConfig.byteSel ∧
    flipState.peekWord (flipState.eccAddr 0) = syndromeWord eccGen (fun _ => 0) ∧
    flipState.peekWord (flipState.genAddr 0) = syndromeWord eccGen (flipped (fun _ => 0) 0 0) ∧
    (∀ j : Fin 256, flipState.peek (addrAt (flipState.chunkAddr 0) j.val) = flipped (fun _ => 0) 0 0 j) ∧
    syndromeWord eccGen (fun _ => 0) ^^^ syndromeWord eccGen (flipped (fun _ => 0) 0 0) = errOfFlip 0 0 := by
  have h0 : syndromeWord eccGen (fun _ => 0) = 0 := by decide +kernel
  have h1 : syndromeWord eccGen (flipped (fun _ => 0) 0 0) = 0x00155555 := by decide +kernel
  rw [h0, h1]
  simp only [basesAligned, accessesAdmitted]
  refine ⟨?_, ?_, rfl, rfl, ?_, ?_, ?_, ?_⟩ <;> decide +kernel

/-- The data buffer of `base` lies above its syndrome arrays. -/
theorem buffer_of_base {lb : PageSize} (x : Word) (h : inBuffer base lb x) : 0x08002000 ≤ x.toNat := by
  obtain ⟨j, hj, rfl⟩ := h
  have hj : j < 2048 := lt_of_lt_of_le hj (by cases lb <;> decide)
  simp [addrAt, base, vectorOperands, State.reg, OperandFile.get]
  omega

/-- The syndrome arrays of `base` lie below its data buffer. -/
theorem arrays_of_base (x : Word) (h : inWords base.eccAddr 8 x ∨ inWords base.genAddr 8 x) : x.toNat < 0x08002000 := by
  rcases h with ⟨k, hk, hx⟩ | ⟨k, hk, hx⟩ <;> obtain ⟨j, hj, rfl⟩ := (mem_wordBytes _ _).mp hx <;>
    simp [State.eccAddr, State.genAddr, addrAt, base, vectorOperands, State.reg, OperandFile.get] <;> omega

/-- EccpageCorrectsEveryChunk: the objects of `base` do not overlap, for either page size. -/
theorem witness_page_disjoint (lb : PageSize) :
    (∀ x, inWords base.eccAddr (chunksOf lb) x →
      ¬ inSpareLayout base lb x ∧ ¬ inWords base.genAddr (chunksOf lb) x ∧ ¬ inBuffer base lb x) ∧
    (∀ x, inWords base.genAddr (chunksOf lb) x → ¬ inBuffer base lb x) := by
  have h : ∀ k < chunksOf lb, (wordBytes (base.eccAddr k)).all (fun x =>
      decide (¬ inSpareLayout base lb x ∧ ¬ inWords base.genAddr (chunksOf lb) x)) = true := by
    cases lb <;> decide +kernel
  have h : ∀ k < chunksOf lb, ∀ x ∈ wordBytes (base.eccAddr k),
      ¬ inSpareLayout base lb x ∧ ¬ inWords base.genAddr (chunksOf lb) x :=
    fun k hk x hx => of_decide_eq_true (List.all_eq_true.mp (h k hk) x hx)
  have hn : ∀ k < chunksOf lb, k < 8 := fun k hk => lt_of_lt_of_le hk (by cases lb <;> decide)
  refine ⟨fun x hx => ?_, fun x hx hb => ?_⟩
  · obtain ⟨k, hk, hk'⟩ := hx
    exact ⟨(h k hk x hk').1, (h k hk x hk').2, fun hb =>
      absurd (buffer_of_base x hb) (by have := arrays_of_base x (.inl ⟨k, hn k hk, hk'⟩); omega)⟩
  · obtain ⟨k, hk, hk'⟩ := hx
    exact absurd (buffer_of_base x hb) (by have := arrays_of_base x (.inr ⟨k, hn k hk, hk'⟩); omega)

/-- EccpageCorrectsEveryChunk, large page: the rest of what it asks. -/
theorem witness_page_large :
    accessesAdmitted (.eccpage .large) base ∧ base.cfg.CodesDistinct ∧ basesAligned (.eccpage .large) base :=
  ⟨show spareAdmitted base .large ∧ wordsAdmitted base base.eccAddr 8 ∧ wordsAdmitted base base.genAddr 8 ∧
     ∀ j < 2048, admits base.cfg (addrAt (base.reg .bufPtr) j) = true by decide +kernel,
   by decide, by simp only [basesAligned]; decide⟩

/-- EccpageCorrectsEveryChunk, either clause of `RESULT`, for either page size: on a spare image of zeros every stored
syndrome is 0x003FFFFF, with 22 ones, which fails a page; on an erased one it is 0, which does not. -/
theorem witness_page_results :
    (∀ lb, failsPage base.cfg lb (outcomeOf (storedSyndrome base lb 0 ^^^ base.peekWord (base.genAddr 0)))) ∧
    (∀ k < 2, ¬ failsPage base.cfg .small
      (outcomeOf (storedSyndrome erased .small k ^^^ erased.peekWord (erased.genAddr k)))) ∧
    (∀ k < 8, ¬ failsPage base.cfg .large
      (outcomeOf (storedSyndrome erased .large k ^^^ erased.peekWord (erased.genAddr k)))) := by
  have h0 : ∀ lb, outcomeOf (storedSyndrome base lb 0 ^^^ base.peekWord (base.genAddr 0)) = .notCorrectable := by
    intro lb; cases lb <;> decide +kernel
  have h1 : ∀ k < 2, outcomeOf (storedSyndrome erased .small k ^^^ erased.peekWord (erased.genAddr k)) = .noErr := by
    decide +kernel
  have h2 : ∀ k < 8, outcomeOf (storedSyndrome erased .large k ^^^ erased.peekWord (erased.genAddr k)) = .noErr := by
    decide +kernel
  refine ⟨fun lb => ?_, fun k hk => ?_, fun k hk => ?_⟩
  · rw [h0]; cases lb <;> simp [failsPage]
  · rw [h1 k hk]; simp [failsPage]
  · rw [h2 k hk]; simp [failsPage]

/-- EccpageIsUnpackThenCorrections: V2.33's page, unpacked and corrected chunk by chunk. -/
theorem witness_page_by_chunks :
    ((nextOf (exec (.eccunpack 2) pageStart33)).map fun u => (runCorrections (List.range 2) u).map (·.1)) =
      some (some [1, 3]) := by decide +kernel

/-- BbcheckTestsTheMarker and BbmarkWritesTheMarker: legal and reserved words, an admitted and an unadmitted byte. -/
theorem witness_marker_words :
    opc 0x00000005 = 5 ∧ opc 0x00000016 = 6 ∧ wrBitOf 0x00000025 ≠ 0 ∧ rsv0 0x00000085 ≠ 0 ∧ imm8 0x00008006 ≠ 0 ∧
    rsv1 0x80000006 ≠ 0 ∧
    (wrBitOf 0x00000015 = 0 ∧ rsv0 0x00000015 = 0 ∧ imm8 0x00000015 = 0 ∧ rsv1 0x00000015 = 0) ∧
    admits narrow.cfg (addrAt (narrow.reg .sparePtr) 5) = true ∧
    admits narrow.cfg (addrAt (narrow.reg .sparePtr) 16) = false := by decide

/-- MarkedBlockReportsBad: the default good marker, and an erased image. -/
theorem witness_markers :
    base.cfg.goodMarker ≠ 0xFE ∧ base.cfg.goodMarker = 0xFF ∧
    ∀ j < 64, (base.pokeBytes 0x08001000 (List.replicate 64 0xFF)).peek (addrAt (base.reg .sparePtr) j) = 0xFF := by
  decide +kernel

/-- ChainVisitsEveryDescriptor: no descriptor of `base` but the first can lie at address 0. -/
theorem witness_chain : ∀ i, 0 < i → i < 17 → addrAt (base.reg .descPtr) (16 * i) ≠ 0 := by
  have h : ∀ i < 17, addrAt (base.reg .descPtr) (16 * i) ≠ 0 := by decide
  exact fun i _ hi => h i hi

end Sys2Proof.Tests
end

section
/-! The population count against a set of bit positions, and the host's reads of the shared memory. -/

namespace Sys2Proof.Machine

open Sys2Proof Sys2Proof.Claims

/-! ### The population count (R11) -/

/-- Counting over the positions as numbers is counting over them as a finite type. -/
theorem popcount32_eq_onesOf (v : Word) : popcount32 v = onesOf v := by
  calc popcount32 v
      = (((List.finRange 32).map Fin.val).filter fun i => v.getLsbD i).length := by
        rw [List.map_coe_finRange_eq_range, popcount32]
    _ = ((List.finRange 32).filter fun i => v.getLsbD i.val).length := by
        rw [List.filter_map, List.length_map, Function.comp_def]
    _ = onesOf v := by
        simp [onesOf, Fin.univ_def, Finset.card, Finset.filter]

theorem popcount32_le (v : Word) : popcount32 v ≤ 32 :=
  (List.length_filter_le _ _).trans_eq List.length_range

/-! ### The bytes of shared memory (R54, R57) -/

theorem State.peekBytes_eq_map (s : State) (a : Word) (n : Nat) :
    s.peekBytes a n = (List.range n).map fun j => s.peek (addrAt a j) := by
  induction n generalizing a with
  | zero => rfl
  | succ n ih =>
    simp [State.peekBytes, ih, List.range_succ_eq_map, Function.comp_def, addrAt_addrAt, Nat.add_comm]

theorem extractLsb'_append_low {n : Nat} (hi : BitVec n) (lo : Byte) : (hi ++ lo).extractLsb' 0 8 = lo := by
  rw [BitVec.extractLsb'_append_eq_of_add_le (by omega), BitVec.extractLsb'_eq_self]

theorem extractLsb'_append_high {n : Nat} (k : Nat) (hi : BitVec n) (lo : Byte) :
    (hi ++ lo).extractLsb' (k + 8) 8 = hi.extractLsb' k 8 := by
  rw [BitVec.extractLsb'_append_eq_of_le (by omega), Nat.add_sub_cancel]

/-- The bytes of a word put together from four, the last of them the least significant (R9, R52). -/
theorem byteOf_wordOfBytes (b3 b2 b1 b0 : Byte) :
    byteOf (wordOfBytes b3 b2 b1 b0) 0 = b0 ∧ byteOf (wordOfBytes b3 b2 b1 b0) 1 = b1 ∧
    byteOf (wordOfBytes b3 b2 b1 b0) 2 = b2 ∧ byteOf (wordOfBytes b3 b2 b1 b0) 3 = b3 := by
  refine ⟨extractLsb'_append_low (b3 ++ b2 ++ b1) b0, ?_, ?_, ?_⟩
  · change (b3 ++ b2 ++ b1 ++ b0).extractLsb' (0 + 8) 8 = b1
    rw [extractLsb'_append_high, extractLsb'_append_low]
  · change (b3 ++ b2 ++ b1 ++ b0).extractLsb' (0 + 8 + 8) 8 = b2
    rw [extractLsb'_append_high, extractLsb'_append_high, extractLsb'_append_low]
  · change (b3 ++ b2 ++ b1 ++ b0).extractLsb' (0 + 8 + 8 + 8) 8 = b3
    rw [extractLsb'_append_high, extractLsb'_append_high, extractLsb'_append_high, BitVec.extractLsb'_eq_self]

/-- Byte `j` of a word in memory lies `j` addresses up: words are little-endian (R54). -/
theorem State.byteOf_peekWord (s : State) (a : Word) {j : Nat} (hj : j < 4) :
    byteOf (s.peekWord a) j = s.peek (addrAt a j) := by
  obtain ⟨h0, h1, h2, h3⟩ :=
    byteOf_wordOfBytes (s.peek (addrAt a 3)) (s.peek (addrAt a 2)) (s.peek (addrAt a 1)) (s.peek a)
  match j, hj with
  | 0, _ => rw [addrAt_zero]; exact h0
  | 1, _ => exact h1
  | 2, _ => exact h2
  | 3, _ => exact h3

theorem State.map_peek_eq_map_byteOf (s : State) (a : Word) :
    ((List.range 4).map fun j => s.peek (addrAt a j)) = (List.range 4).map (byteOf (s.peekWord a)) :=
  List.map_congr_left fun _ hj => (s.byteOf_peekWord a (List.mem_range.mp hj)).symm

/-! ### Host reads (R6) -/

/-- A step with an event pending is that event, on the state with the event taken off. -/
theorem step_of_pending {s : State} {e : BusEvent} {es : List BusEvent} (h : s.pending = e :: es) :
    step s = busEvent e (s.setPending es) := by
  simp only [step, nextEvent, h]

/-- A host read of any bytes: they are kept, in the order of their addresses, and nothing else changes. -/
theorem step_hostLoad {s : State} {a : Word} {n : Nat} {es : List BusEvent} (h : s.pending = .hostLoad a n :: es) :
    step s = .next { s with
      pending := es, hostBytes := (List.range n).map fun j => s.peek (addrAt a j) } := by
  rw [step_of_pending h, busEvent, State.hostLoad, State.peekBytes_eq_map]
  rfl

/-! ### The obligations -/

/-- Settles O37: the list count is the set count, and a filtered list is no longer than the list. -/
theorem popcountCountsOnes : Obligations.PopcountCountsOnes :=
  fun v => ⟨popcount32_eq_onesOf v, popcount32_le v⟩

/-- Settles O60: the step lemma of a host read, and for a word its bytes in little-endian order. -/
theorem hostReadsSharedMemory : Obligations.HostReadsSharedMemory := by
  refine ⟨fun s a n es h => step_hostLoad h, fun s a es h => ?_⟩
  rw [step_hostLoad h, s.map_peek_eq_map_byteOf]
  rfl

end Sys2Proof.Machine
end

section
/-! Acceptance in the statements' own words, what each command leaves in `RESULT` and `CHUNKSTAT`, and what it leaves as
it was. -/

namespace Sys2Proof.Machine

open Sys2Proof Sys2Proof.Claims

/-! ### Acceptance (R23, R56, R166) -/

theorem alignedRegs_eq_markedA (i : Instr) : alignedRegs i = markedA i := by cases i <;> rfl

theorem readRegs_eq_marked (i : Instr) : readRegs i = markedA i ++ markedOther i := by cases i <;> rfl

theorem mem_readRegs_iff (i : Instr) (r : OperandReg) : r ∈ readRegs i ↔ r ∈ registersOf i := by
  cases i <;> cases r <;> simp [readRegs, alignedRegs, plainRegs, registersOf]

theorem operandsAligned_iff (i : Instr) (s : State) : operandsAligned i s = true ↔ basesAligned i s := by
  cases i <;> simp [operandsAligned, alignedRegs, basesAligned, wordAligned_iff]

theorem operandsAligned_eq_false_iff (i : Instr) (s : State) : operandsAligned i s = false ↔ ¬ basesAligned i s := by
  rw [← operandsAligned_iff, Bool.not_eq_true]

theorem testedPart_eq_testedRegs (s : State) (rs : List OperandReg) : testedPart s rs = testedRegs s rs := by
  induction rs with
  | nil => rfl
  | cons r rs ih => simp only [testedPart, testedRegs, wordAligned_iff, aligned4, ih]

/-- A command with a misaligned base is rejected, having read the registers up to the misaligned one. -/
theorem exec_misaligned {i : Instr} {s : State} (ha : ¬ basesAligned i s) :
    exec i s = .next ((s.noteReads (testedRegs s (markedA i))).raiseCmdErr .align) := by
  rw [exec_eq, accept_misaligned _ _ _ ((operandsAligned_eq_false_iff i s).mpr ha), testedPart_eq_testedRegs,
    alignedRegs_eq_markedA]

theorem exec_misaligned_next {i : Instr} {s t : State} (ha : ¬ basesAligned i s) (h : exec i s = .next t) :
    t = (s.noteReads (testedRegs s (markedA i))).raiseCmdErr .align := by
  rw [exec_misaligned ha] at h
  exact (Host.Outcome.next.inj h).symm

/-- A command with aligned bases that answers a next state has completed its operation. -/
theorem exec_aligned_next {i : Instr} {s t : State} (ha : basesAligned i s) (h : exec i s = .next t) :
    ∃ u, opOf i (s.noteReads (readRegs i)) = .ok u ∧ t = u.complete := by
  rw [exec_aligned i s ((operandsAligned_iff i s).mpr ha)] at h
  exact (finish_next_iff _ t).mp h

/-! ### What a command leaves as it was -/

/-- An operation writes memory, `RESULT` and `CHUNKSTAT`, and notes which registers it has written. -/
theorem op_only {i : Instr} {s t : State} (h : opOf i s = .ok t) :
    t = { s with mem := t.mem, result := t.result, chunkstat := t.chunkstat, unwritten := t.unwritten } := by
  obtain ⟨u, r, hw, ⟨-, rfl⟩ | ⟨lb, cs, -, rfl⟩⟩ := op_writes i s t h
  · rw [hw.only]; rfl
  · rw [hw.only]; rfl

/-- Accepted or rejected, a command writes neither `CMD`, an operand register, a parameter, nor the model's own fields
but the mark. -/
theorem exec_only {i : Instr} {s t : State} (h : exec i s = .next t) :
    t = { s with
      mem := t.mem, status := t.status, result := t.result, chunkstat := t.chunkstat
      unwritten := t.unwritten, mark := t.mark } := by
  by_cases ha : basesAligned i s
  · obtain ⟨u, hu, rfl⟩ := exec_aligned_next ha h
    rw [op_only hu, State.noteReads_eq]; rfl
  · rw [exec_misaligned_next ha h, State.noteReads_eq]; rfl

/-- The registers an accepted command writes (R26, R28). -/
def writtenRegs : Instr → List WindowReg
  | .eccpage _ => [.result, .chunkstat]
  | _ => [.result]

/-- Of the registers nothing has written, those the command writes leave the list (R34). -/
theorem op_unwritten {i : Instr} {s t : State} (h : opOf i s = .ok t) :
    t.unwritten = s.unwritten.filter fun r => decide (r ∉ writtenRegs i) := by
  obtain ⟨u, v, hw, ⟨hi, rfl⟩ | ⟨lb, cs, rfl, rfl⟩⟩ := op_writes i s t h
  · have hone : writtenRegs i = [.result] := by
      cases i with
      | eccpage lb => exact absurd rfl (hi lb)
      | _ => rfl
    simp [hone, hw.unwritten]
  · simp [writtenRegs, hw.unwritten, List.filter_filter]

theorem op_chunkstat_of_ne {i : Instr} {s t : State} (h : opOf i s = .ok t) (hi : ∀ lb, i ≠ .eccpage lb) :
    t.chunkstat = s.chunkstat := by
  obtain ⟨u, v, hw, ⟨-, rfl⟩ | ⟨lb, cs, rfl, -⟩⟩ := op_writes i s t h
  · exact hw.chunkstat
  · exact absurd rfl (hi lb)

theorem op_mem_wf {i : Instr} {s t : State} (h : opOf i s = .ok t) (hs : Memory.wf s.mem = true) :
    Memory.wf t.mem = true := by
  obtain ⟨u, v, hw, ⟨-, rfl⟩ | ⟨lb, cs, -, rfl⟩⟩ := op_writes i s t h
  · exact hw.wf hs
  · exact hw.wf hs

/-! ### The correction loop of a page (R123) -/

/-- The first pass of the loop, and the loop over the rest. -/
theorem correctChunks_cons {lb : PageSize} {i : Nat} {is : List Nat} {a b : PageAcc} {s t : State}
    (h : correctChunks lb (i :: is) a s = .ok (b, t)) :
    ∃ o u, outcomesFrom (i :: is) s = o :: outcomesFrom is u ∧ u.cfg = s.cfg ∧
      correctChunks lb is (pageNext s.cfg lb i (outcomeCode s.cfg o) a) u = .ok (b, t) := by
  simp only [correctChunks, andThen_ok_iff] at h
  obtain ⟨⟨o, u⟩, hc, h⟩ := h
  exact ⟨o, u, by simp only [outcomesFrom, hc], (correctChunk_writes hc).cfg, h⟩

theorem correctChunks_length {lb : PageSize} {is : List Nat} {a b : PageAcc} {s t : State}
    (h : correctChunks lb is a s = .ok (b, t)) : (outcomesFrom is s).length = is.length := by
  induction is generalizing a s with
  | nil => rfl
  | cons i is ih =>
    obtain ⟨o, u, ho, -, h⟩ := correctChunks_cons h
    rw [ho, List.length_cons, List.length_cons, ih h]

/-- The loop fails when it had failed before, or some chunk fails the page. -/
theorem correctChunks_fail {lb : PageSize} {is : List Nat} {a b : PageAcc} {s t : State}
    (h : correctChunks lb is a s = .ok (b, t)) :
    b.fail = (a.fail || (outcomesFrom is s).any fun o => pageFails s.cfg lb (outcomeCode s.cfg o)) := by
  induction is generalizing a s with
  | nil => cases h; simp [outcomesFrom]
  | cons i is ih =>
    obtain ⟨o, u, ho, hc, h⟩ := correctChunks_cons h
    rw [ih h, ho, hc, List.any_cons, pageNext, Bool.or_assoc]

/-- Field `j` of the bits chunk `i` sets is its code, and the other fields are 0. -/
theorem chunkField_chunkBits (st : BitVec 2) {i j : Nat} (hi : i < 16) :
    chunkField (chunkBits st i) j = if i = j then st else 0#2 := by
  apply BitVec.eq_of_getLsbD_eq
  intro k hk
  by_cases hij : i = j
  · subst hij
    simp [chunkField, chunkBits, hk, show 2 * i + k < 32 by omega]
  · have hout : 2 * i ≤ 2 * j + k → st.getLsbD (2 * j + k - 2 * i) = false :=
      fun _ => st.getLsbD_of_ge _ (by omega)
    simpa [chunkField, chunkBits, hk, hij] using fun _ h _ => hout h

theorem chunkField_or (v w : Word) (j : Nat) : chunkField (v ||| w) j = chunkField v j ||| chunkField w j :=
  BitVec.extractLsb'_or

/-- The upper half of the bits of one of the eight chunks is 0. -/
theorem chunkBits_upper (st : BitVec 2) {i : Nat} (hi : i < 8) : (chunkBits st i).extractLsb' 16 16 = 0#16 := by
  apply BitVec.eq_of_getLsbD_eq
  intro k hk
  have hout : st.getLsbD (16 + k - 2 * i) = false := st.getLsbD_of_ge _ (by omega)
  simp [chunkBits, hk, hout]

/-- The field of a chunk the loop does not process stays. -/
theorem correctChunks_field_other {lb : PageSize} {is : List Nat} {a b : PageAcc} {s t : State} {j : Nat}
    (h : correctChunks lb is a s = .ok (b, t)) (his : ∀ i ∈ is, i < 16) (hj : j ∉ is) :
    chunkField b.cs j = chunkField a.cs j := by
  induction is generalizing a s with
  | nil => cases h; rfl
  | cons i is ih =>
    obtain ⟨o, u, -, -, h⟩ := correctChunks_cons h
    rw [List.mem_cons, not_or] at hj
    rw [ih h (fun k hk => his k (List.mem_cons_of_mem _ hk)) hj.2, pageNext, chunkField_or,
      chunkField_chunkBits _ (his i List.mem_cons_self), if_neg (Ne.symm hj.1), BitVec.or_zero]

/-- The field of a chunk the loop processes holds the code of its outcome. -/
theorem correctChunks_field {lb : PageSize} {is : List Nat} {a b : PageAcc} {s t : State} {k j : Nat} {o : EccOutcome}
    (h : correctChunks lb is a s = .ok (b, t)) (his : ∀ i ∈ is, i < 16) (hn : is.Nodup)
    (ha : ∀ i ∈ is, chunkField a.cs i = 0#2) (hk : is[k]? = some j) (ho : (outcomesFrom is s)[k]? = some o) :
    chunkField b.cs j = outcomeCode s.cfg o := by
  induction is generalizing a s k with
  | nil => simp at hk
  | cons i is ih =>
    obtain ⟨o', u, hos, hc, h⟩ := correctChunks_cons h
    obtain ⟨hi, hn⟩ := List.nodup_cons.mp hn
    have his' : ∀ l ∈ is, l < 16 := fun l hl => his l (List.mem_cons_of_mem _ hl)
    have hbits (l : Nat) := chunkField_chunkBits (outcomeCode s.cfg o') (i := i) (j := l) (his i List.mem_cons_self)
    rw [hos] at ho
    cases k with
    | zero =>
      cases hk; cases ho
      rw [correctChunks_field_other h his' hi, pageNext, chunkField_or, ha j List.mem_cons_self, hbits, if_pos rfl,
        BitVec.zero_or]
    | succ k =>
      rw [ih h his' hn (fun l hl => ?_) hk ho, hc]
      rw [pageNext, chunkField_or, ha l (List.mem_cons_of_mem _ hl), hbits,
        if_neg (fun e : i = l => hi (e ▸ hl)), BitVec.zero_or]

theorem correctChunks_upper {lb : PageSize} {is : List Nat} {a b : PageAcc} {s t : State}
    (h : correctChunks lb is a s = .ok (b, t)) (his : ∀ i ∈ is, i < 8) (ha : a.cs.extractLsb' 16 16 = 0#16) :
    b.cs.extractLsb' 16 16 = 0#16 := by
  induction is generalizing a s with
  | nil => cases h; exact ha
  | cons i is ih =>
    obtain ⟨o, u, -, -, h⟩ := correctChunks_cons h
    refine ih h (fun k hk => his k (List.mem_cons_of_mem _ hk)) ?_
    rw [pageNext, BitVec.extractLsb'_or, ha, chunkBits_upper _ (his i List.mem_cons_self), BitVec.zero_or]

theorem chunksOf_le (lb : PageSize) : chunksOf lb ≤ 8 := by cases lb <;> decide

/-- A completed ECCPAGE is its unpack, the correction loop over its chunks, and the two registers (R123). -/
theorem pageOp_ok {lb : PageSize} {s t : State} (h : pageOp lb s = .ok t) :
    ∃ u a v, pageOutcomes lb s = outcomesFrom (List.range (chunksOf lb)) u ∧ u.cfg = s.cfg ∧
      correctChunks lb (List.range (chunksOf lb)) pageStart u = .ok (a, v) ∧
      t = (v.setChunkstat a.cs).setResult (pageResult lb a.fail) := by
  simp only [pageOp, andThen_ok_iff] at h
  obtain ⟨u, hu, ⟨a, v⟩, hv, h⟩ := h
  exact ⟨u, a, v, by simp only [pageOutcomes, hu], (unpack_writes hu).cfg, hv, (Except.ok.inj h).symm⟩

/-- The fields of `CHUNKSTAT` after ECCPAGE (R28). -/
theorem pageOp_chunkstat {lb : PageSize} {s t : State} (h : pageOp lb s = .ok t) :
    (pageOutcomes lb s).length = chunksOf lb ∧
    (∀ (i : Nat) (o : EccOutcome), (pageOutcomes lb s)[i]? = some o → chunkField t.chunkstat i = outcomeCode s.cfg o) ∧
    (∀ i, chunksOf lb ≤ i → i < 8 → chunkField t.chunkstat i = 0) ∧
    t.chunkstat.extractLsb' 16 16 = 0 := by
  obtain ⟨u, a, v, ho, hc, hv, rfl⟩ := pageOp_ok h
  have hlen := (correctChunks_length hv).trans List.length_range
  have hlt : ∀ i ∈ List.range (chunksOf lb), i < 8 := fun i hi =>
    (List.mem_range.mp hi).trans_le (chunksOf_le lb)
  have hlt' : ∀ i ∈ List.range (chunksOf lb), i < 16 := fun i hi => (hlt i hi).trans (by decide)
  have hstart : ∀ i, chunkField pageStart.cs i = 0#2 := fun i => BitVec.extractLsb'_zero
  rw [ho, ← hc]
  refine ⟨hlen, fun i o hio => ?_, fun i hi _ => ?_, correctChunks_upper hv hlt rfl⟩
  · have hi : i < chunksOf lb := hlen ▸ (List.getElem?_eq_some_iff.mp hio).1
    exact correctChunks_field hv hlt' List.nodup_range (fun l _ => hstart l) (List.getElem?_range hi) hio
  · exact (correctChunks_field_other hv hlt' (by simpa using hi)).trans (hstart i)

/-! ### `RESULT` (R26) -/

/-- The value the row of R26 gives an accepted command, over the state it starts from. -/
def resultOf (i : Instr) (s : State) : Word :=
  match i with
  | .eccpack count | .eccunpack count => if count = 2 ∨ count = 8 then 1 else 0
  | .ecccorr idx => (outcomeCode s.cfg (classifyErr (errAt s idx))).setWidth 32
  | .eccpage lb => pageResult lb ((pageOutcomes lb s).any fun o => pageFails s.cfg lb (outcomeCode s.cfg o))
  | .bbcheck lb => if s.peek (s.markerAddr lb) = s.cfg.goodMarker then 0 else 1
  | .bbmark _ => 1
  | .dmabuild lb _ => BitVec.ofNat 32 (descriptorsOf lb)

theorem pageOfCount_isSome_iff (count : Nat) : (pageOfCount count).isSome ↔ count = 2 ∨ count = 8 := by
  by_cases h2 : count = 2
  · simp [pageOfCount, h2]
  · by_cases h8 : count = 8 <;> simp [pageOfCount, h2, h8]

/-- A completed operation leaves in `RESULT` the value of its row. -/
theorem op_result {i : Instr} {s t : State} (h : opOf i s = .ok t) : t.result = resultOf i s := by
  cases i with
  | eccpack count | eccunpack count =>
    have hvalid := pageOfCount_isSome_iff count
    simp only [opOf, packOp, unpackOp] at h
    cases hc : pageOfCount count with
    | none => rw [hc] at h hvalid; cases h; exact (if_neg (by simpa using hvalid)).symm
    | some lb =>
      rw [hc] at h hvalid
      obtain ⟨u, -, h⟩ := (andThen_ok_iff _ _ _).mp h
      cases h; exact (if_pos (hvalid.mp rfl)).symm
  | ecccorr idx =>
    obtain ⟨⟨o, u⟩, hu, h⟩ := (andThen_ok_iff _ _ _).mp h
    obtain ⟨⟨-, -, rfl⟩, -⟩ := (correctChunk_ok_iff _ _ _ _).mp hu
    cases h; rfl
  | eccpage lb =>
    obtain ⟨u, a, v, ho, hc, hv, rfl⟩ := pageOp_ok h
    rw [resultOf, ho, ← hc, State.setResult_result, correctChunks_fail hv, pageStart, Bool.false_or]
  | bbcheck lb =>
    obtain ⟨m, hm, h⟩ := (andThen_ok_iff _ _ _).mp h
    obtain ⟨-, rfl⟩ := (State.readByte_ok_iff _ _ _).mp hm
    cases h; exact ite_not _ _ _
  | bbmark lb =>
    obtain ⟨u, -, h⟩ := (andThen_ok_iff _ _ _).mp h
    cases h; rfl
  | dmabuild lb wr =>
    obtain ⟨u, -, h⟩ := (andThen_ok_iff _ _ _).mp h
    cases h; rfl

theorem resultOf_same (i : Instr) {s t : State} (h : SameInputs s t) : resultOf i t = resultOf i s := by
  cases i with
  | ecccorr idx => simp only [resultOf, h.errAt, h.cfg]
  | eccpage lb => simp only [resultOf, pageOutcomes_same lb h, h.cfg]
  | bbcheck lb => simp only [resultOf, h.peek, h.markerAddr, h.cfg]
  | _ => rfl

theorem outcomeCode_legal (c : Config) (o : EccOutcome) : (outcomeCode c o).setWidth 32 ∈ legalResults c := by
  cases o <;> simp [outcomeCode, legalResults]

theorem pageResult_legal (c : Config) (lb : PageSize) (fail : Bool) : pageResult lb fail ∈ legalResults c := by
  cases fail <;> cases lb <;> simp [pageResult, mainBytes, pageFailure, legalResults]

theorem resultOf_legal (i : Instr) (s : State) : resultOf i s ∈ legalResults s.cfg := by
  cases i with
  | eccpack count | eccunpack count => simp only [resultOf]; split <;> simp [legalResults]
  | ecccorr idx => exact outcomeCode_legal _ _
  | eccpage lb => exact pageResult_legal _ _ _
  | bbcheck lb => simp only [resultOf]; split <;> simp [legalResults]
  | bbmark lb => simp [resultOf, legalResults]
  | dmabuild lb wr => cases lb <;> simp [resultOf, legalResults, descriptorsOf, chunksOf]

theorem exec_result {i : Instr} {s t : State} (ha : basesAligned i s) (h : exec i s = .next t) :
    t.result = resultOf i s := by
  obtain ⟨u, hu, rfl⟩ := exec_aligned_next ha h
  exact (op_result hu).trans (resultOf_same i (SameInputs.noteReads s _))

theorem classifyErr_eq_outcomeOf (err : Word) : classifyErr err = outcomeOf err := by
  unfold classifyErr outcomeOf
  rw [popcount32_eq_onesOf]
  by_cases h : onesOf err = 11
  · simp [h]
  · simp [h]

theorem exec_result_misaligned {i : Instr} {s t : State} (ha : ¬ basesAligned i s) (h : exec i s = .next t) :
    t.result = s.result := by
  rw [exec_misaligned_next ha h]; simp

/-! ### `CHUNKSTAT` of the other commands (R28) -/

theorem exec_chunkstat_misaligned {i : Instr} {s t : State} (ha : ¬ basesAligned i s) (h : exec i s = .next t) :
    t.chunkstat = s.chunkstat := by
  rw [exec_misaligned_next ha h]; simp

theorem exec_chunkstat_of_ne {i : Instr} {s t : State} (hi : ∀ lb, i ≠ .eccpage lb) (h : exec i s = .next t) :
    t.chunkstat = s.chunkstat := by
  by_cases ha : basesAligned i s
  · obtain ⟨u, hu, rfl⟩ := exec_aligned_next ha h
    exact (op_chunkstat_of_ne hu hi).trans (by simp)
  · exact exec_chunkstat_misaligned ha h

/-! ### `STATUS` (R25) -/

theorem exec_status_aligned {i : Instr} {s t : State} (ha : basesAligned i s) (h : exec i s = .next t) :
    t.status = 0x00000001 := by
  obtain ⟨u, -, rfl⟩ := exec_aligned_next ha h
  rfl

theorem exec_status_misaligned {i : Instr} {s t : State} (ha : ¬ basesAligned i s) (h : exec i s = .next t) :
    t.status = 0x00000032 := by
  rw [exec_misaligned_next ha h]; rfl

theorem exec_status_legal {i : Instr} {s t : State} (h : exec i s = .next t) : t.status ∈ legalStatus := by
  by_cases ha : basesAligned i s
  · rw [exec_status_aligned ha h]; decide
  · rw [exec_status_misaligned ha h]; decide

/-! ### The marks of a command (R166, R174) -/

theorem exec_mark_aligned {i : Instr} {s t : State} (ha : basesAligned i s) (h : exec i s = .next t) :
    t.mark = markAfterCommand i s := by
  obtain ⟨u, hu, rfl⟩ := exec_aligned_next ha h
  rw [State.complete_mark, op_only hu, readRegs_eq_marked]
  exact State.noteReads_mark _ s

theorem exec_mark_misaligned {i : Instr} {s t : State} (ha : ¬ basesAligned i s) (h : exec i s = .next t) :
    t.mark = markAfterRejection i s := by
  rw [exec_misaligned_next ha h]
  exact State.noteReads_mark _ s

theorem markAfter_of_marked {s : State} {m : Mark} (hm : s.mark = some m) (rs : List OperandReg) :
    markAfter s rs = some m := by
  rw [markAfter, hm]

theorem markAfter_of_unmarked {s : State} (hm : s.mark = none) (rs : List OperandReg) :
    markAfter s rs = (rs.find? fun r => decide (.operand r ∈ s.unwritten)).map .unwrittenOperand := by
  rw [markAfter, hm]

end Sys2Proof.Machine
end

section
/-! What one step can do, said once, what the events other than a `CMD` write and a reset leave as it was, and the
invariant. -/

namespace Sys2Proof.Machine

open Sys2Proof Sys2Proof.Claims

/-! ### The window (R20, R21) -/

theorem windowReg_windowOffset (r : WindowReg) : windowReg (windowOffset r) = some r := by
  cases r with
  | operand p => cases p <;> rfl
  | _ => rfl

theorem eq_windowOffset_of_windowReg {o : BitVec 6} {r : WindowReg} (h : windowReg o = some r) :
    o = windowOffset r := by
  unfold windowReg at h
  split at h
  case h_12 => cases h
  all_goals rename_i ho; cases h; exact BitVec.eq_of_toNat_eq ho

theorem windowReg_reserved {o : BitVec 6} (ho : 0x2C ≤ o.toNat) : windowReg o = none := by
  cases h : windowReg o with
  | none => rfl
  | some r =>
    rw [eq_windowOffset_of_windowReg h] at ho
    cases r with
    | operand p => cases p <;> exact absurd ho (by decide)
    | _ => exact absurd ho (by decide)

theorem goodAccess_iff (o : BitVec 6) (bits : Nat) : goodAccess o bits = true ↔ bits = 32 ∧ o.toNat % 4 = 0 := by
  simp [goodAccess]

theorem goodAccess_windowOffset (r : WindowReg) : goodAccess (windowOffset r) 32 = true := by
  cases r with
  | operand p => cases p <;> rfl
  | _ => rfl

/-- A 32-bit host write at a register's offset reaches the register. -/
theorem hostWrite_windowOffset (r : WindowReg) (v : Word) (s : State) :
    hostWrite (windowOffset r) 32 v s = writeWindow (some r) v s := by
  rw [hostWrite, if_pos (goodAccess_windowOffset r), windowReg_windowOffset]

theorem hostRead_windowOffset (r : WindowReg) (s : State) :
    hostRead (windowOffset r) 32 s = .next ((s.noteHostRead r).giveHost (s.windowValue r)) := by
  rw [hostRead, if_pos (goodAccess_windowOffset r), windowReg_windowOffset, readWindow]

theorem State.noteHostRead_mark (s : State) (r : WindowReg) :
    (s.noteHostRead r).mark = match s.mark with
      | some m => some m
      | none => if r ∈ s.unwritten then some (.unwrittenRead r) else none := by
  unfold State.noteHostRead State.markRun
  by_cases hr : r ∈ s.unwritten <;> cases hm : s.mark <;> simp [hr, hm]

theorem State.noteHostRead_eq (s : State) (r : WindowReg) :
    s.noteHostRead r = { s with mark := (s.noteHostRead r).mark } := by
  rw [State.mk.injEq]; simp

/-- A host read of the window changes the mark and the word the host holds, and nothing else (R21). -/
theorem readWindow_only (r : Option WindowReg) (s : State) :
    readWindow r s = { s with mark := (readWindow r s).mark, hostData := (readWindow r s).hostData } := by
  rw [State.mk.injEq]
  cases r <;> simp [readWindow]

/-- The host's or the environment's bytes land from `a` on, and nowhere else. -/
theorem State.pokeBytes_writes (s : State) (a : Word) (bs : List Byte) :
    Writes (fun x => ∃ j < bs.length, x = addrAt a j) s (s.pokeBytes a bs) := by
  induction bs generalizing s a with
  | nil => exact Writes.refl _ s
  | cons b bs ih =>
    refine ((s.poke_writes a b).mono ?_).trans ((ih (s.poke a b) (addrAt a 1)).mono ?_)
    · rintro x rfl; exact ⟨0, by simp, by simp⟩
    · rintro x ⟨j, hj, rfl⟩
      exact ⟨j + 1, by simpa using hj, by rw [addrAt_addrAt, Nat.add_comm]⟩

/-- Each byte written lands at its own address, none being written over while the list is no longer than memory. -/
theorem State.peek_pokeBytes (s : State) (a : Word) (bs : List Byte) (hl : bs.length ≤ 2 ^ 32) (j : Nat)
    (hj : j < bs.length) : (s.pokeBytes a bs).peek (addrAt a j) = bs[j] := by
  induction bs generalizing s a j with
  | nil => exact absurd hj (Nat.not_lt_zero j)
  | cons b bs ih =>
    rw [List.length_cons] at hl hj
    cases j with
    | zero =>
      have hlater : ¬ ∃ k < bs.length, addrAt a 0 = addrAt (addrAt a 1) k := by
        rintro ⟨k, hk, e⟩
        rw [addrAt_addrAt, addrAt_inj (by omega) (by omega)] at e
        omega
      have hkeep := ((s.poke a b).pokeBytes_writes (addrAt a 1) bs).frame _ hlater
      exact hkeep.trans (by simp)
    | succ j =>
      have hnext := ih (s.poke a b) (addrAt a 1) (by omega) j (by omega)
      rwa [addrAt_addrAt, Nat.add_comm] at hnext

/-! ### What a `CMD` write can do (R24, R81) -/

theorem writeCmd_next {w : Word} {s t : State} (h : writeCmd w s = .next t) :
    (decode w = .illop ∧ t = (s.setCmd w).raiseCmdErr .illop) ∨
    (decode w = .rsvd ∧ t = (s.setCmd w).raiseCmdErr .rsvd) ∨
    (∃ i, decode w = .legal i ∧ exec i (s.setCmd w) = .next t) := by
  unfold writeCmd at h
  cases hd : decode w with
  | illop => rw [hd] at h; cases h; exact .inl ⟨rfl, rfl⟩
  | rsvd => rw [hd] at h; cases h; exact .inr (.inl ⟨rfl, rfl⟩)
  | legal i => rw [hd] at h; exact .inr (.inr ⟨i, rfl, h⟩)

theorem writeCmd_legal {w : Word} {i : Instr} (hd : decode w = .legal i) (s : State) :
    writeCmd w s = exec i (s.setCmd w) := by
  rw [writeCmd, hd]

theorem writeCmd_only {w : Word} {s t : State} (h : writeCmd w s = .next t) :
    t = { s with
      cmd := w, mem := t.mem, status := t.status, result := t.result, chunkstat := t.chunkstat
      unwritten := t.unwritten, mark := t.mark } := by
  obtain ⟨-, rfl⟩ | ⟨-, rfl⟩ | ⟨i, -, h⟩ := writeCmd_next h
  · rfl
  · rfl
  · rw [exec_only h]; rfl

/-! ### What one step can do (R20, R27, R31, R185) -/

/-- How a step gets from `s` to `t`. -/
inductive StepCase (s t : State) : Prop
  /-- no event is pending (R27) -/
  | idle (hp : s.pending = []) (ht : t = s)
  /-- the host writes `CMD` (R24) -/
  | command (w : Word) (es : List BusEvent) (hp : s.pending = .hostWrite 0x00 32 w :: es)
      (ht : writeCmd w (s.setPending es) = .next t)
  /-- the host writes an operand register (R22) -/
  | operand (r : OperandReg) (v : Word) (es : List BusEvent)
      (hp : s.pending = .hostWrite (windowOffset (.operand r)) 32 v :: es) (ht : t = (s.setPending es).setOperand r v)
  /-- the host writes a read-only register or a reserved offset (R20, R21) -/
  | ignored (o : BitVec 6) (v : Word) (es : List BusEvent) (hp : s.pending = .hostWrite o 32 v :: es)
      (ho : o ≠ 0x00) (ht : t = s.setPending es)
  /-- the host reads the window (R21) -/
  | hostRead (o : BitVec 6) (es : List BusEvent) (hp : s.pending = .hostRead o 32 :: es)
      (ht : t = readWindow (windowReg o) (s.setPending es))
  /-- the host reads memory (R6) -/
  | hostLoad (a : Word) (n : Nat) (es : List BusEvent) (hp : s.pending = .hostLoad a n :: es)
      (ht : t = (s.setPending es).hostLoad a n)
  /-- the environment writes memory (R200) -/
  | envWrite (a : Word) (bs : List Byte) (es : List BusEvent) (hp : s.pending = .envWrite a bs :: es)
      (ht : t = (s.setPending es).pokeBytes a bs)
  /-- the platform resets the block (R185) -/
  | platformReset (es : List BusEvent) (hp : s.pending = .platformReset :: es) (ht : t = (s.setPending es).afterReset)

/-- A host write of the window that completes is one of the three a step can make. -/
theorem hostWrite_cases {s t : State} {o : BitVec 6} {bits : Nat} {v : Word} {es : List BusEvent}
    (hp : s.pending = .hostWrite o bits v :: es) (h : hostWrite o bits v (s.setPending es) = .next t) :
    StepCase s t := by
  unfold hostWrite at h
  split at h
  case isFalse => cases h
  case isTrue hg =>
    obtain ⟨rfl, -⟩ := (goodAccess_iff o bits).mp hg
    cases hr : windowReg o with
    | none =>
      rw [hr] at h; cases h
      exact .ignored o v es hp (by rintro rfl; cases hr) rfl
    | some r =>
      rw [hr] at h
      obtain rfl := eq_windowOffset_of_windowReg hr
      cases r with
      | cmd => exact .command v es hp h
      | operand r => cases h; exact .operand r v es hp rfl
      | status | result | chunkstat => cases h; exact .ignored _ v es hp (by decide) rfl

theorem step_cases {s t : State} (h : step s = .next t) : StepCase s t := by
  cases hp : s.pending with
  | nil =>
    rw [step, nextEvent, hp] at h
    cases h; exact .idle hp rfl
  | cons e es =>
    rw [step_of_pending hp] at h
    cases e with
    | hostWrite o bits v => exact hostWrite_cases hp h
    | hostRead o bits =>
      change Machine.hostRead o bits (s.setPending es) = .next t at h
      unfold Machine.hostRead at h
      split at h
      case isFalse => cases h
      case isTrue hg =>
        obtain ⟨rfl, -⟩ := (goodAccess_iff o bits).mp hg
        cases h; exact .hostRead o es hp rfl
    | hostLoad a n => cases h; exact .hostLoad a n es hp rfl
    | envWrite a bs => cases h; exact .envWrite a bs es hp rfl
    | platformReset => cases h; exact .platformReset es hp rfl

/-- A step whose event is a host write of `w` to `CMD`. -/
theorem step_command {s : State} {w : Word} {es : List BusEvent} (hp : s.pending = .hostWrite 0x00 32 w :: es) :
    step s = writeCmd w (s.setPending es) := by
  rw [step_of_pending hp]; exact hostWrite_windowOffset .cmd w _

theorem step_reset {s : State} {es : List BusEvent} (hp : s.pending = .platformReset :: es) :
    step s = .next (s.setPending es).afterReset := step_of_pending hp

theorem mem_unwrittenAtReset (r : WindowReg) :
    r ∈ unwrittenAtReset ↔ (r = .result ∨ r = .chunkstat ∨ ∃ p, r = .operand p) := by
  cases r with
  | operand p => cases p <;> simp [unwrittenAtReset]
  | _ => simp [unwrittenAtReset]

/-! ### What other steps leave as it was -/

/-- The next event is neither a host write to `CMD` nor the platform's reset. -/
structure NoCommandOrReset (s : State) : Prop where
  command : ∀ w es, s.pending ≠ .hostWrite 0x00 32 w :: es
  platformReset : ∀ es, s.pending ≠ .platformReset :: es

/-- `CMD` and the three registers a command answers in hold the same values. -/
structure SameOutcome (s t : State) : Prop where
  cmd : t.cmd = s.cmd
  status : t.status = s.status
  result : t.result = s.result
  chunkstat : t.chunkstat = s.chunkstat

/-- Such a step leaves `CMD` and the three registers a command answers in (R24 to R26, R28). -/
theorem step_keeps_outcome {s t : State} (hq : NoCommandOrReset s) (h : step s = .next t) :
    SameOutcome s t := by
  cases step_cases h with
  | idle hp ht => subst ht; exact ⟨rfl, rfl, rfl, rfl⟩
  | command w es hp ht => exact absurd hp (hq.command w es)
  | operand r v es hp ht => subst ht; exact ⟨rfl, rfl, rfl, rfl⟩
  | ignored o v es hp ho ht => subst ht; exact ⟨rfl, rfl, rfl, rfl⟩
  | hostRead o es hp ht => subst ht; rw [readWindow_only]; exact ⟨rfl, rfl, rfl, rfl⟩
  | hostLoad a n es hp ht => subst ht; exact ⟨rfl, rfl, rfl, rfl⟩
  | envWrite a bs es hp ht => subst ht; constructor <;> simp
  | platformReset es hp ht => exact absurd hp (hq.platformReset es)

theorem step_cfg {s t : State} (h : step s = .next t) : t.cfg = s.cfg := by
  cases step_cases h with
  | idle hp ht => rw [ht]
  | command w es hp ht => rw [writeCmd_only ht]; rfl
  | operand r v es hp ht => rw [ht]; rfl
  | ignored o v es hp ho ht => rw [ht]; rfl
  | hostRead o es hp ht => rw [ht, readWindow_only]; rfl
  | hostLoad a n es hp ht => rw [ht]; rfl
  | envWrite a bs es hp ht => rw [ht, State.pokeBytes_cfg]; rfl
  | platformReset es hp ht => rw [ht]; rfl

theorem step_operands {s t : State} (hw : ∀ r v es, s.pending ≠ .hostWrite (windowOffset (.operand r)) 32 v :: es)
    (hr : ∀ es, s.pending ≠ .platformReset :: es) (h : step s = .next t) : t.operands = s.operands := by
  cases step_cases h with
  | idle hp ht => rw [ht]
  | command w es hp ht => rw [writeCmd_only ht]; rfl
  | operand r v es hp ht => exact absurd hp (hw r v es)
  | ignored o v es hp ho ht => rw [ht]; rfl
  | hostRead o es hp ht => rw [ht, readWindow_only]; rfl
  | hostLoad a n es hp ht => rw [ht]; rfl
  | envWrite a bs es hp ht => rw [ht, State.pokeBytes_operands]; rfl
  | platformReset es hp ht => exact absurd hp (hr es)

/-! ### `STATUS` holds a legal value (R25) -/

theorem raiseCmdErr_status_legal (s : State) (e : CmdErr) : (s.raiseCmdErr e).status ∈ legalStatus := by
  rw [State.raiseCmdErr_status]
  cases e <;> decide

theorem writeCmd_status_legal {w : Word} {s t : State} (h : writeCmd w s = .next t) : t.status ∈ legalStatus := by
  obtain ⟨-, rfl⟩ | ⟨-, rfl⟩ | ⟨i, -, h⟩ := writeCmd_next h
  · exact raiseCmdErr_status_legal _ _
  · exact raiseCmdErr_status_legal _ _
  · exact exec_status_legal h

/-- Legal values of `STATUS` stay legal, whatever the step. -/
theorem step_status_legal {s t : State} (hs : s.status ∈ legalStatus) (h : step s = .next t) :
    t.status ∈ legalStatus := by
  by_cases hc : ∃ w es, s.pending = .hostWrite 0x00 32 w :: es
  · obtain ⟨w, es, hp⟩ := hc
    exact writeCmd_status_legal (step_command hp ▸ h)
  by_cases hr : ∃ es, s.pending = .platformReset :: es
  · obtain ⟨es, hp⟩ := hr
    rw [step_reset hp] at h; cases h
    exact List.mem_cons_self
  · have hq : NoCommandOrReset s := ⟨fun w es hp => hc ⟨w, es, hp⟩, fun es hp => hr ⟨es, hp⟩⟩
    exact (step_keeps_outcome hq h).status ▸ hs

/-! ### The invariant -/

theorem State.Inv.raiseCmdErr {s : State} (hs : s.Inv) (e : CmdErr) : (s.raiseCmdErr e).Inv :=
  { hs with status_legal := raiseCmdErr_status_legal s e }

theorem State.Inv.setCmd {s : State} (hs : s.Inv) (w : Word) : (s.setCmd w).Inv := { hs with }

theorem State.Inv.setPending {s : State} (hs : s.Inv) (es : List BusEvent) : (s.setPending es).Inv := { hs with }

theorem State.Inv.noteReads {s : State} (hs : s.Inv) (rs : List OperandReg) : (s.noteReads rs).Inv := by
  rw [State.noteReads_eq]; exact { hs with }

theorem State.Inv.setOperand {s : State} (hs : s.Inv) (r : OperandReg) (v : Word) : (s.setOperand r v).Inv :=
  { hs with unwritten_known := fun x hx => hs.unwritten_known x (List.mem_filter.mp hx).1 }

theorem State.Inv.readWindow {s : State} (hs : s.Inv) (r : Option WindowReg) : (readWindow r s).Inv := by
  rw [readWindow_only]; exact { hs with }

theorem State.Inv.hostLoad {s : State} (hs : s.Inv) (a : Word) (n : Nat) : (s.hostLoad a n).Inv := { hs with }

theorem State.Inv.pokeBytes {s : State} (hs : s.Inv) (a : Word) (bs : List Byte) : (s.pokeBytes a bs).Inv := by
  have hw := s.pokeBytes_writes a bs
  rw [hw.only]; exact { hs with mem_wf := hw.wf hs.mem_wf }

theorem State.Inv.afterReset {s : State} (hs : s.Inv) : s.afterReset.Inv where
  mem_wf := hs.mem_wf
  status_legal := by simp [legalStatus]
  result_legal := by simp [legalResults, unspecifiedAtReset]
  chunkstat_reserved := BitVec.extractLsb'_zero
  unwritten_known _ hr := hr
  cfg_wf := hs.cfg_wf

theorem op_chunkstat_reserved {i : Instr} {s t : State} (hs : s.chunkstat.extractLsb' 16 16 = 0)
    (h : opOf i s = .ok t) : t.chunkstat.extractLsb' 16 16 = 0 := by
  cases i with
  | eccpage lb =>
    obtain ⟨-, -, -, hup⟩ := pageOp_chunkstat h
    exact hup
  | _ => rw [op_chunkstat_of_ne h nofun]; exact hs

/-- A completed command keeps the invariant: its stores keep memory canonical, and the registers it writes get legal
values. -/
theorem State.Inv.complete_op {i : Instr} {s t : State} (hs : s.Inv) (h : opOf i s = .ok t) : t.complete.Inv where
  mem_wf := op_mem_wf (t := t) h hs.mem_wf
  status_legal := by simp [legalStatus]
  result_legal := by
    have hc : t.cfg = s.cfg := by rw [op_only h]
    rw [State.complete_result, State.complete_cfg, op_result h, hc]
    exact resultOf_legal i s
  chunkstat_reserved := op_chunkstat_reserved (t := t) hs.chunkstat_reserved h
  unwritten_known _ hr := hs.unwritten_known _ (List.mem_filter.mp (op_unwritten (t := t) h ▸ hr)).1
  cfg_wf := by rw [op_only h]; exact hs.cfg_wf

theorem State.Inv.exec {i : Instr} {s t : State} (hs : s.Inv) (h : exec i s = .next t) : t.Inv := by
  by_cases ha : basesAligned i s
  · obtain ⟨u, hu, rfl⟩ := exec_aligned_next ha h
    exact (hs.noteReads _).complete_op hu
  · rw [exec_misaligned_next ha h]
    exact (hs.noteReads _).raiseCmdErr _

theorem State.Inv.writeCmd {w : Word} {s t : State} (hs : s.Inv) (h : writeCmd w s = .next t) : t.Inv := by
  obtain ⟨-, rfl⟩ | ⟨-, rfl⟩ | ⟨i, -, h⟩ := writeCmd_next h
  · exact (hs.setCmd w).raiseCmdErr _
  · exact (hs.setCmd w).raiseCmdErr _
  · exact (hs.setCmd w).exec h

theorem State.Inv.step {s t : State} (hs : s.Inv) (h : step s = .next t) : t.Inv := by
  cases step_cases h with
  | idle hp ht => exact ht ▸ hs
  | command w es hp ht => exact (hs.setPending es).writeCmd ht
  | operand r v es hp ht => exact ht ▸ (hs.setPending es).setOperand r v
  | ignored o v es hp ho ht => exact ht ▸ hs.setPending es
  | hostRead o es hp ht => exact ht ▸ (hs.setPending es).readWindow _
  | hostLoad a n es hp ht => exact ht ▸ (hs.setPending es).hostLoad a n
  | envWrite a bs es hp ht => exact ht ▸ (hs.setPending es).pokeBytes a bs
  | platformReset es hp ht => exact ht ▸ (hs.setPending es).afterReset

theorem State.Inv.reset : State.reset.Inv where
  mem_wf := rfl
  status_legal := by decide
  result_legal := by decide
  chunkstat_reserved := rfl
  unwritten_known _ hr := hr
  cfg_wf := by decide

end Sys2Proof.Machine
end

section
/-! A command depends on memory, the parameters and the operand registers its row of R23 marks: from two states that
agree on those it stores the same bytes and answers the same, or stops with the same fault. -/

namespace Sys2Proof.Machine

open Sys2Proof Sys2Proof.Claims

/-- The two states agree on memory, the parameters and the operand registers listed. -/
structure AgreesOn (rs : List OperandReg) (s t : State) : Prop where
  mem : t.mem = s.mem
  cfg : t.cfg = s.cfg
  reg : ∀ r ∈ rs, t.reg r = s.reg r

section
variable {rs : List OperandReg} {s t : State} (h : AgreesOn rs s t)
include h

/-! ### What agreeing states read and store alike -/

theorem AgreesOn.peek (x : Word) : t.peek x = s.peek x := by simp [State.peek, h.mem]

theorem AgreesOn.spareAddr (hr : .sparePtr ∈ rs) (lb : PageSize) (e : Nat) : t.spareAddr lb e = s.spareAddr lb e := by
  simp [State.spareAddr, h.reg _ hr, h.cfg]

theorem AgreesOn.markerAddr (hr : .sparePtr ∈ rs) (lb : PageSize) : t.markerAddr lb = s.markerAddr lb := by
  simp [State.markerAddr, h.reg _ hr, h.cfg]

theorem AgreesOn.eccAddr (hr : .eccPtr ∈ rs) (k : Nat) : t.eccAddr k = s.eccAddr k := by
  simp [State.eccAddr, h.reg _ hr]

theorem AgreesOn.genAddr (hr : .genPtr ∈ rs) (k : Nat) : t.genAddr k = s.genAddr k := by
  simp [State.genAddr, h.reg _ hr]

theorem AgreesOn.chunkAddr (hr : .bufPtr ∈ rs) (k : Nat) : t.chunkAddr k = s.chunkAddr k := by
  simp [State.chunkAddr, h.reg _ hr]

theorem AgreesOn.correctAddr (hr : .bufPtr ∈ rs) (k : Nat) (err : Word) :
    t.correctAddr k err = s.correctAddr k err := by
  simp [State.correctAddr, h.chunkAddr hr, h.cfg]

theorem AgreesOn.descAddr (hr : .descPtr ∈ rs) (i j : Nat) : t.descAddr i j = s.descAddr i j := by
  simp [State.descAddr, h.reg _ hr]

theorem AgreesOn.poke (a : Word) (v : Byte) : AgreesOn rs (s.poke a v) (t.poke a v) :=
  ⟨by simp [h.mem], h.cfg, h.reg⟩

theorem AgreesOn.noteReads (qs : List OperandReg) : AgreesOn rs (s.noteReads qs) (t.noteReads qs) :=
  ⟨by simp [h.mem], by simp [h.cfg], by simpa using h.reg⟩

theorem AgreesOn.readByte (a : Word) : t.readByte a = s.readByte a := by
  rw [State.readByte, State.readByte, h.cfg, h.peek]

theorem AgreesOn.readWord (a : Word) : t.readWord a = s.readWord a := by
  simp only [State.readWord, State.peekWord, h.cfg, h.peek]

theorem AgreesOn.writeByte (a : Word) (v : Byte) : Alike (AgreesOn rs) (s.writeByte a v) (t.writeByte a v) := by
  unfold State.writeByte
  rw [h.cfg]
  split
  · exact h.poke a v
  · rfl

theorem AgreesOn.writeWord (a v : Word) : Alike (AgreesOn rs) (s.writeWord a v) (t.writeWord a v) := by
  unfold State.writeWord
  rw [h.cfg]
  split
  · exact (((h.poke _ _).poke _ _).poke _ _).poke _ _
  · rfl

end

/-! ### The loops -/

/-- Answers that are equal up to a related continuation. -/
theorem andThen_alike_of_eq {α β γ : Type} {Q : β → γ → Prop} {r r' : Except Fault α} {f : α → Except Fault β}
    {g : α → Except Fault γ} (h : r' = r) (hf : ∀ a, Alike Q (f a) (g a)) : Alike Q (andThen r f) (andThen r' g) := by
  subst h
  cases r' with
  | ok a => exact hf a
  | error e => rfl

theorem forEach_alike_of {R : State → State → Prop} {f : Nat → State → Except Fault State}
    (hf : ∀ k s t, R s t → Alike R (f k s) (f k t)) (ks : List Nat) {s t : State} (h : R s t) :
    Alike R (forEach f ks s) (forEach f ks t) := by
  induction ks generalizing s t with
  | nil => exact h
  | cons k ks ih => exact andThen_alike (hf k s t h) fun a b hab => ih hab

section
variable {rs : List OperandReg} {s t : State} (h : AgreesOn rs s t)
include h

theorem AgreesOn.packChunk (hsp : .sparePtr ∈ rs) (hec : .eccPtr ∈ rs) (lb : PageSize) (k : Nat) :
    Alike (AgreesOn rs) (packChunk lb k s) (packChunk lb k t) := by
  unfold Machine.packChunk
  rw [h.eccAddr hec, h.spareAddr hsp]
  refine andThen_alike_of_eq (h.readWord _) fun v => ?_
  refine andThen_alike (h.writeByte _ _) fun s1 t1 h1 => ?_
  rw [h1.spareAddr hsp]
  refine andThen_alike (h1.writeByte _ _) fun s2 t2 h2 => ?_
  rw [h2.spareAddr hsp]
  exact h2.writeByte _ _

theorem AgreesOn.unpackChunk (hsp : .sparePtr ∈ rs) (hec : .eccPtr ∈ rs) (lb : PageSize) (k : Nat) :
    Alike (AgreesOn rs) (unpackChunk lb k s) (unpackChunk lb k t) := by
  unfold Machine.unpackChunk
  simp only [h.eccAddr hec, h.spareAddr hsp]
  refine andThen_alike_of_eq (h.readByte _) fun b2 => ?_
  refine andThen_alike_of_eq (h.readByte _) fun b1 => ?_
  refine andThen_alike_of_eq (h.readByte _) fun b0 => ?_
  exact h.writeWord _ _

theorem AgreesOn.correctBit (hbu : .bufPtr ∈ rs) (idx : Nat) (err : Word) :
    Alike (AgreesOn rs) (correctBit idx err s) (correctBit idx err t) := by
  unfold Machine.correctBit
  rw [h.correctAddr hbu, h.cfg]
  exact andThen_alike_of_eq (h.readByte _) fun b => h.writeByte _ _

theorem AgreesOn.correctChunk (hec : .eccPtr ∈ rs) (hge : .genPtr ∈ rs) (hbu : .bufPtr ∈ rs) (idx : Nat) :
    Alike (fun a b => b.1 = a.1 ∧ AgreesOn rs a.2 b.2) (correctChunk idx s) (correctChunk idx t) := by
  unfold Machine.correctChunk
  rw [h.eccAddr hec, h.genAddr hge]
  refine andThen_alike_of_eq (h.readWord _) fun g => ?_
  refine andThen_alike_of_eq (h.readWord _) fun st => ?_
  unfold correctBranch
  cases classifyErr (st ^^^ g) with
  | corrected => exact andThen_alike (h.correctBit hbu idx _) fun a b hab => ⟨rfl, hab⟩
  | noErr | areaErr | notCorrectable => exact ⟨rfl, h⟩

theorem AgreesOn.correctChunks (hec : .eccPtr ∈ rs) (hge : .genPtr ∈ rs) (hbu : .bufPtr ∈ rs) (lb : PageSize)
    (is : List Nat) (a : PageAcc) :
    Alike (fun x y => y.1 = x.1 ∧ AgreesOn rs x.2 y.2) (correctChunks lb is a s) (correctChunks lb is a t) := by
  induction is generalizing a s t with
  | nil => exact ⟨rfl, h⟩
  | cons i is ih =>
    unfold Machine.correctChunks
    refine andThen_alike (h.correctChunk hec hge hbu i) fun x y hxy => ?_
    rw [hxy.1, h.cfg]
    exact ih hxy.2 _

theorem AgreesOn.descriptorAt (hrs : ∀ r, r ≠ .eccPtr → r ∈ rs) (lb : PageSize) (wr : Direction) (i : Nat) :
    descriptorAt t lb wr i = descriptorAt s lb wr i := by
  have hreg : ∀ r, r ≠ .eccPtr → t.reg r = s.reg r := fun r hr => h.reg r (hrs r hr)
  simp [Machine.descriptorAt, descAddrs, nextPointer, hreg, h.cfg, h.chunkAddr (hrs _ nofun), h.genAddr (hrs _ nofun)]

theorem AgreesOn.buildDescriptor (hrs : ∀ r, r ≠ .eccPtr → r ∈ rs) (lb : PageSize) (wr : Direction) (i : Nat) :
    Alike (AgreesOn rs) (buildDescriptor lb wr i s) (buildDescriptor lb wr i t) := by
  have hde : .descPtr ∈ rs := hrs _ nofun
  unfold Machine.buildDescriptor writeDescriptor
  rw [h.descriptorAt hrs, h.descAddr hde]
  refine andThen_alike (h.writeWord _ _) fun s1 t1 h1 => ?_
  rw [h1.descAddr hde]
  refine andThen_alike (h1.writeWord _ _) fun s2 t2 h2 => ?_
  rw [h2.descAddr hde]
  refine andThen_alike (h2.writeWord _ _) fun s3 t3 h3 => ?_
  rw [h3.descAddr hde]
  exact h3.writeWord _ _

end

/-! ### Whole commands (R23, R29) -/

/-- Two completed operations of a command left the same memory and the same values in the registers it writes. -/
structure SameAnswer (i : Instr) (s t : State) : Prop where
  mem : t.mem = s.mem
  result : t.result = s.result
  chunkstat : ∀ lb, i = .eccpage lb → t.chunkstat = s.chunkstat

theorem AgreesOn.op (i : Instr) {s t : State} (h : AgreesOn (registersOf i) s t) :
    Alike (SameAnswer i) (opOf i s) (opOf i t) := by
  cases i with
  | eccpack count =>
    simp only [opOf, packOp]
    cases pageOfCount count with
    | none => exact ⟨h.mem, rfl, nofun⟩
    | some lb =>
      exact andThen_alike (forEach_alike_of (fun k s t h => h.packChunk (by simp [registersOf]) (by simp [registersOf])
        lb k) _ h) fun a b hab => ⟨hab.mem, rfl, nofun⟩
  | eccunpack count =>
    simp only [opOf, unpackOp]
    cases pageOfCount count with
    | none => exact ⟨h.mem, rfl, nofun⟩
    | some lb =>
      exact andThen_alike (forEach_alike_of (fun k s t h => h.unpackChunk (by simp [registersOf])
        (by simp [registersOf]) lb k) _ h) fun a b hab => ⟨hab.mem, rfl, nofun⟩
  | ecccorr idx =>
    refine andThen_alike (h.correctChunk (by simp [registersOf]) (by simp [registersOf]) (by simp [registersOf]) idx)
      fun a b hab => ⟨hab.2.mem, ?_, nofun⟩
    rw [State.setResult_result, State.setResult_result, hab.1, h.cfg]
  | eccpage lb =>
    refine andThen_alike (forEach_alike_of (fun k s t h => h.unpackChunk (by simp [registersOf])
      (by simp [registersOf]) lb k) _ h) fun u v huv => ?_
    refine andThen_alike (huv.correctChunks (by simp [registersOf]) (by simp [registersOf]) (by simp [registersOf]) lb
      _ _) fun a b hab => ⟨hab.2.mem, ?_, fun _ _ => ?_⟩
    · rw [State.setResult_result, State.setResult_result, hab.1]
    · rw [State.setResult_chunkstat, State.setResult_chunkstat, State.setChunkstat_chunkstat,
        State.setChunkstat_chunkstat, hab.1]
  | bbcheck lb =>
    simp only [opOf, checkOp, h.markerAddr (by simp [registersOf]), h.cfg]
    exact andThen_alike_of_eq (h.readByte _) fun m => ⟨h.mem, rfl, nofun⟩
  | bbmark lb =>
    simp only [opOf, markOp, h.markerAddr (by simp [registersOf])]
    exact andThen_alike (h.writeByte _ _) fun a b hab => ⟨hab.mem, rfl, nofun⟩
  | dmabuild lb wr =>
    have hrs : ∀ r, r ≠ .eccPtr → r ∈ registersOf (.dmabuild lb wr) := fun r hr => by
      cases r <;> simp [registersOf] at hr ⊢
    exact andThen_alike (forEach_alike_of (fun k s t h => h.buildDescriptor hrs lb wr k) _ h)
      fun a b hab => ⟨hab.mem, rfl, nofun⟩

theorem markedA_subset (i : Instr) {r : OperandReg} (hr : r ∈ markedA i) : r ∈ registersOf i := by
  rw [← mem_readRegs_iff, readRegs_eq_marked]
  exact List.mem_append_left _ hr

theorem AgreesOn.basesAligned {i : Instr} {s t : State} (h : AgreesOn (registersOf i) s t) :
    basesAligned i t ↔ basesAligned i s := by
  rw [← operandsAligned_iff, ← operandsAligned_iff, operandsAligned, operandsAligned, alignedRegs_eq_markedA,
    List.all_eq_true, List.all_eq_true]
  exact forall₂_congr fun r hr => by rw [h.reg r (markedA_subset i hr)]

theorem testedRegs_congr {s t : State} {rs : List OperandReg} (h : ∀ r ∈ rs, t.reg r = s.reg r) :
    testedRegs t rs = testedRegs s rs := by
  induction rs with
  | nil => rfl
  | cons r rs ih =>
    simp only [testedRegs, h r List.mem_cons_self, ih fun q hq => h q (List.mem_cons_of_mem _ hq)]

/-- The mark after reading registers is a matter of the mark and the registers nothing has written. -/
theorem noteReads_mark_congr {s t : State} (hm : t.mark = s.mark) (hu : t.unwritten = s.unwritten)
    (rs : List OperandReg) : (t.noteReads rs).mark = (s.noteReads rs).mark := by
  rw [State.noteReads_mark, State.noteReads_mark, hm, hu]

/-- An accepted command stops in both states with the same fault, or completes in both with the same answer. -/
theorem AgreesOn.exec_cases {i : Instr} {s t : State} (h : AgreesOn (registersOf i) s t)
    (ha : Claims.basesAligned i s) :
    (∃ e, exec i s = .fault e ∧ exec i t = .fault e) ∨
    (∃ a b, opOf i (s.noteReads (readRegs i)) = .ok a ∧ opOf i (t.noteReads (readRegs i)) = .ok b ∧
      SameAnswer i a b ∧ exec i s = .next a.complete ∧ exec i t = .next b.complete) := by
  have hop := (h.noteReads (readRegs i)).op
  rw [exec_aligned i s ((operandsAligned_iff i s).mpr ha),
    exec_aligned i t ((operandsAligned_iff i t).mpr (h.basesAligned.mpr ha))]
  cases hs : opOf i (s.noteReads (readRegs i)) with
  | error e =>
    cases ht : opOf i (t.noteReads (readRegs i)) with
    | error e' => rw [hs, ht] at hop; cases hop; exact .inl ⟨_, rfl, rfl⟩
    | ok b => rw [hs, ht] at hop; cases hop
  | ok a =>
    cases ht : opOf i (t.noteReads (readRegs i)) with
    | error e' => rw [hs, ht] at hop; cases hop
    | ok b => rw [hs, ht] at hop; exact .inr ⟨a, b, rfl, rfl, hop, rfl, rfl⟩

/-- With other values in the registers its row of R23 does not mark, a command does the same beside them. -/
theorem exec_withOperands {i : Instr} {s : State} {f : OperandFile}
    (h : AgreesOn (registersOf i) s { s with operands := f }) :
    exec i { s with operands := f } = mapNext (fun t => { t with operands := f }) (exec i s) := by
  have hmark := noteReads_mark_congr (s := s) (t := { s with operands := f }) rfl rfl
  by_cases ha : basesAligned i s
  · obtain ⟨e, hs, ht⟩ | ⟨a, b, hsa, htb, hab, hs, ht⟩ := h.exec_cases ha
    · rw [hs, ht]; rfl
    · have hcs : b.chunkstat = a.chunkstat := by
        by_cases hi : ∃ lb, i = .eccpage lb
        · obtain ⟨lb, hi⟩ := hi; exact hab.chunkstat lb hi
        · rw [op_chunkstat_of_ne htb (not_exists.mp hi), op_chunkstat_of_ne hsa (not_exists.mp hi)]; simp
      have hb : b = { a with operands := f } := by
        rw [op_only htb, op_only hsa, hab.mem, hab.result, hcs, op_unwritten htb, op_unwritten hsa, State.mk.injEq]
        simp [hmark]
      rw [hs, ht, hb]; rfl
  · rw [exec_misaligned ha, exec_misaligned (mt h.basesAligned.mp ha),
      testedRegs_congr fun r hr => h.reg r (markedA_subset i hr), State.noteReads_eq,
      State.noteReads_eq (s := s), hmark]
    rfl

/-- From states that differ in `CMD`, `STATUS`, `RESULT` and `CHUNKSTAT` a command goes to the same outcome (R29). -/
theorem exec_withOutcome (i : Instr) (s : State) (c st r cs : Word) :
    (∃ e, exec i s = .fault e ∧
      exec i { s with cmd := c, status := st, result := r, chunkstat := cs } = .fault e) ∨
    (∃ t u, exec i s = .next t ∧
      exec i { s with cmd := c, status := st, result := r, chunkstat := cs } = .next u ∧
      u.mem = t.mem ∧ u.status = t.status ∧ u.operands = t.operands ∧ u.mark = t.mark ∧
      (t.status = 0x00000001 → u.result = t.result ∧ ∀ lb, i = .eccpage lb → u.chunkstat = t.chunkstat)) := by
  have h : AgreesOn (registersOf i) s { s with cmd := c, status := st, result := r, chunkstat := cs } :=
    ⟨rfl, rfl, fun _ _ => rfl⟩
  have hmark := noteReads_mark_congr (s := s)
    (t := { s with cmd := c, status := st, result := r, chunkstat := cs }) rfl rfl
  by_cases ha : basesAligned i s
  · obtain ⟨e, hs, ht⟩ | ⟨a, b, hsa, htb, hab, hs, ht⟩ := h.exec_cases ha
    · exact .inl ⟨e, hs, ht⟩
    · refine .inr ⟨_, _, hs, ht, hab.mem, rfl, ?_, ?_, fun _ => ⟨hab.result, hab.chunkstat⟩⟩
      · rw [exec_only hs, exec_only ht]
      · rw [State.complete_mark, State.complete_mark, op_only htb, op_only hsa]; exact hmark _
  · refine .inr ⟨_, _, exec_misaligned ha, exec_misaligned (mt h.basesAligned.mp ha), ?_, rfl, ?_, ?_, ?_⟩
    · simp
    · simp
    · rw [testedRegs_congr fun r hr => h.reg r (markedA_subset i hr)]; exact hmark _
    · exact fun hst => absurd hst (by rw [State.raiseCmdErr_status]; decide)

end Sys2Proof.Machine
end

section
/-! The obligations of 10_state.md, each from the lemmas above. -/

namespace Sys2Proof.Machine

open Sys2Proof Sys2Proof.Claims

/-- Settles O20: each case of a step keeps the invariant. -/
theorem stepKeepsInvariant : Obligations.StepKeepsInvariant := fun _ _ hs h => hs.step h

/-- Settles O7: each way a `CMD` write can end leaves the word there, and no other step but a reset writes `CMD`. -/
theorem cmdHoldsTheWordWritten : Obligations.CmdHoldsTheWordWritten := by
  have hcmd : ∀ (s t : State) (w : Word), writeCmd w s = .next t → t.cmd = w := fun s t w h => by
    rw [writeCmd_only h]
  refine ⟨hcmd, fun s t w es hp h => ?_, fun s t hw hr h => (step_keeps_outcome ⟨hw, hr⟩ h).cmd⟩
  exact hcmd _ t w (step_command hp ▸ h)

/-- Settles O11: by class and alignment of the word written, and by the steps that leave `STATUS`. -/
theorem statusFollowsEveryCommandWrite : Obligations.StatusFollowsEveryCommandWrite := by
  refine ⟨fun s t w es hp h => ?_, fun s t hw hr h => (step_keeps_outcome ⟨hw, hr⟩ h).status, fun s t es hp h => ?_,
    fun s t => step_status_legal, by simp [legalStatus, statusDone, statusCmdErr], by decide,
    fun e => by cases e <;> decide⟩
  · rw [step_command hp] at h
    obtain ⟨hd, rfl⟩ | ⟨hd, rfl⟩ | ⟨i, hd, h⟩ := writeCmd_next h
    · simp [hd, CmdErr.code]
    · simp [hd, CmdErr.code]
    · have hin : AgreesOn (registersOf i) s ((s.setPending es).setCmd w) := ⟨rfl, rfl, fun _ _ => rfl⟩
      have hb := hin.basesAligned
      refine ⟨by simp [hd], by simp [hd], fun i' hi' => ?_⟩
      rw [hd] at hi'; cases hi'
      exact ⟨fun ha => exec_status_misaligned (mt hb.mp ha) h, fun ha => exec_status_aligned (hb.mpr ha) h⟩
  · rw [step_reset hp] at h; cases h; rfl

/-- Settles O12: the value of each row, a rejected word, and the steps that leave `RESULT`. -/
theorem resultFollowsEveryAcceptedCommand : Obligations.ResultFollowsEveryAcceptedCommand := by
  refine ⟨fun i s t ha h => ?_, fun i s t ha h => exec_result_misaligned ha h, fun s t w hw h => ?_,
    fun s t hw hr h => (step_keeps_outcome ⟨hw, hr⟩ h).result⟩
  · have hres := exec_result ha h
    cases i with
    | eccpack count | eccunpack count | bbcheck lb | bbmark lb => exact hres
    | ecccorr idx => rw [hres, resultOf, classifyErr_eq_outcomeOf]
    | eccpage lb =>
      rw [resultOf] at hres
      constructor
      · rintro ⟨o, ho, hf⟩
        rw [hres, List.any_eq_true.mpr ⟨o, ho, hf⟩]; rfl
      · intro hok
        rw [hres, List.any_eq_false.mpr fun o ho => by simp [hok o ho]]
        cases lb <;> rfl
    | dmabuild lb wr => cases lb <;> exact hres
  · obtain ⟨-, rfl⟩ | ⟨-, rfl⟩ | ⟨i, hd, -⟩ := writeCmd_next h
    · rfl
    · rfl
    · exact absurd hd (hw i)

/-- Settles O13: the fields of the correction loop's value, and the commands and steps that leave `CHUNKSTAT`. -/
theorem chunkstatFollowsEccpage : Obligations.ChunkstatFollowsEccpage := by
  refine ⟨fun lb s t ha h => ?_, fun i s t hi h => ?_, fun s t hw hr h => (step_keeps_outcome ⟨hw, hr⟩ h).chunkstat⟩
  · obtain ⟨u, hu, rfl⟩ := exec_aligned_next ha h
    have hcs := pageOp_chunkstat hu
    rwa [pageOutcomes_same lb (SameInputs.noteReads s _), State.noteReads_cfg] at hcs
  · obtain hi | ha := hi
    · exact exec_chunkstat_of_ne hi h
    · exact exec_chunkstat_misaligned ha h

/-- Settles O17: the states agree on the registers the row marks. -/
theorem commandReadsOnlyItsRegisters : Obligations.CommandReadsOnlyItsRegisters :=
  fun _ _ _ hf => exec_withOperands { mem := rfl, cfg := rfl, reg := hf }

/-- Settles O18: the two runs fault alike or complete alike. -/
theorem commandIgnoresEarlierOutcome : Obligations.CommandIgnoresEarlierOutcome := by
  intro i s c st r cs
  obtain ⟨e, hs, ht⟩ | ⟨t, u, hs, ht, hsame⟩ := exec_withOutcome i s c st r cs
  · rw [hs, ht]
  · rw [hs, ht]; exact hsame

/-- Settles O19: the mark is the one left by the registers read, all of them or up to the first misaligned one. -/
theorem unwrittenOperandMarksTheRun : Obligations.UnwrittenOperandMarksTheRun := by
  intro i s t h
  refine ⟨fun m hm => ?_, fun hm ha => ?_, fun hm ha => ?_, readRegs_eq_marked i, mem_readRegs_iff i⟩
  · by_cases ha : basesAligned i s
    · rw [exec_mark_aligned ha h, markAfterCommand, markAfter_of_marked hm]
    · rw [exec_mark_misaligned ha h, markAfterRejection, markAfter_of_marked hm]
  · rw [exec_mark_aligned ha h, markAfterCommand, markAfter_of_unmarked hm, readRegs_eq_marked]
  · rw [exec_mark_misaligned ha h, markAfterRejection, markAfter_of_unmarked hm]

/-- Settles O22: no case of a step writes the parameters. -/
theorem parametersAreFixedForARun : Obligations.ParametersAreFixedForARun := fun _ _ h => step_cfg h

/-- Settles O25: by the register, if any, at the offset. -/
theorem windowAccessRules : Obligations.WindowAccessRules := by
  refine ⟨fun s r => ?_, fun s o ho h4 => ?_, fun s v => ⟨?_, ?_, ?_⟩, fun s o bits v hbad => ?_⟩
  · rw [hostRead_windowOffset, State.noteHostRead_eq, State.noteHostRead_mark]; rfl
  · have hg : goodAccess o 32 = true := (goodAccess_iff o 32).mpr ⟨rfl, h4⟩
    exact ⟨by rw [hostRead, if_pos hg, windowReg_reserved ho]; rfl,
      fun v => by rw [hostWrite, if_pos hg, windowReg_reserved ho]; rfl⟩
  · exact hostWrite_windowOffset .status v s
  · exact hostWrite_windowOffset .result v s
  · exact hostWrite_windowOffset .chunkstat v s
  · have hg : ¬ goodAccess o bits = true := fun hg => by
      obtain ⟨hb, h4⟩ := (goodAccess_iff o bits).mp hg
      exact hbad.elim (· hb) (· h4)
    exact ⟨if_neg hg, if_neg hg⟩

/-- Settles O26: a host write sets its register and no other, and no case of a step but that one and a reset writes an
operand register. -/
theorem operandRegistersHoldWhatTheHostWrote : Obligations.OperandRegistersHoldWhatTheHostWrote := by
  refine ⟨fun s r v es hp => ?_, fun s t hw hr h => step_operands hw hr h⟩
  refine ⟨(s.setPending es).setOperand r v, ?_, OperandFile.get_set_same _ r v,
    fun q hq => OperandFile.get_set_other _ r q v hq, rfl, rfl, by simp⟩
  rw [step_of_pending hp]
  exact hostWrite_windowOffset (.operand r) v _

/-- Settles O27: what the bytes written read as, and the frame of the write. -/
theorem environmentWritesLand : Obligations.EnvironmentWritesLand := by
  intro s a bs es hl hp
  have hw := (s.setPending es).pokeBytes_writes a bs
  refine ⟨_, step_of_pending hp, hw.only, fun j hj => State.peek_pokeBytes _ a bs hl j hj, fun x hx => ?_⟩
  exact hw.frame x fun ⟨j, hj, e⟩ => hx j hj e

/-- Settles O6: the write reaches `CMD`, whose word is decoded; `withFetchWord` places that write. -/
theorem stepRunsDecodedCommand : Obligations.StepRunsDecodedCommand := by
  have hrun : ∀ (s : State) (w : Word) (i : Instr) (es : List BusEvent),
      s.pending = .hostWrite 0x00 32 w :: es → decode w = .legal i →
      step s = exec i { s with pending := es, cmd := w } := fun s w i es hp hd => by
    rw [step_command hp, writeCmd_legal hd]; rfl
  refine ⟨hrun, fun s nbits w i hd => ?_⟩
  have hw : decode (BitVec.ofNat 32 (tableWord nbits w)) = .legal i := by
    unfold decodeTableWord at hd
    split at hd
    case isFalse => cases hd
    case isTrue =>
      split at hd
      case h_1 i' hi' => cases hd; exact hi'
      case h_2 | h_3 => cases hd
  exact hrun _ _ i s.pending rfl hw

/-- Settles O8: with nothing pending the next event is none. -/
theorem idleStepChangesNothing : Obligations.IdleStepChangesNothing := fun s hp => by
  rw [step, nextEvent, hp]

/-- Settles O21. -/
theorem resetMeetsInvariant : Obligations.ResetMeetsInvariant := State.Inv.reset

/-- Settles O23. -/
theorem resetValues : Obligations.ResetValues :=
  ⟨rfl, rfl, fun _ _ hp => ⟨_, step_reset hp, rfl, rfl, rfl, rfl, rfl, rfl, mem_unwrittenAtReset⟩⟩

/-- Settles O24. -/
theorem windowOffsets : Obligations.WindowOffsets :=
  ⟨rfl, fun _ => windowReg_reserved, windowReg_windowOffset⟩

end Sys2Proof.Machine
end

section
/-! Admission of a byte and of a word, what one access to memory answers, the addresses a command forms, and the frame
of a command. -/

namespace Sys2Proof.Machine

open Sys2Proof Sys2Proof.Claims

/-! ### Admission (R51) -/

/-- An address is in a range when it lies fewer than `size` bytes above the base, modulo 2^32. -/
theorem inRange_iff (base : Word) (size : Nat) (a : Word) :
    inRange base size a = true ↔ ∃ k < size, a = addrAt base k := by
  rw [inRange, decide_eq_true_iff]
  constructor
  · have hback : addrAt base (a - base).toNat = a := by
      rw [addrAt, BitVec.ofNat_toNat, BitVec.setWidth_eq, BitVec.add_comm, BitVec.sub_add_cancel]
    exact fun h => ⟨(a - base).toNat, h, hback.symm⟩
  · rintro ⟨k, hk, rfl⟩
    rw [addrAt, BitVec.add_comm, BitVec.add_sub_cancel, BitVec.toNat_ofNat]
    exact (Nat.mod_le k _).trans_lt hk

theorem admits_iff (c : Config) (a : Word) :
    admits c a = true ↔ (¬ ∃ k < 64, a = addrAt c.regBase k) ∧ ∃ r ∈ c.admitted, ∃ k < r.size, a = addrAt r.base k := by
  simp only [admits, inWindow, Bool.and_eq_true, Bool.not_eq_true', ← Bool.not_eq_true, inRange_iff, List.any_eq_true]

/-- A word is admitted when its four bytes are (R52, R53). -/
theorem admitsWord_iff (c : Config) (a : Word) : admitsWord c a = true ↔ ∀ j < 4, admits c (addrAt a j) = true := by
  simp only [Nat.forall_lt_succ_left, Nat.not_lt_zero, false_implies, implies_true, and_true, admitsWord,
    Bool.and_eq_true, and_assoc, addrAt_zero, Nat.reduceAdd]

theorem admitsWord_eq_false {c : Config} {a : Word} {j : Nat} (hj : j < 4) (h : admits c (addrAt a j) = false) :
    admitsWord c a = false := by
  rw [← Bool.not_eq_true, admitsWord_iff]
  exact fun hall => Bool.eq_false_iff.mp h (hall j hj)

/-! ### One access (R52 to R54) -/

theorem State.readByte_admitted {s : State} {a : Word} (h : admits s.cfg a = true) : s.readByte a = .ok (s.peek a) :=
  if_pos h

theorem State.readByte_unadmitted {s : State} {a : Word} (h : ¬ admits s.cfg a = true) :
    s.readByte a = .error (.memFault a) := if_neg h

theorem State.readWord_admitted {s : State} {a : Word} (h : admitsWord s.cfg a = true) :
    s.readWord a = .ok (s.peekWord a) := if_pos h

theorem State.readWord_unadmitted {s : State} {a : Word} (h : ¬ admitsWord s.cfg a = true) :
    s.readWord a = .error (.memFault a) := if_neg h

theorem State.writeByte_admitted {s : State} {a : Word} (v : Byte) (h : admits s.cfg a = true) :
    s.writeByte a v = .ok (s.poke a v) := if_pos h

theorem State.writeByte_unadmitted {s : State} {a : Word} (v : Byte) (h : ¬ admits s.cfg a = true) :
    s.writeByte a v = .error (.memFault a) := if_neg h

theorem State.writeWord_admitted {s : State} {a : Word} (v : Word) (h : admitsWord s.cfg a = true) :
    s.writeWord a v = .ok (s.pokeWord a v) := if_pos h

theorem State.writeWord_unadmitted {s : State} {a : Word} (v : Word) (h : ¬ admitsWord s.cfg a = true) :
    s.writeWord a v = .error (.memFault a) := if_neg h

/-! ### Addresses (R56, R58) -/

/-- An address is base plus offset, modulo 2^32 (R58). -/
theorem addrAt_toNat (base : Word) (offset : Nat) : (addrAt base offset).toNat = (base.toNat + offset) % 2 ^ 32 := by
  simp [addrAt]

/-- A multiple of 4 above an aligned base is aligned (R56). -/
theorem aligned4_addrAt {base : Word} {offset : Nat} (hb : aligned4 base) (ho : offset % 4 = 0) :
    aligned4 (addrAt base offset) := by
  rw [aligned4, addrAt_toNat]
  unfold aligned4 at hb
  omega

/-- A number assembled from `n` bits is below `2^n` (R118). -/
theorem gatherBits_lt (v : Word) (ps : List (Fin 32)) : gatherBits v ps < 2 ^ ps.length := by
  induction ps with
  | nil => simp [gatherBits]
  | cons p ps ih =>
    have hbit := Bool.toNat_lt (v.getLsbD p.val)
    rw [gatherBits, List.length_cons, Nat.pow_succ]
    omega

theorem byteOff_lt (c : Config) (err : Word) : byteOff c err < 256 := by
  simpa [byteOff] using gatherBits_lt err c.byteSel.toList

theorem layoutEntry_small (c : Config) (e : Fin 6) : layoutEntry c .small e = (c.spLayout[e]).val := by
  simp [layoutEntry]

theorem layoutEntry_large (c : Config) (e : Fin 24) : layoutEntry c .large e = (c.lpLayout[e]).val := by
  simp [layoutEntry]

theorem State.correctAddr_eq (s : State) (idx : Nat) (err : Word) :
    s.correctAddr idx err = addrAt (s.reg .bufPtr) (256 * idx + byteOff s.cfg err) :=
  addrAt_addrAt _ _ _

/-! ### The frame of a command (R57) -/

/-- A command that completes or is rejected leaves every byte it does not store to (R57). -/
theorem exec_peek {i : Instr} {s t : State} (h : exec i s = .next t) {x : Word} (hx : ¬ storesTo i s x) :
    t.peek x = s.peek x := by
  by_cases ha : basesAligned i s
  · obtain ⟨u, hu, rfl⟩ := exec_aligned_next ha h
    obtain ⟨v, r, hw, hv⟩ := op_writes _ _ _ hu
    have hframe := hw.frame x (mt (storesTo_same i (SameInputs.noteReads s _) x).mp hx)
    rw [State.peek_noteReads] at hframe
    obtain ⟨-, rfl⟩ | ⟨lb, cs, -, rfl⟩ := hv <;> exact hframe
  · rw [exec_misaligned_next ha h]; simp

/-- Of the registers nothing has written, those an accepted command writes leave the list, and none joins it (R34). -/
theorem exec_unwritten {i : Instr} {s t : State} (ha : basesAligned i s) (h : exec i s = .next t) :
    t.unwritten = s.unwritten.filter fun r => decide (r ∉ writtenRegs i) := by
  obtain ⟨u, hu, rfl⟩ := exec_aligned_next ha h
  rw [State.complete_unwritten, op_unwritten hu, State.noteReads_unwritten]

theorem exec_unwritten_misaligned {i : Instr} {s t : State} (ha : ¬ basesAligned i s) (h : exec i s = .next t) :
    t.unwritten = s.unwritten := by
  rw [exec_misaligned_next ha h]; simp

theorem exec_mem_misaligned {i : Instr} {s t : State} (ha : ¬ basesAligned i s) (h : exec i s = .next t) :
    t.mem = s.mem := by
  rw [exec_misaligned_next ha h]; simp

/-- A command writes no register but `RESULT` and `CHUNKSTAT` (R26, R28). -/
theorem mem_writtenRegs {i : Instr} {r : WindowReg} (h : r ∈ writtenRegs i) : r = .result ∨ r = .chunkstat := by
  cases i with
  | eccpage lb => simpa [writtenRegs] using h
  | _ => exact .inl (List.mem_singleton.mp h)

theorem exec_keeps_mark {i : Instr} {s t : State} {m : Mark} (h : exec i s = .next t) (hm : s.mark = some m) :
    t.mark = some m := by
  by_cases ha : basesAligned i s
  · rw [exec_mark_aligned ha h, markAfterCommand, markAfter_of_marked hm]
  · rw [exec_mark_misaligned ha h, markAfterRejection, markAfter_of_marked hm]

end Sys2Proof.Machine
end

section
/-! Where a command stops. A piece of an operation performs a list of accesses: at the first of them that touches a byte
not admitted it stops with the model fault of that access, and with no such access it completes. -/

namespace Sys2Proof.Machine

open Sys2Proof Sys2Proof.Claims

/-! ### The first access not admitted (R51, R174) -/

theorem accessAdmitted_byte_iff (c : Config) (a : Word) : accessAdmitted c (a, 1) ↔ admits c a = true := by
  simp [accessAdmitted]

theorem accessAdmitted_word_iff (c : Config) (a : Word) : accessAdmitted c (a, 4) ↔ admitsWord c a = true :=
  (admitsWord_iff c a).symm

/-- The fault of the first listed access that touches a byte not admitted (R174). -/
def firstFault (c : Config) (xs : List (Word × Nat)) : Option Fault :=
  (xs.find? fun x => decide (¬ accessAdmitted c x)).map fun x => .memFault x.1

theorem firstFault_append (c : Config) (xs ys : List (Word × Nat)) :
    firstFault c (xs ++ ys) = (firstFault c xs).or (firstFault c ys) := by
  rw [firstFault, List.find?_append, Option.map_or]; rfl

theorem firstFault_of_admitted {c : Config} {x : Word × Nat} (h : accessAdmitted c x) : firstFault c [x] = none := by
  simp only [firstFault, List.find?_singleton, decide_not, decide_eq_true h]; rfl

theorem firstFault_of_unadmitted {c : Config} {x : Word × Nat} (h : ¬ accessAdmitted c x) :
    firstFault c [x] = some (.memFault x.1) := by
  simp only [firstFault, List.find?_singleton, decide_not, decide_eq_false h]; rfl

theorem firstFault_eq_none_iff (c : Config) (xs : List (Word × Nat)) :
    firstFault c xs = none ↔ ∀ x ∈ xs, accessAdmitted c x := by
  simp only [firstFault, Option.map_eq_none_iff, List.find?_eq_none, decide_eq_true_iff, not_not]

theorem firstFault_of_find {c : Config} {xs : List (Word × Nat)} {a : Word} {n : Nat}
    (h : xs.find? (fun x => decide (¬ accessAdmitted c x)) = some (a, n)) :
    firstFault c xs = some (.memFault a) := by
  rw [firstFault, h]; rfl

/-- A fault that names an address one of whose four bytes is not admitted. -/
def FaultUnadmitted (c : Config) (e : Fault) : Prop := ∃ a j, e = .memFault a ∧ j < 4 ∧ admits c (addrAt a j) = false

/-- The first fault of accesses of a word at most names an address one of whose four bytes is not admitted. -/
theorem firstFault_unadmitted {c : Config} {xs : List (Word × Nat)} {e : Fault} (hw : ∀ x ∈ xs, x.2 ≤ 4)
    (h : firstFault c xs = some e) : FaultUnadmitted c e := by
  obtain ⟨⟨a, n⟩, hx, rfl⟩ := Option.map_eq_some_iff.mp h
  have hn : n ≤ 4 := hw _ (List.mem_of_find?_eq_some hx)
  have hun := List.find?_some hx
  simp only [decide_eq_true_iff, accessAdmitted, not_forall, Bool.not_eq_true] at hun
  obtain ⟨j, hj, hadm⟩ := hun
  exact ⟨a, j, rfl, hj.trans_le hn, hadm⟩

/-! ### Performing a list of accesses (R57) -/

/-- `r` is the answer of a piece of an operation that makes the accesses `xs` in order and stops at the first not
admitted; when it completes, `Q` holds of what it answers. -/
structure Performs {α : Type} (c : Config) (xs : List (Word × Nat)) (Q : α → Prop) (r : Except Fault α) : Prop where
  stops : ∀ e, firstFault c xs = some e → r = .error e
  completes : firstFault c xs = none → ∃ v, r = .ok v ∧ Q v

section
variable {α β : Type} {c : Config} {xs ys : List (Word × Nat)} {P : α → Prop} {Q : β → Prop}

theorem Performs.pure {v : α} (h : P v) : Performs c [] P (.ok v) where
  stops _ he := by cases he
  completes _ := ⟨v, rfl, h⟩

/-- Two pieces one after the other make the accesses of the one, then of the other. -/
theorem Performs.seq {r : Except Fault α} {f : α → Except Fault β} (h : Performs c xs P r)
    (hf : ∀ v, P v → Performs c ys Q (f v)) : Performs c (xs ++ ys) Q (andThen r f) where
  stops e he := by
    rw [firstFault_append] at he
    cases hx : firstFault c xs with
    | some e' => rw [hx] at he; cases he; rw [h.stops _ hx, andThen_error]
    | none =>
      obtain ⟨v, rfl, hv⟩ := h.completes hx
      rw [hx] at he
      exact (hf v hv).stops e he
  completes he := by
    rw [firstFault_append, Option.or_eq_none_iff] at he
    obtain ⟨v, rfl, hv⟩ := h.completes he.1
    exact (hf v hv).completes he.2

/-- One access, then the others. -/
theorem Performs.cons {x : Word × Nat} {r : Except Fault α} {f : α → Except Fault β} (h : Performs c [x] P r)
    (hf : ∀ v, P v → Performs c ys Q (f v)) : Performs c (x :: ys) Q (andThen r f) :=
  h.seq hf

/-- A piece followed by work in registers makes the accesses of the piece. -/
theorem Performs.map {r : Except Fault α} {g : α → β} (h : Performs c xs P r) (hg : ∀ v, P v → Q (g v)) :
    Performs c xs Q (andThen r fun v => .ok (g v)) :=
  xs.append_nil ▸ h.seq fun v hv => .pure (hg v hv)

/-- One access: it answers when it is admitted, and faults at its own address when it is not. -/
theorem Performs.access {x : Word × Nat} {r : Except Fault α} (hok : accessAdmitted c x → ∃ v, r = .ok v ∧ P v)
    (herr : ¬ accessAdmitted c x → r = .error (.memFault x.1)) : Performs c [x] P r where
  stops e he := by
    by_cases hx : accessAdmitted c x
    · rw [firstFault_of_admitted hx] at he; cases he
    · rw [firstFault_of_unadmitted hx] at he; cases he; exact herr hx
  completes he := by
    rw [firstFault_eq_none_iff] at he
    exact hok (he x List.mem_cons_self)

theorem Performs.error_unadmitted {r : Except Fault α} {e : Fault} (h : Performs c xs P r) (hw : ∀ x ∈ xs, x.2 ≤ 4)
    (hr : r = .error e) : FaultUnadmitted c e := by
  cases hx : firstFault c xs with
  | none => obtain ⟨v, hv, -⟩ := h.completes hx; rw [hv] at hr; cases hr
  | some e' => rw [h.stops _ hx] at hr; cases hr; exact firstFault_unadmitted hw hx

end

/-! ### Accesses of a state that differs in memory only -/

/-- `u` is `s` but for memory, so it has the parameters and forms the addresses of `s`. -/
abbrev OnlyMemory (s u : State) : Prop := Writes (fun _ => True) s u

theorem OnlyMemory.refl (s : State) : OnlyMemory s s := Writes.refl _ s

section
variable {s u : State} (h : OnlyMemory s u)
include h

theorem OnlyMemory.readByte (a : Word) : Performs s.cfg [(a, 1)] (· = u.peek a) (u.readByte a) := by
  refine .access (fun ha => ?_) fun ha => ?_
  all_goals rw [accessAdmitted_byte_iff, ← h.cfg] at ha
  · exact ⟨_, State.readByte_admitted ha, rfl⟩
  · exact State.readByte_unadmitted ha

theorem OnlyMemory.readWord (a : Word) : Performs s.cfg [(a, 4)] (· = u.peekWord a) (u.readWord a) := by
  refine .access (fun ha => ?_) fun ha => ?_
  all_goals rw [accessAdmitted_word_iff, ← h.cfg] at ha
  · exact ⟨_, State.readWord_admitted ha, rfl⟩
  · exact State.readWord_unadmitted ha

theorem OnlyMemory.writeByte (a : Word) (v : Byte) : Performs s.cfg [(a, 1)] (OnlyMemory s) (u.writeByte a v) := by
  refine .access (fun ha => ?_) fun ha => ?_
  all_goals rw [accessAdmitted_byte_iff, ← h.cfg] at ha
  · exact ⟨_, State.writeByte_admitted v ha, h.trans ((u.poke_writes a v).mono fun _ _ => trivial)⟩
  · exact State.writeByte_unadmitted v ha

theorem OnlyMemory.writeWord (a v : Word) : Performs s.cfg [(a, 4)] (OnlyMemory s) (u.writeWord a v) := by
  refine .access (fun ha => ?_) fun ha => ?_
  all_goals rw [accessAdmitted_word_iff, ← h.cfg] at ha
  · exact ⟨_, State.writeWord_admitted v ha, h.trans ((u.pokeWord_writes a v).mono fun _ _ => trivial)⟩
  · exact State.writeWord_unadmitted v ha

/-! ### One pass of each loop (R103, R104, R148) -/

theorem OnlyMemory.packChunk (lb : PageSize) (k : Nat) :
    Performs s.cfg
      [(s.eccAddr k, 4), (s.spareAddr lb (3 * k + 2), 1), (s.spareAddr lb (3 * k + 1), 1), (s.spareAddr lb (3 * k), 1)]
      (OnlyMemory s) (packChunk lb k u) := by
  unfold Machine.packChunk
  rw [h.eccAddr, h.spareAddr]
  refine (h.readWord _).cons fun v _ => (h.writeByte _ _).cons fun s1 h1 => ?_
  rw [h1.spareAddr]
  refine (h1.writeByte _ _).cons fun s2 h2 => ?_
  rw [h2.spareAddr]
  exact h2.writeByte _ _

theorem OnlyMemory.unpackChunk (lb : PageSize) (k : Nat) :
    Performs s.cfg
      [(s.spareAddr lb (3 * k), 1), (s.spareAddr lb (3 * k + 1), 1), (s.spareAddr lb (3 * k + 2), 1), (s.eccAddr k, 4)]
      (OnlyMemory s) (unpackChunk lb k u) := by
  unfold Machine.unpackChunk
  simp only [h.eccAddr, h.spareAddr]
  exact (h.readByte _).cons fun _ _ => (h.readByte _).cons fun _ _ => (h.readByte _).cons fun _ _ => h.writeWord _ _

theorem OnlyMemory.buildDescriptor (lb : PageSize) (wr : Direction) (i : Nat) :
    Performs s.cfg [(s.descAddr i 0, 4), (s.descAddr i 1, 4), (s.descAddr i 2, 4), (s.descAddr i 3, 4)]
      (OnlyMemory s) (buildDescriptor lb wr i u) := by
  unfold Machine.buildDescriptor writeDescriptor
  rw [h.descAddr]
  refine (h.writeWord _ _).cons fun s1 h1 => ?_
  rw [h1.descAddr]
  refine (h1.writeWord _ _).cons fun s2 h2 => ?_
  rw [h2.descAddr]
  refine (h2.writeWord _ _).cons fun s3 h3 => ?_
  rw [h3.descAddr]
  exact h3.writeWord _ _

end

/-- A loop makes the accesses of its passes, one after the other. -/
theorem forEach_performs {f : Nat → State → Except Fault State} {acc : Nat → List (Word × Nat)} {s : State}
    (hf : ∀ k u, OnlyMemory s u → Performs s.cfg (acc k) (OnlyMemory s) (f k u)) (ks : List Nat) {u : State}
    (hu : OnlyMemory s u) : Performs s.cfg (ks.flatMap acc) (OnlyMemory s) (forEach f ks u) := by
  induction ks generalizing u with
  | nil => exact .pure hu
  | cons k ks ih => exact (hf k u hu).seq fun v hv => ih hv

/-! ### Whole operations -/

theorem classifyErr_eq_corrected_iff (err : Word) : classifyErr err = .corrected ↔ onesOf err = 11 := by
  rw [classifyErr_eq_outcomeOf]
  unfold outcomeOf
  split
  case isTrue h => rw [h]; decide
  case isFalse =>
    split
    case isTrue h => simp [h]
    case isFalse => split <;> simp [*]

/-- The correcting branch reads and writes one byte (R120). -/
theorem correctBit_performs (idx : Nat) (err : Word) (s : State) :
    Performs s.cfg [(s.correctAddr idx err, 1)] (fun _ => True) (correctBit idx err s) := by
  refine .access (fun ha => ?_) fun ha => ?_
  all_goals rw [accessAdmitted_byte_iff] at ha
  · exact ⟨_, (correctBit_ok_iff idx err s _).mpr ⟨ha, rfl⟩, trivial⟩
  · rw [correctBit, State.readByte_unadmitted ha, andThen_error]

theorem correctBranch_performs (idx : Nat) (err : Word) (s : State) :
    Performs s.cfg (if onesOf err = 11 then [(s.correctAddr idx err, 1)] else []) (fun _ => True)
      (correctBranch idx err s) := by
  by_cases h11 : onesOf err = 11
  · rw [if_pos h11, correctBranch, (classifyErr_eq_corrected_iff err).mpr h11]
    exact (correctBit_performs idx err s).map fun _ _ => trivial
  · have hne := mt (classifyErr_eq_corrected_iff err).mp h11
    have hok : correctBranch idx err s = .ok (classifyErr err, s) :=
      (correctBranch_ok_iff idx err s s _).mpr ⟨rfl, .inr ⟨hne, rfl⟩⟩
    rw [if_neg h11, hok]
    exact .pure trivial

/-- `Correct(idx)` reads the generated and the stored syndrome, and one byte of the chunk when it corrects (R120). -/
theorem correctChunk_performs (idx : Nat) (s : State) :
    Performs s.cfg (accessesOf (.ecccorr idx) s) (fun _ => True) (correctChunk idx s) := by
  have hs := OnlyMemory.refl s
  refine (hs.readWord _).cons fun g hg => (hs.readWord _).cons fun st hst => ?_
  subst hg hst
  exact correctBranch_performs idx (errAt s idx) s

/-- `Unpack(n)` makes the accesses listed for ECCPAGE (R104, R123). -/
theorem unpackPage_performs (lb : PageSize) (s : State) :
    Performs s.cfg (accessesOf (.eccpage lb) s) (OnlyMemory s) (unpackPage lb s) :=
  forEach_performs (fun k _ hu => hu.unpackChunk lb k) _ (.refl s)

/-- The operation of every command but ECCPAGE makes the command's accesses, in order. -/
theorem op_performs {i : Instr} (hi : ∀ lb, i ≠ .eccpage lb) (s : State) :
    Performs s.cfg (accessesOf i s) (fun _ => True) (opOf i s) := by
  cases i with
  | eccpack count =>
    simp only [opOf, packOp, accessesOf]
    cases pageOfCount count with
    | none => exact .pure trivial
    | some lb => exact (forEach_performs (fun k _ hu => hu.packChunk lb k) _ (.refl s)).map fun _ _ => trivial
  | eccunpack count =>
    simp only [opOf, unpackOp, accessesOf]
    cases pageOfCount count with
    | none => exact .pure trivial
    | some lb => exact (unpackPage_performs lb s).map fun _ _ => trivial
  | ecccorr idx => exact (correctChunk_performs idx s).map fun _ _ => trivial
  | eccpage lb => exact absurd rfl (hi lb)
  | bbcheck lb => exact ((OnlyMemory.refl s).readByte _).map fun _ _ => trivial
  | bbmark lb => exact ((OnlyMemory.refl s).writeByte _ _).map fun _ _ => trivial
  | dmabuild lb wr =>
    exact (forEach_performs (fun k _ hu => hu.buildDescriptor lb wr k) _ (.refl s)).map fun _ _ => trivial

/-- Every access is one byte or one word (R51). -/
theorem accessesOf_width (i : Instr) (s : State) : ∀ x ∈ accessesOf i s, x.2 ≤ 4 := by
  cases i with
  | eccpack count | eccunpack count =>
    simp only [accessesOf]
    cases pageOfCount count with
    | none => exact nofun
    | some lb => exact List.forall_mem_flatMap.mpr fun k _ => by simp
  | ecccorr idx => simp only [accessesOf]; split <;> simp
  | eccpage lb | dmabuild lb wr => exact List.forall_mem_flatMap.mpr fun k _ => by simp
  | bbcheck lb | bbmark lb => simp [accessesOf]

/-- The accesses of a command depend on its inputs only. -/
theorem accessesOf_same (i : Instr) {s t : State} (h : SameInputs s t) : accessesOf i t = accessesOf i s := by
  cases i with
  | eccpack count | eccunpack count | eccpage lb => simp only [accessesOf, h.eccAddr, h.spareAddr]
  | ecccorr idx => simp only [accessesOf, h.genAddr, h.eccAddr, h.errAt, h.correctAddr]
  | bbcheck lb | bbmark lb => simp only [accessesOf, h.markerAddr]
  | dmabuild lb wr => simp only [accessesOf, h.descAddr]

theorem pageOfCount_chunksOf (lb : PageSize) : pageOfCount (chunksOf lb) = some lb := by cases lb <;> rfl

/-! ### Where a command stops (R51, R171) -/

/-- The correction loop of a page stops only at a byte that is not admitted. -/
theorem correctChunks_error {lb : PageSize} {is : List Nat} {a : PageAcc} {s : State} {e : Fault}
    (h : correctChunks lb is a s = .error e) : FaultUnadmitted s.cfg e := by
  induction is generalizing a s with
  | nil => cases h
  | cons i is ih =>
    cases hc : correctChunk i s with
    | error e' =>
      rw [correctChunks, hc] at h; cases h
      exact (correctChunk_performs i s).error_unadmitted (accessesOf_width _ _) hc
    | ok r =>
      rw [correctChunks, hc] at h
      exact (correctChunk_writes hc).cfg ▸ ih h

/-- ECCPAGE stops only at a byte that is not admitted, in its unpack or in its corrections (R123). -/
theorem pageOp_error {lb : PageSize} {s : State} {e : Fault} (h : pageOp lb s = .error e) :
    FaultUnadmitted s.cfg e := by
  unfold pageOp at h
  cases hu : unpackPage lb s with
  | error e' =>
    rw [hu] at h; cases h
    exact (unpackPage_performs lb s).error_unadmitted (accessesOf_width _ _) hu
  | ok u =>
    rw [hu, andThen_ok] at h
    cases hr : correctChunks lb (List.range (chunksOf lb)) pageStart u with
    | error e' => rw [hr] at h; cases h; exact (unpack_writes hu).cfg ▸ correctChunks_error hr
    | ok r => rw [hr] at h; cases h

/-- An operation stops only at a byte that is not admitted. -/
theorem op_error {i : Instr} {s : State} {e : Fault} (h : opOf i s = .error e) : FaultUnadmitted s.cfg e := by
  by_cases hi : ∃ lb, i = .eccpage lb
  · obtain ⟨lb, rfl⟩ := hi
    exact pageOp_error h
  · exact (op_performs (not_exists.mp hi) s).error_unadmitted (accessesOf_width _ _) h

/-- A command that stops had aligned bases, and its operation stopped. -/
theorem exec_fault {i : Instr} {s : State} {e : Fault} (h : exec i s = .fault e) :
    basesAligned i s ∧ opOf i (s.noteReads (readRegs i)) = .error e := by
  rw [exec_eq] at h
  obtain ⟨-, hacc⟩ | ⟨-, u, -, hacc⟩ | ⟨ha, e', hop, hacc⟩ := accept_cases i (opOf i) s
  · rw [hacc] at h; cases h
  · rw [hacc] at h; cases h
  · rw [hacc] at h; cases h
    exact ⟨(operandsAligned_iff i s).mp ha, hop⟩

theorem exec_ne_refused (i : Instr) (s : State) (r : Refusal) : exec i s ≠ .refused r := by
  rw [exec_eq]
  obtain ⟨-, hacc⟩ | ⟨-, u, -, hacc⟩ | ⟨-, e, -, hacc⟩ := accept_cases i (opOf i) s <;> rw [hacc] <;> exact nofun

/-- An accepted command stops where its operation stops. -/
theorem exec_of_op_error {i : Instr} {s : State} {e : Fault} (ha : basesAligned i s)
    (h : opOf i (s.noteReads (readRegs i)) = .error e) : exec i s = .fault e := by
  rw [exec_aligned i s ((operandsAligned_iff i s).mpr ha), h, finish]

theorem exec_of_op_ok {i : Instr} {s u : State} (ha : basesAligned i s)
    (h : opOf i (s.noteReads (readRegs i)) = .ok u) : exec i s = .next u.complete := by
  rw [exec_aligned i s ((operandsAligned_iff i s).mpr ha), h, finish]

theorem firstFault_noteReads (i : Instr) (s : State) (rs : List OperandReg) :
    firstFault (s.noteReads rs).cfg (accessesOf i (s.noteReads rs)) = firstFault s.cfg (accessesOf i s) := by
  rw [accessesOf_same i (SameInputs.noteReads s rs), State.noteReads_cfg]

/-! ### The corrections of a page against ECCCORR (R123) -/

theorem SameInputs.trans {s t u : State} (h : SameInputs s t) (k : SameInputs t u) : SameInputs s u :=
  ⟨k.mem.trans h.mem, k.operands.trans h.operands, k.cfg.trans h.cfg⟩

theorem SameInputs.symm {s t : State} (h : SameInputs s t) : SameInputs t s := ⟨h.mem.symm, h.operands.symm, h.cfg.symm⟩

theorem Alike.of_ok {α β : Type} {R : α → β → Prop} {r : Except Fault α} {r' : Except Fault β} {a : α}
    (h : Alike R r r') (hr : r = .ok a) : ∃ b, r' = .ok b ∧ R a b := by
  subst hr
  cases r' with
  | ok b => exact ⟨b, rfl, h⟩
  | error e => exact h.elim

theorem Alike.of_error {α β : Type} {R : α → β → Prop} {r : Except Fault α} {r' : Except Fault β} {e : Fault}
    (h : Alike R r r') (hr : r = .error e) : r' = .error e := by
  subst hr
  cases r' with
  | ok b => exact h.elim
  | error e' => exact congrArg Except.error h

/-- A command leaves every word base as aligned as it was (R58). -/
theorem basesAligned_of_exec {i : Instr} {s t : State} (h : exec i s = .next t) (j : Instr) :
    basesAligned j t ↔ basesAligned j s := by
  have hreg : ∀ r, t.reg r = s.reg r := fun r => by rw [State.reg, State.reg, exec_only h]
  cases j <;> simp only [basesAligned, hreg]

/-- ECCCORR stops with the fault of `Correct(idx)` and otherwise leaves the memory `Correct(idx)` leaves. -/
theorem exec_ecccorr_cases {idx : Nat} {s t : State} (ha : basesAligned (.ecccorr idx) t) (h : SameInputs s t) :
    (∃ e, correctChunk idx s = .error e ∧ exec (.ecccorr idx) t = .fault e) ∨
    (∃ r u, correctChunk idx s = .ok r ∧ exec (.ecccorr idx) t = .next u ∧ SameInputs r.2 u) := by
  have halike := correctChunk_alike (h.trans (.noteReads t (readRegs (.ecccorr idx)))) idx
  cases hs : correctChunk idx s with
  | error e =>
    have ht := halike.of_error hs
    exact .inl ⟨e, rfl, exec_of_op_error ha (by rw [opOf, corrOp, ht, andThen_error])⟩
  | ok r =>
    obtain ⟨r', ht, -, hin⟩ := halike.of_ok hs
    obtain ⟨v, hop⟩ : ∃ v, opOf (.ecccorr idx) (t.noteReads (readRegs (.ecccorr idx))) = .ok (r'.2.setResult v) :=
      ⟨_, by rw [opOf, corrOp, ht, andThen_ok]⟩
    exact .inr ⟨r, _, rfl, exec_of_op_ok ha hop, hin.mem, hin.operands, hin.cfg⟩

/-- Where ECCCORR of the chunks, one after the other, stops, the loop of ECCPAGE stops. -/
theorem correctChunks_of_correctionsFault {lb : PageSize} {is : List Nat} {a : PageAcc} {s t : State} {e : Fault}
    (ha : basesAligned (.eccpage lb) t) (h : SameInputs s t) (he : correctionsFault is t = some e) :
    correctChunks lb is a s = .error e := by
  induction is generalizing a s t with
  | nil => cases he
  | cons i is ih =>
    rw [correctionsFault] at he
    obtain ⟨e', hc, hx⟩ | ⟨r, u, hc, hx, hsame⟩ := exec_ecccorr_cases (idx := i) ha h
    · rw [hx] at he; cases he
      rw [correctChunks, hc, andThen_error]
    · rw [hx] at he
      rw [correctChunks, hc, andThen_ok]
      exact ih ((basesAligned_of_exec hx _).mpr ha) hsame he

/-- Where ECCUNPACK of a page size completes, the unpack of ECCPAGE does, and leaves the same memory (R123). -/
theorem unpackPage_of_exec_eccunpack {lb : PageSize} {s t u : State} (ha : basesAligned (.eccunpack (chunksOf lb)) s)
    (h : SameInputs s t) (hu : exec (.eccunpack (chunksOf lb)) s = .next u) :
    ∃ w, unpackPage lb t = .ok w ∧ SameInputs w u := by
  obtain ⟨v, hv, rfl⟩ := exec_aligned_next ha hu
  simp only [opOf, unpackOp, pageOfCount_chunksOf, andThen_ok_iff] at hv
  obtain ⟨v', hv', hset⟩ := hv
  cases hset
  have halike := forEach_alike (f := unpackChunk lb) (fun k _ _ h => unpackChunk_alike h lb k)
    (List.range (chunksOf lb)) ((SameInputs.noteReads s (readRegs (.eccunpack (chunksOf lb)))).symm.trans h)
  obtain ⟨w, hw, hin⟩ := halike.of_ok hv'
  exact ⟨w, hw, hin.symm.mem, hin.symm.operands, hin.symm.cfg⟩

end Sys2Proof.Machine
end

section
/-! The obligations of 20_memory.md, each from the lemmas above. -/

namespace Sys2Proof.Machine

open Sys2Proof Sys2Proof.Claims

/-- Settles O54: the map with the window taken out. -/
theorem admissionIsTheMapOutsideTheWindow : Obligations.AdmissionIsTheMapOutsideTheWindow := by
  refine ⟨fun c k hk => ?_, fun c a ha => ?_⟩
  · rw [← Bool.not_eq_true, admits_iff]
    exact fun ⟨hout, _⟩ => hout ⟨k, hk, rfl⟩
  · rw [admits_iff]
    exact and_iff_right fun ⟨k, hk, e⟩ => ha k hk e

/-- Settles O28: the two reads, admitted or not. -/
theorem memReadIsLittleEndian : Obligations.MemReadIsLittleEndian :=
  ⟨fun _ _ => State.readByte_admitted, fun _ _ h => State.readByte_unadmitted (Bool.eq_false_iff.mp h),
    fun _ a h => State.readWord_admitted ((admitsWord_iff _ a).mpr h),
    fun _ _ _ hj h => State.readWord_unadmitted (Bool.eq_false_iff.mp (admitsWord_eq_false hj h))⟩

/-- Settles O29: the two writes, admitted or not, with what the bytes written and the others read as. -/
theorem memWriteChangesOnlyItsBytes : Obligations.MemWriteChangesOnlyItsBytes := by
  refine ⟨fun s a v h => ?_, fun s a v h => State.writeByte_unadmitted v (Bool.eq_false_iff.mp h), fun s a v h => ?_,
    fun s a v j hj h => State.writeWord_unadmitted v (Bool.eq_false_iff.mp (admitsWord_eq_false hj h))⟩
  · exact ⟨_, State.writeByte_admitted v h, rfl, by simp, fun x hx => (s.poke_writes a v).frame x hx⟩
  · have hbyte : ∀ j < 4, (s.pokeWord a v).peek (addrAt a j) = byteOf v j := s.peek_pokeWord_byte a v
    have hfirst : (s.pokeWord a v).peek a = byteOf v 0 := by simpa using hbyte 0 (by decide)
    exact ⟨_, State.writeWord_admitted v ((admitsWord_iff _ a).mpr h), rfl, hfirst, hbyte 1 (by decide),
      hbyte 2 (by decide), hbyte 3 (by decide), fun x => s.peek_pokeWord_other a v x⟩

/-- Settles O30: each address is `addrAt` of its base register, and no command writes an operand register. -/
theorem addressesAreBasePlusOffset : Obligations.AddressesAreBasePlusOffset := by
  refine ⟨fun s e => ?_, fun s e => ?_, fun s => ⟨addrAt_toNat _ _, addrAt_toNat _ _⟩,
    fun s k => ⟨addrAt_toNat _ _, addrAt_toNat _ _⟩, fun s idx err => ⟨byteOff_lt _ _, ?_⟩,
    fun s i j => addrAt_toNat _ _, fun i s t h => by rw [exec_only h]⟩
  · rw [State.spareAddr, addrAt_toNat, layoutEntry_small]
  · rw [State.spareAddr, addrAt_toNat, layoutEntry_large]
  · rw [State.correctAddr_eq, addrAt_toNat]

/-- Settles O10: a rejection changes `STATUS` and the mark, and offsets that are multiples of 4 keep alignment. -/
theorem misalignedBaseIsRejected : Obligations.MisalignedBaseIsRejected := by
  refine ⟨fun i s ha => ?_, fun i s t ha h => exec_status_aligned ha h, fun s k hb => aligned4_addrAt hb (by omega),
    fun s k hb => aligned4_addrAt hb (by omega), fun s i j hb => aligned4_addrAt hb (by omega)⟩
  rw [exec_misaligned ha, State.noteReads_eq, State.noteReads_mark]
  rfl

/-- Settles O14: what every command leaves, what an accepted one may write, and what a rejected one leaves. -/
theorem commandFrame : Obligations.CommandFrame := by
  intro i s t h
  have hout : t.cmd = s.cmd ∧ t.operands = s.operands ∧ t.cfg = s.cfg ∧ t.pending = s.pending ∧
      t.hostData = s.hostData ∧ t.hostBytes = s.hostBytes := by
    rw [exec_only h]; simp
  obtain ⟨hcmd, hoperands, hcfg, hpending, hdata, hbytes⟩ := hout
  refine ⟨hcmd, hoperands, hcfg, hpending, hdata, hbytes, fun x => exec_peek h, fun hi => exec_chunkstat_of_ne hi h,
    fun r hr => ?_, fun r hr hres hcs => ?_, fun m => exec_keeps_mark h, fun ha =>
      ⟨exec_mem_misaligned ha h, exec_result_misaligned ha h, exec_chunkstat_misaligned ha h,
        exec_unwritten_misaligned ha h⟩⟩
  · by_cases ha : basesAligned i s
    · rw [exec_unwritten ha h] at hr
      exact (List.mem_filter.mp hr).1
    · exact exec_unwritten_misaligned ha h ▸ hr
  · by_cases ha : basesAligned i s
    · rw [exec_unwritten ha h]
      exact List.mem_filter.mpr ⟨hr, decide_eq_true fun hw => (mem_writtenRegs hw).elim hres hcs⟩
    · exact (exec_unwritten_misaligned ha h).symm ▸ hr

/-- Settles O16: a command that stops was accepted, and its operation stopped at a byte not admitted. -/
theorem commandStopsOnlyOnUnadmittedByte : Obligations.CommandStopsOnlyOnUnadmittedByte := by
  refine ⟨fun i s e h => ?_, exec_ne_refused⟩
  obtain ⟨ha, hop⟩ := exec_fault h
  exact ⟨ha, State.noteReads_cfg _ s ▸ op_error hop⟩

/-- Settles O55: the operation performs the command's accesses. -/
theorem commandFaultsAtFirstUnadmittedAccess : Obligations.CommandFaultsAtFirstUnadmittedAccess := by
  intro i s hi ha
  have hop := op_performs hi (s.noteReads (readRegs i))
  have hfirst := firstFault_noteReads i s (readRegs i)
  refine ⟨fun a n hfind => ?_, fun hall => ?_⟩
  · exact exec_of_op_error ha (hop.stops _ (hfirst.trans (firstFault_of_find hfind)))
  · obtain ⟨u, hu, -⟩ := hop.completes (hfirst.trans ((firstFault_eq_none_iff _ _).mpr hall))
    exact ⟨_, exec_of_op_ok ha hu, rfl⟩

/-- Settles O56: the unpack performs the accesses listed, and the correction loop stops with ECCCORR of its chunks. -/
theorem eccpageFaultsWhereItsPartsFault : Obligations.EccpageFaultsWhereItsPartsFault := by
  intro lb s ha
  refine ⟨fun a n hfind => exec_of_op_error ha ?_, fun u e hu he => exec_of_op_error ha ?_⟩
  · have hstop := (unpackPage_performs lb _).stops _
      ((firstFault_noteReads _ s (readRegs (.eccpage lb))).trans (firstFault_of_find hfind))
    rw [opOf, pageOp, hstop, andThen_error]
  · obtain ⟨w, hw, hin⟩ := unpackPage_of_exec_eccunpack ha.1 (.noteReads s (readRegs (.eccpage lb))) hu
    have hau : basesAligned (.eccpage lb) u := (basesAligned_of_exec hu _).mpr ha
    rw [opOf, pageOp, hw, andThen_ok, correctChunks_of_correctionsFault hau hin he, andThen_error]

end Sys2Proof.Machine
end

section
/-! The decoder and the encoder through the columns `mask` and `match` of R80: what an opcode's row says of a word's
fields, and that encoding the command a row reads from a word restores every bit the row leaves free. -/

namespace Sys2Proof

open Sys2Proof.Claims

/-! ### The fields of a word (R76) -/

/-- The six fields of R76 cover the word. -/
theorem word_eq_iff_fields (v w : Word) :
    v = w ↔ opc v = opc w ∧ lbBitOf v = lbBitOf w ∧ wrBitOf v = wrBitOf w ∧ rsv0 v = rsv0 w ∧ imm8 v = imm8 w ∧
      rsv1 v = rsv1 w := by
  refine ⟨fun h => h ▸ ⟨rfl, rfl, rfl, rfl, rfl, rfl⟩, ?_⟩
  simp only [← BitVec.toNat_inj, BitVec.extractLsb'_toNat, Nat.shiftRight_eq_div_pow]
  omega

theorem immField_eq_div_mod (w : Word) : immField w = w.toNat / 2 ^ 8 % 2 ^ 8 := by
  rw [immField, BitVec.toNat_and, BitVec.toNat_ushiftRight, Nat.shiftRight_eq_div_pow]
  exact Nat.and_two_pow_sub_one_eq_mod _ 8

theorem immField_eq_imm8 (w : Word) : immField w = (imm8 w).toNat := by
  rw [immField_eq_div_mod, BitVec.extractLsb'_toNat, Nat.shiftRight_eq_div_pow]

theorem lbField_eq_pageOf (w : Word) : lbField w = pageOf w := by
  simp [lbField, pageOf, BitVec.eq_of_getLsbD_eq_iff]

theorem wrField_eq_directionOf (w : Word) : wrField w = directionOf w := by
  simp [wrField, directionOf, BitVec.eq_of_getLsbD_eq_iff]

/-! ### The rows of the opcode map (R80, R81) -/

theorem opcField_eq_opc (w : Word) : (w &&& 0x0000000F).toNat = opc w := by
  rw [opc, BitVec.extractLsb'_toNat, BitVec.toNat_and]
  exact Nat.and_two_pow_sub_one_eq_mod _ 4

theorem opcodeOf_of_opc {w : Word} {o : Opcode} (h : opc w = o.pattern.toNat) : opcodeOf w = some o := by
  rw [opcodeOf, opcField_eq_opc, h]
  cases o <;> rfl

theorem opcodeOf_of_illegalOpcode {w : Word} (h : illegalOpcode w) : opcodeOf w = none := by
  rw [opcodeOf, opcField_eq_opc]
  split
  case h_8 => rfl
  all_goals omega

/-- Every code that is not illegal has a row: 0x1 to 0x7 (R80). -/
theorem exists_opcode {w : Word} (h : ¬ illegalOpcode w) : ∃ o : Opcode, opc w = o.pattern.toNat := by
  have hcode : opc w = 1 ∨ opc w = 2 ∨ opc w = 3 ∨ opc w = 4 ∨ opc w = 5 ∨ opc w = 6 ∨ opc w = 7 := by omega
  obtain h1 | h2 | h3 | h4 | h5 | h6 | h7 := hcode
  exacts [⟨.eccpack, h1⟩, ⟨.eccunpack, h2⟩, ⟨.ecccorr, h3⟩, ⟨.eccpage, h4⟩, ⟨.bbcheck, h5⟩, ⟨.bbmark, h6⟩,
    ⟨.dmabuild, h7⟩]

/-- Columns `mask` and `match` say what R77 says of the fields: the opcode's code, and no reserved field set. -/
theorem Opcode.matches_iff (o : Opcode) (w : Word) :
    w &&& o.mask = o.pattern ↔ opc w = o.pattern.toNat ∧ ¬ reservedFieldSet w := by
  have hopc : opc (w &&& o.mask) = opc w := by
    rw [opc, BitVec.extractLsb'_and]
    cases o <;> exact congrArg BitVec.toNat BitVec.and_allOnes
  have hcode : opc o.pattern = o.pattern.toNat := by cases o <;> rfl
  rw [word_eq_iff_fields, hopc, hcode]
  refine and_congr_right fun hw => ?_
  have h1 (x : BitVec 1) : x &&& 1#1 = x := BitVec.and_allOnes
  have h2 (x : BitVec 2) : x &&& 3#2 = x := BitVec.and_allOnes
  have h8 (x : BitVec 8) : x &&& 255#8 = x := BitVec.and_allOnes
  have h16 (x : BitVec 16) : x &&& 65535#16 = x := BitVec.and_allOnes
  simp only [lbBitOf, wrBitOf, rsv0, imm8, rsv1, reservedFieldSet, hw, BitVec.extractLsb'_and]
  cases o <;> simp [Opcode.mask, Opcode.pattern, h1, h2, h8, h16, and_assoc, and_comm, and_left_comm]

/-- The command a row reads from a word is the one R76 and R80 give. -/
theorem commandOf_eq_assemble {w : Word} {o : Opcode} (h : opc w = o.pattern.toNat) :
    commandOf w = some (o.assemble w) := by
  rw [commandOf, h]
  cases o with
  | eccpack | eccunpack | ecccorr => rw [Opcode.assemble, immField_eq_imm8]; rfl
  | eccpage | bbcheck | bbmark => rw [Opcode.assemble, lbField_eq_pageOf]; rfl
  | dmabuild => rw [Opcode.assemble, lbField_eq_pageOf, wrField_eq_directionOf]; rfl

/-! ### The three classes (R81) -/

theorem decode_of_illegalOpcode {w : Word} (h : illegalOpcode w) : decode w = .illop := by
  rw [decode, opcodeOf_of_illegalOpcode h]

theorem decode_of_opc {w : Word} {o : Opcode} (h : opc w = o.pattern.toNat) :
    decode w = if reservedFieldSet w then .rsvd else .legal (o.assemble w) := by
  simp only [decode, opcodeOf_of_opc h, o.matches_iff, h, true_and, ite_not]

theorem decode_of_opc_of_not_reserved {w : Word} {o : Opcode} (h : opc w = o.pattern.toNat)
    (hr : ¬ reservedFieldSet w) : decode w = .legal (o.assemble w) := by
  rw [decode_of_opc h, if_neg hr]

theorem decode_of_reservedFieldSet {w : Word} (ho : ¬ illegalOpcode w) (h : reservedFieldSet w) :
    decode w = .rsvd := by
  obtain ⟨o, hw⟩ := exists_opcode ho
  rw [decode_of_opc hw, if_pos h]

/-- A word is legal when it lies in a row of R80, and then it is the command the row reads from it. -/
theorem decode_eq_legal_iff (w : Word) (i : Instr) :
    decode w = .legal i ↔ ∃ o : Opcode, w &&& o.mask = o.pattern ∧ o.assemble w = i := by
  constructor
  · intro h
    by_cases hw : illegalOpcode w
    · rw [decode_of_illegalOpcode hw] at h; cases h
    · obtain ⟨o, ho⟩ := exists_opcode hw
      by_cases hr : reservedFieldSet w
      · rw [decode_of_reservedFieldSet hw hr] at h; cases h
      · rw [decode_of_opc_of_not_reserved ho hr] at h
        exact ⟨o, (o.matches_iff w).mpr ⟨ho, hr⟩, Decoded.legal.inj h⟩
  · rintro ⟨o, hm, rfl⟩
    obtain ⟨ho, hr⟩ := (o.matches_iff w).mp hm
    exact decode_of_opc_of_not_reserved ho hr

/-! ### From a command to its word and back (R77) -/

/-- Shifted into place, an immediate is above the opcode's bits, so OR is addition. -/
theorem immBits_or (imm : Nat) {p : Nat} (hp : p < 2 ^ 8) :
    immBits imm ||| BitVec.ofNat 32 p = BitVec.ofNat 32 (imm * 2 ^ 8 + p) := by
  have hshift : immBits imm = BitVec.ofNat 32 (imm * 2 ^ 8) :=
    BitVec.eq_of_toNat_eq (by simp [immBits, Nat.shiftLeft_eq])
  rw [hshift, ← BitVec.ofNat_or, ← Nat.shiftLeft_eq, ← Nat.shiftLeft_add_eq_or_of_lt hp]

theorem immField_immBits_or {imm p : Nat} (hi : imm < 256) (hp : p < 2 ^ 8) :
    immField (immBits imm ||| BitVec.ofNat 32 p) = imm := by
  rw [immBits_or imm hp, immField_eq_div_mod, BitVec.toNat_ofNat]
  omega

/-- R80: the word of a well-formed command lies in the row of its opcode. -/
theorem encode_masked {i : Instr} (h : i.WellFormed) : encode i &&& i.opcode.mask = i.opcode.pattern := by
  cases i with
  | eccpack count => exact Laws.Encoding.eccpack count h
  | eccunpack count => exact Laws.Encoding.eccunpack count h
  | ecccorr idx => exact Laws.Encoding.ecccorr idx h
  | eccpage lb => exact Laws.Encoding.eccpage lb h
  | bbcheck lb => exact Laws.Encoding.bbcheck lb h
  | bbmark lb => exact Laws.Encoding.bbmark lb h
  | dmabuild lb wr => exact Laws.Encoding.dmabuild lb wr h

theorem assemble_encode {i : Instr} (h : i.WellFormed) : i.opcode.assemble (encode i) = i := by
  cases i with
  | eccpack count => exact congrArg Instr.eccpack (immField_immBits_or h (by decide))
  | eccunpack count => exact congrArg Instr.eccunpack (immField_immBits_or h (by decide))
  | ecccorr idx => exact congrArg Instr.ecccorr (immField_immBits_or h (by decide))
  | eccpage lb | bbcheck lb | bbmark lb => cases lb <;> rfl
  | dmabuild lb wr => cases lb <;> cases wr <;> rfl

theorem decode_encode {i : Instr} (h : i.WellFormed) : decode (encode i) = .legal i :=
  (decode_eq_legal_iff _ _).mpr ⟨i.opcode, encode_masked h, assemble_encode h⟩

/-! ### From a word to its command and back (R77) -/

theorem wellFormed_assemble (o : Opcode) (w : Word) : (o.assemble w).WellFormed := by
  have himm : immField w < 256 := by rw [immField_eq_imm8]; exact (imm8 w).isLt
  cases o with
  | eccpack | eccunpack | ecccorr => exact himm
  | eccpage | bbcheck | bbmark | dmabuild => exact trivial

theorem immBits_immField (w : Word) : immBits (immField w) = w &&& 0x0000FF00 := by
  rw [immBits, immField, BitVec.ofNat_toNat, BitVec.setWidth_eq, BitVec.shiftLeft_and_distrib,
    BitVec.shiftLeft_ushiftRight, BitVec.and_assoc]
  rfl

theorem lbBit_lbField (w : Word) : lbBit (lbField w) = w &&& 0x00000010 := by
  rw [lbField, show (0x00000010 : Word) = BitVec.twoPow 32 4 from rfl, BitVec.and_twoPow]
  split <;> rfl

theorem wrBit_wrField (w : Word) : wrBit (wrField w) = w &&& 0x00000020 := by
  rw [wrField, show (0x00000020 : Word) = BitVec.twoPow 32 5 from rfl, BitVec.and_twoPow]
  split <;> rfl

/-- The command a row reads from a word keeps the bits the row's mask leaves free. -/
theorem encode_assemble (o : Opcode) (w : Word) : encode (o.assemble w) = (w &&& ~~~o.mask) ||| o.pattern := by
  cases o with
  | eccpack | eccunpack | ecccorr => simp only [Opcode.assemble, encode, immBits_immField]; rfl
  | eccpage | bbcheck | bbmark => simp only [Opcode.assemble, encode, lbBit_lbField]; rfl
  | dmabuild => simp only [Opcode.assemble, encode, lbBit_lbField, wrBit_wrField, ← BitVec.and_or_distrib_left]; rfl

theorem encode_assemble_of_matches {o : Opcode} {w : Word} (h : w &&& o.mask = o.pattern) :
    encode (o.assemble w) = w := by
  rw [encode_assemble, ← h, ← BitVec.and_or_distrib_left, BitVec.not_or_self, BitVec.and_allOnes]

/-- Decoding and encoding are inverse: a word is legal as a command just when it is that command's encoding. -/
theorem decode_eq_legal_iff_encode (w : Word) (i : Instr) : decode w = .legal i ↔ i.WellFormed ∧ encode i = w := by
  constructor
  · intro h
    obtain ⟨o, hm, rfl⟩ := (decode_eq_legal_iff w i).mp h
    exact ⟨wellFormed_assemble o w, encode_assemble_of_matches hm⟩
  · rintro ⟨hi, rfl⟩
    exact decode_encode hi

/-! ### The legal words, counted (R80) -/

/-- The commands without an immediate: two each of ECCPAGE, BBCHECK and BBMARK, four of DMABUILD. -/
def pageCommands : List Instr :=
  [.eccpage .small, .eccpage .large, .bbcheck .small, .bbcheck .large, .bbmark .small, .bbmark .large,
    .dmabuild .small .read, .dmabuild .large .read, .dmabuild .small .write, .dmabuild .large .write]

/-- Every well-formed command once: 256 each of ECCPACK, ECCUNPACK and ECCCORR, and the others. -/
def wellFormedCommands : List Instr :=
  (List.range 256).map .eccpack ++ (List.range 256).map .eccunpack ++ (List.range 256).map .ecccorr ++ pageCommands

theorem mem_wellFormedCommands_iff (i : Instr) : i ∈ wellFormedCommands ↔ i.WellFormed := by
  cases i with
  | eccpack imm | eccunpack imm | ecccorr imm => simp [wellFormedCommands, pageCommands, Instr.WellFormed]
  | eccpage lb | bbcheck lb | bbmark lb => cases lb <;> simp [wellFormedCommands, pageCommands, Instr.WellFormed]
  | dmabuild lb wr => cases lb <;> cases wr <;> simp [wellFormedCommands, pageCommands, Instr.WellFormed]

/-- Each constructor is injective, and commands of different constructors differ. -/
theorem wellFormedCommands_nodup : wellFormedCommands.Nodup := by
  have hmap {f : Nat → Instr} (hf : Function.Injective f) : ((List.range 256).map f).Nodup := List.nodup_range.map hf
  have hpack := hmap fun _ _ => Instr.eccpack.inj
  have hunpack := hmap fun _ _ => Instr.eccunpack.inj
  have hcorr := hmap fun _ _ => Instr.ecccorr.inj
  have hpage : pageCommands.Nodup := by decide
  simp only [wellFormedCommands, List.nodup_append, hpack, hunpack, hcorr, hpage, true_and]
  simp only [pageCommands, List.forall_mem_append, List.forall_mem_map, List.forall_mem_cons, List.not_mem_nil, ne_eq,
    reduceCtorEq, not_false_eq_true, false_implies, implies_true, and_self]

theorem wellFormedCommands_length : wellFormedCommands.length = 778 := by
  simp [wellFormedCommands, pageCommands]

/-- Different well-formed commands have different words. -/
theorem encode_inj {i j : Instr} (hi : i.WellFormed) (hj : j.WellFormed) (h : encode i = encode j) : i = j :=
  Decoded.legal.inj ((decode_encode hi).symm.trans (h ▸ decode_encode hj))

end Sys2Proof
end

section
/-! Completion: where the bytes a command may access are admitted, it makes no access that stops it. -/

namespace Sys2Proof.Machine

open Sys2Proof Sys2Proof.Claims

/-! ### The accesses of an admitted command (R51, R57) -/

/-- The accesses of a loop over the chunks of a page are admitted when those of each pass are. -/
theorem forall_mem_passes {c : Config} {n : Nat} {acc : Nat → List (Word × Nat)}
    (h : ∀ k < n, ∀ x ∈ acc k, accessAdmitted c x) : ∀ x ∈ (List.range n).flatMap acc, accessAdmitted c x :=
  List.forall_mem_flatMap.mpr fun k hk => h k (List.mem_range.mp hk)

theorem spareTriple_admitted {s : State} {lb : PageSize} (h : spareAdmitted s lb) {k : Nat} (hk : k < chunksOf lb) :
    accessAdmitted s.cfg (s.spareAddr lb (3 * k), 1) ∧ accessAdmitted s.cfg (s.spareAddr lb (3 * k + 1), 1) ∧
      accessAdmitted s.cfg (s.spareAddr lb (3 * k + 2), 1) := by
  simp only [accessAdmitted_byte_iff]
  exact ⟨h _ (by omega), h _ (by omega), h _ (by omega)⟩

/-- The accesses of `Unpack(n)` are admitted where the spare image and the syndrome array are (R104). -/
theorem unpackAccesses_admitted {s : State} {lb : PageSize} (hsp : spareAdmitted s lb)
    (hecc : wordsAdmitted s s.eccAddr (chunksOf lb)) : ∀ x ∈ accessesOf (.eccpage lb) s, accessAdmitted s.cfg x := by
  refine forall_mem_passes fun k hk => ?_
  obtain ⟨h0, h1, h2⟩ := spareTriple_admitted hsp hk
  simp only [List.forall_mem_cons]
  exact ⟨h0, h1, h2, (accessAdmitted_word_iff _ _).mpr (hecc k hk), nofun⟩

/-- Every access of an admitted command is admitted; of ECCPAGE, every access of its unpack. -/
theorem accessesOf_admitted {i : Instr} {s : State} (h : accessesAdmitted i s) :
    ∀ x ∈ accessesOf i s, accessAdmitted s.cfg x := by
  cases i with
  | eccpack count =>
    simp only [accessesAdmitted, accessesOf] at h ⊢
    cases hc : pageOfCount count with
    | none => exact nofun
    | some lb =>
      rw [hc] at h
      obtain ⟨hsp, hecc⟩ := h
      refine forall_mem_passes fun k hk => ?_
      obtain ⟨h0, h1, h2⟩ := spareTriple_admitted hsp hk
      simp only [List.forall_mem_cons]
      exact ⟨(accessAdmitted_word_iff _ _).mpr (hecc k hk), h2, h1, h0, nofun⟩
  | eccunpack count =>
    simp only [accessesAdmitted, accessesOf] at h ⊢
    cases hc : pageOfCount count with
    | none => exact nofun
    | some lb =>
      rw [hc] at h
      obtain ⟨hsp, hecc⟩ := h
      exact unpackAccesses_admitted hsp hecc
  | ecccorr idx =>
    obtain ⟨hgen, hecc, hbuf⟩ := h
    refine List.forall_mem_append.mpr ⟨List.forall_mem_cons.mpr ⟨(accessAdmitted_word_iff _ _).mpr hgen,
      List.forall_mem_singleton.mpr ((accessAdmitted_word_iff _ _).mpr hecc)⟩, ?_⟩
    split
    case isTrue h11 =>
      have hbyte := hbuf ((classifyErr_eq_corrected_iff _).mpr h11)
      exact List.forall_mem_singleton.mpr ((accessAdmitted_byte_iff _ _).mpr hbyte)
    case isFalse => exact nofun
  | eccpage lb =>
    obtain ⟨hsp, hecc, -, -⟩ := h
    exact unpackAccesses_admitted hsp hecc
  | bbcheck lb | bbmark lb => exact List.forall_mem_singleton.mpr ((accessAdmitted_byte_iff _ _).mpr h)
  | dmabuild lb wr =>
    refine forall_mem_passes fun i hi => ?_
    have hword (j : Nat) (hj : j < 4) : accessAdmitted s.cfg (s.descAddr i j, 4) :=
      (accessAdmitted_word_iff _ _).mpr (h i hi j hj)
    simp only [List.forall_mem_cons]
    exact ⟨hword 0 (by decide), hword 1 (by decide), hword 2 (by decide), hword 3 (by decide), nofun⟩

/-! ### ECCPAGE (R123) -/

/-- Admission speaks of operand registers and parameters: stores to memory leave it. -/
theorem accessesAdmitted_eccpage_congr {lb : PageSize} {s u : State} (ho : u.operands = s.operands) (hc : u.cfg = s.cfg)
    (h : accessesAdmitted (.eccpage lb) s) : accessesAdmitted (.eccpage lb) u := by
  simpa only [accessesAdmitted, spareAdmitted, wordsAdmitted, State.spareAddr, State.eccAddr, State.genAddr, State.reg,
    ho, hc] using h

/-- A chunk of an admitted page is an admitted ECCCORR: the byte it corrects lies in the data buffer. -/
theorem accessesAdmitted_ecccorr_of_eccpage {lb : PageSize} {s : State} (h : accessesAdmitted (.eccpage lb) s) {k : Nat}
    (hk : k < chunksOf lb) : accessesAdmitted (.ecccorr k) s := by
  obtain ⟨-, hecc, hgen, hbuf⟩ := h
  refine ⟨hgen k hk, hecc k hk, fun _ => ?_⟩
  have hoff := byteOff_lt s.cfg (errAt s k)
  rw [State.correctAddr_eq]
  exact hbuf _ (by omega)

theorem correctChunks_completes {lb : PageSize} {is : List Nat} (his : ∀ i ∈ is, i < chunksOf lb) {a : PageAcc}
    {s : State} (h : accessesAdmitted (.eccpage lb) s) : ∃ r, correctChunks lb is a s = .ok r := by
  induction is generalizing a s with
  | nil => exact ⟨_, rfl⟩
  | cons i is ih =>
    obtain ⟨hi, his⟩ := List.forall_mem_cons.mp his
    have hadm := accessesOf_admitted (accessesAdmitted_ecccorr_of_eccpage h hi)
    obtain ⟨⟨o, u⟩, hc, -⟩ := (correctChunk_performs i s).completes ((firstFault_eq_none_iff _ _).mpr hadm)
    have hw := correctChunk_writes hc
    rw [correctChunks, hc, andThen_ok]
    exact ih his (accessesAdmitted_eccpage_congr hw.operands hw.cfg h)

theorem pageOp_completes {lb : PageSize} {s : State} (h : accessesAdmitted (.eccpage lb) s) :
    ∃ t, pageOp lb s = .ok t := by
  obtain ⟨u, hu, hw⟩ := (unpackPage_performs lb s).completes ((firstFault_eq_none_iff _ _).mpr (accessesOf_admitted h))
  obtain ⟨r, hr⟩ := correctChunks_completes (a := pageStart) (fun i hi => List.mem_range.mp hi)
    (accessesAdmitted_eccpage_congr hw.operands hw.cfg h)
  exact ⟨_, by rw [pageOp, hu, andThen_ok, hr, andThen_ok]⟩

end Sys2Proof.Machine
end

section
/-! The obligations of 30_encoding.md, each from the lemmas above. -/

namespace Sys2Proof.Machine

open Sys2Proof Sys2Proof.Claims

/-- Settles O3: the word lies in the row of its opcode, and the row reads the command back from it. -/
theorem decodeEncodeRoundTrip : Obligations.DecodeEncodeRoundTrip := fun _ => decode_encode

/-- Settles O4: a legal word lies in a row of R80, and encoding what the row reads from it gives it back. -/
theorem legalWordsAreEncodings : Obligations.LegalWordsAreEncodings := fun w i => (decode_eq_legal_iff_encode w i).mp

/-- Settles O5: the words of the well-formed commands, of which there are 778. -/
theorem legalWordsNumber778 : Obligations.LegalWordsNumber778 := by
  refine ⟨wellFormedCommands.map encode, ?_, ?_, fun w => ?_⟩
  · refine List.Nodup.map_on (fun i hi j hj => ?_) wellFormedCommands_nodup
    exact encode_inj ((mem_wellFormedCommands_iff i).mp hi) ((mem_wellFormedCommands_iff j).mp hj)
  · rw [List.length_map, wellFormedCommands_length]
  · simp only [List.mem_map, mem_wellFormedCommands_iff, decode_eq_legal_iff_encode]

/-- Settles O2: the three classes of R81, the two rejections, and the `STATUS` of an accepted or misaligned command. -/
theorem commandWordsAreClassified : Obligations.CommandWordsAreClassified := by
  refine ⟨fun s w h => ?_, fun s w ho hr => ?_, fun w ho hr => ?_, fun s t w ho hr h => ?_, by decide, by decide⟩
  · have hd := decode_of_illegalOpcode h
    exact ⟨hd, by rw [writeCmd, hd]; rfl⟩
  · have hd := decode_of_reservedFieldSet ho hr
    exact ⟨hd, by rw [writeCmd, hd]; rfl⟩
  · obtain ⟨o, hw⟩ := exists_opcode ho
    exact ⟨_, commandOf_eq_assemble hw, decode_of_opc_of_not_reserved hw hr⟩
  · obtain ⟨o, hw⟩ := exists_opcode ho
    rw [writeCmd_legal (decode_of_opc_of_not_reserved hw hr)] at h
    by_cases ha : basesAligned (o.assemble w) (s.setCmd w)
    · exact .inl (exec_status_aligned ha h)
    · exact .inr (exec_status_misaligned ha h)

/-- Settles O15: ECCPAGE by its parts, every other command by the accesses it makes. -/
theorem admittedCommandCompletes : Obligations.AdmittedCommandCompletes := by
  intro i s ha h
  by_cases hi : ∃ lb, i = .eccpage lb
  · obtain ⟨lb, rfl⟩ := hi
    have hin := SameInputs.noteReads s (readRegs (.eccpage lb))
    obtain ⟨t, ht⟩ := pageOp_completes (accessesAdmitted_eccpage_congr hin.operands hin.cfg h)
    exact ⟨_, exec_of_op_ok ha ht, rfl⟩
  · exact (commandFaultsAtFirstUnadmittedAccess i s (not_exists.mp hi) ha).2 (accessesOf_admitted h)

/-- Settles O1: the seven words, each by the decoder. -/
theorem sampleWordsDecode : Obligations.SampleWordsDecode := by
  refine ⟨?_, ?_, ?_, ?_, ?_, ?_, ?_⟩ <;> decide

/-- Settles O52: an immediate stands above the opcode's bits, and every other line is its row. -/
theorem scriptLinesExpand : Obligations.ScriptLinesExpand := by
  have hline (imm : Nat) {p : Nat} (hp : p < 2 ^ 8) :
      [wrEvent .cmd (immBits imm ||| BitVec.ofNat 32 p)] = [.hostWrite 0x00 32 (BitVec.ofNat 32 (imm * 256 + p))] := by
    rw [immBits_or imm hp]; rfl
  exact ⟨fun imm _ => ⟨hline imm (by decide), hline imm (by decide), hline imm (by decide)⟩, by decide, rfl, rfl, rfl,
    rfl, fun _ _ => ⟨rfl, rfl⟩, fun _ => rfl, fun _ _ _ _ => rfl⟩

end Sys2Proof.Machine
end

section
/-! ECCPACK and ECCUNPACK: the syndrome transform bit by bit, and each command as the memory its loop leaves. -/

namespace Sys2Proof.Machine

open Sys2Proof Sys2Proof.Claims

/-! ### The syndrome transform (R101) -/

/-- The mask of the low `n` bits. -/
theorem getLsbD_lowMask {n : Nat} (hn : n ≤ 32) (i : Nat) :
    (BitVec.ofNat 32 (2 ^ n - 1)).getLsbD i = decide (i < n) := by
  rw [BitVec.getLsbD_ofNat, Nat.testBit_two_pow_sub_one, ← Bool.decide_and]
  exact decide_eq_decide.mpr ⟨And.right, fun h => ⟨h.trans_le hn, h⟩⟩

/-- Packing puts the complement of bit `i` two places up, under two ones. -/
theorem getLsbD_packSyndrome (v : Word) (i : Nat) :
    (packSyndrome v).getLsbD i = (decide (i < 24) && (decide (i < 2) || !v.getLsbD (i - 2))) := by
  have hmask : (0x00FFFFFF : Word).getLsbD i = decide (i < 24) := getLsbD_lowMask (n := 24) (by decide) i
  rw [packSyndrome, BitVec.getLsbD_and, hmask, BitVec.getLsbD_not, BitVec.getLsbD_shiftLeft]
  by_cases hi : i < 24
  · simp [hi, show i < 32 by omega]
  · simp [hi]

/-- Unpacking takes the complement of the bit two places up. -/
theorem getLsbD_unpackSyndrome (u : Word) (i : Nat) :
    (unpackSyndrome u).getLsbD i = (decide (i < 22) && !u.getLsbD (i + 2)) := by
  have hmask : (0x003FFFFF : Word).getLsbD i = decide (i < 22) := getLsbD_lowMask (n := 22) (by decide) i
  rw [unpackSyndrome, BitVec.getLsbD_and, hmask, BitVec.getLsbD_ushiftRight, BitVec.getLsbD_not]
  by_cases hi : i < 22
  · simp [hi, show i + 2 < 32 by omega, Nat.add_comm 2 i]
  · simp [hi]

theorem packSyndrome_lt (v : Word) : (packSyndrome v).toNat < 2 ^ 24 := by
  rw [packSyndrome, BitVec.toNat_and]
  exact Nat.and_lt_two_pow _ (by decide)

theorem unpackSyndrome_lt (u : Word) : (unpackSyndrome u).toNat < 2 ^ 22 := by
  rw [unpackSyndrome, BitVec.toNat_and]
  exact Nat.and_lt_two_pow _ (by decide)

theorem unpackSyndrome_packSyndrome (v : Word) : unpackSyndrome (packSyndrome v) = v &&& 0x003FFFFF := by
  apply BitVec.eq_of_getLsbD_eq
  intro i _
  have hmask : (0x003FFFFF : Word).getLsbD i = decide (i < 22) := getLsbD_lowMask (n := 22) (by decide) i
  rw [getLsbD_unpackSyndrome, getLsbD_packSyndrome, BitVec.getLsbD_and, hmask]
  by_cases hi : i < 22 <;> simp [hi, show i + 2 < 24 ↔ i < 22 by omega]

theorem packSyndrome_unpackSyndrome {u : Word} (hu : u.toNat < 2 ^ 24) :
    packSyndrome (unpackSyndrome u) = u ||| 0x00000003 := by
  apply BitVec.eq_of_getLsbD_eq
  intro i _
  have hmask : (0x00000003 : Word).getLsbD i = decide (i < 2) := getLsbD_lowMask (n := 2) (by decide) i
  rw [getLsbD_packSyndrome, getLsbD_unpackSyndrome, BitVec.getLsbD_or, hmask]
  by_cases h24 : i < 24
  · by_cases h2 : i < 2
    · simp [h24, h2]
    · simp [h24, h2, show i - 2 < 22 by omega, show i - 2 + 2 = i by omega]
  · have hhigh : u.getLsbD i = false :=
      Nat.testBit_lt_two_pow (hu.trans_le (Nat.pow_le_pow_right (by decide) (Nat.le_of_not_lt h24)))
    simp [h24, hhigh, show ¬ i < 2 by omega]

/-! ### The three bytes of a packed syndrome (R102) -/

theorem word24_byteOf_packSyndrome (v : Word) :
    word24 (byteOf (packSyndrome v) 2) (byteOf (packSyndrome v) 1) (byteOf (packSyndrome v) 0) = packSyndrome v := by
  have htop : byteOf (packSyndrome v) 3 = 0x00 := by
    apply BitVec.eq_of_getLsbD_eq
    intro i hi
    simp [byteOf, getLsbD_packSyndrome, show ¬ 24 + i < 24 by omega]
  rw [word24, ← htop, wordOfBytes_byteOf]

theorem word24_lt (b2 b1 b0 : Byte) : (word24 b2 b1 b0).toNat < 2 ^ 24 := by
  have happend {n : Nat} (hi : BitVec n) (lo : Byte) : (hi ++ lo).toNat = hi.toNat * 2 ^ 8 + lo.toNat := by
    rw [BitVec.toNat_append, ← Nat.shiftLeft_add_eq_or_of_lt lo.isLt, Nat.shiftLeft_eq]
  have hword : (word24 b2 b1 b0).toNat = (b2.toNat * 2 ^ 8 + b1.toNat) * 2 ^ 8 + b0.toNat := by
    simp [word24, wordOfBytes, happend]
  omega

/-- Unpacking the three bytes of a packed syndrome gives the syndrome in 22 bits (R105). -/
theorem PackedAt.unpackSyndrome_eq {s u : State} {lb : PageSize} {k : Nat} (h : PackedAt s u lb k) :
    unpackSyndrome (word24 (u.peek (s.spareAddr lb (3 * k))) (u.peek (s.spareAddr lb (3 * k + 1)))
      (u.peek (s.spareAddr lb (3 * k + 2)))) = s.peekWord (s.eccAddr k) &&& 0x003FFFFF := by
  obtain ⟨h2, h1, h0⟩ := h
  rw [h2, h1, h0, word24_byteOf_packSyndrome, unpackSyndrome_packSyndrome]

/-- Packing an unpacked syndrome gives its three bytes back, with bits 1:0 of the least significant one set (R106). -/
theorem byteOf_packSyndrome_unpackSyndrome (b2 b1 b0 : Byte) :
    byteOf (packSyndrome (unpackSyndrome (word24 b2 b1 b0))) 2 = b2 ∧
    byteOf (packSyndrome (unpackSyndrome (word24 b2 b1 b0))) 1 = b1 ∧
    byteOf (packSyndrome (unpackSyndrome (word24 b2 b1 b0))) 0 = b0 ||| 0x03 := by
  have hor (v w : Word) (j : Nat) : byteOf (v ||| w) j = byteOf v j ||| byteOf w j := BitVec.extractLsb'_or
  obtain ⟨h0, h1, h2, -⟩ := byteOf_wordOfBytes 0x00 b2 b1 b0
  simp only [packSyndrome_unpackSyndrome (word24_lt b2 b1 b0), hor]
  rw [word24, h0, h1, h2]
  exact ⟨BitVec.or_zero, BitVec.or_zero, rfl⟩

/-- Packing the word a triple of spare bytes was unpacked into gives that triple back (R106). -/
theorem UnpackedAt.byteOf_packSyndrome_eq {s u : State} {lb : PageSize} {k : Nat} (h : UnpackedAt s u lb k) :
    byteOf (packSyndrome (u.peekWord (s.eccAddr k))) 2 = s.peek (s.spareAddr lb (3 * k)) ∧
    byteOf (packSyndrome (u.peekWord (s.eccAddr k))) 1 = s.peek (s.spareAddr lb (3 * k + 1)) ∧
    byteOf (packSyndrome (u.peekWord (s.eccAddr k))) 0 = s.peek (s.spareAddr lb (3 * k + 2)) ||| 0x03 := by
  rw [UnpackedAt] at h
  rw [h]
  exact byteOf_packSyndrome_unpackSyndrome _ _ _

/-! ### A command as the memory its operation leaves (R24 to R26) -/

theorem writtenRegs_of_ne {i : Instr} (hi : ∀ lb, i ≠ .eccpage lb) : writtenRegs i = [.result] := by
  cases i with
  | eccpage lb => exact absurd rfl (hi lb)
  | _ => rfl

/-- The fields of the state after a command but ECCPAGE that completed. -/
theorem exec_eq_afterCommand {i : Instr} {s t : State} (hi : ∀ lb, i ≠ .eccpage lb) (ha : basesAligned i s)
    (h : exec i s = .next t) : t = afterCommand i s t.mem t.result := by
  have hun : t.unwritten = s.unwritten.filter fun r => decide (r ≠ .result) := by
    simp only [exec_unwritten ha h, writtenRegs_of_ne hi, List.mem_singleton, ne_eq]
  calc t = { s with
      mem := t.mem, status := t.status, result := t.result, chunkstat := t.chunkstat
      unwritten := t.unwritten, mark := t.mark } := exec_only h
    _ = afterCommand i s t.mem t.result := by
      rw [exec_status_aligned ha h, exec_chunkstat_of_ne hi h, hun, exec_mark_aligned ha h]; rfl

/-- A command whose operation ends in setting `RESULT` leaves the memory of the state before that. -/
theorem exec_of_op_setResult {i : Instr} {s u : State} {r : Word} (hi : ∀ lb, i ≠ .eccpage lb) (ha : basesAligned i s)
    (hop : opOf i (s.noteReads (readRegs i)) = .ok (u.setResult r)) :
    exec i s = .next (afterCommand i s u.mem r) := by
  have h := exec_of_op_ok ha hop
  exact h.trans (congrArg Host.Outcome.next (exec_eq_afterCommand hi ha h))

/-- A command that is one loop and its `RESULT` leaves the memory the loop leaves. -/
theorem exec_of_loop {i : Instr} {f : Nat → State → Except Fault State} {ks : List Nat} {s u : State} {r : Word}
    (hi : ∀ lb, i ≠ .eccpage lb) (ha : basesAligned i s)
    (hf : ∀ k s t, SameInputs s t → Alike SameInputs (f k s) (f k t))
    (hop : ∀ t, opOf i t = andThen (forEach f ks t) fun v => .ok (v.setResult r)) (hu : forEach f ks s = .ok u) :
    exec i s = .next (afterCommand i s u.mem r) := by
  obtain ⟨v, hv, hin⟩ := (forEach_alike hf ks (SameInputs.noteReads s (readRegs i))).of_ok hu
  rw [← hin.mem]
  exact exec_of_op_setResult hi ha (by rw [hop, hv, andThen_ok])

/-! ### ECCPACK and ECCUNPACK with a valid count (R103, R104) -/

theorem pageOfCount_of_validCount {count : Nat} {lb : PageSize} (hc : validCount count lb) :
    pageOfCount count = some lb := by
  obtain ⟨rfl, rfl⟩ | ⟨rfl, rfl⟩ := hc <;> rfl

section
variable {count : Nat} {lb : PageSize} {s : State} (hc : validCount count lb)
  (hd : ∀ x, inSpareLayout s lb x → ¬ inWords s.eccAddr (chunksOf lb) x)
include hc hd

/-- ECCPACK, where its loop meets no fault and its objects do not overlap. -/
theorem eccpack_spec (ha : basesAligned (.eccpack count) s) (hadm : accessesAdmitted (.eccpack count) s)
    (hl : s.cfg.LayoutsInjective) :
    ∃ u, exec (.eccpack count) s = .next (afterCommand (.eccpack count) s u.mem 1) ∧
      Writes (inSpareLayout s lb) s u ∧ ∀ k < chunksOf lb, PackedAt s u lb k := by
  have hpage := pageOfCount_of_validCount hc
  simp only [accessesAdmitted, hpage] at hadm
  obtain ⟨hsp, hwd⟩ := hadm
  obtain ⟨u, hu, hspec⟩ := packPage_spec lb s hsp hwd hl hd
  exact ⟨u, exec_of_loop nofun ha (fun k _ _ h => packChunk_alike h lb k)
    (fun t => by simp only [opOf, packOp, hpage, packPage]) hu, hspec⟩

/-- ECCUNPACK, where its loop meets no fault and its objects do not overlap. -/
theorem eccunpack_spec (ha : basesAligned (.eccunpack count) s) (hadm : accessesAdmitted (.eccunpack count) s) :
    ∃ u, exec (.eccunpack count) s = .next (afterCommand (.eccunpack count) s u.mem 1) ∧
      Writes (inWords s.eccAddr (chunksOf lb)) s u ∧ ∀ k < chunksOf lb, UnpackedAt s u lb k := by
  have hpage := pageOfCount_of_validCount hc
  simp only [accessesAdmitted, hpage] at hadm
  obtain ⟨hsp, hwd⟩ := hadm
  obtain ⟨u, hu, hspec⟩ := unpackPage_spec lb s hsp hwd hd
  exact ⟨u, exec_of_loop nofun ha (fun k _ _ h => unpackChunk_alike h lb k)
    (fun t => by simp only [opOf, unpackOp, hpage, unpackPage]) hu, hspec⟩

end

end Sys2Proof.Machine
end

section
/-! The obligations of 40_ecc_pack.md, each from the lemmas above. -/

namespace Sys2Proof.Machine

open Sys2Proof Sys2Proof.Claims

/-- Settles O31: the two transforms bit by bit, and the two compositions. -/
theorem syndromeTransformIsInverse : Obligations.SyndromeTransformIsInverse := by
  refine ⟨fun v i hi => ?_, fun v => ⟨?_, ?_, packSyndrome_lt v⟩, fun u i hi => ?_, unpackSyndrome_lt,
    unpackSyndrome_packSyndrome, fun u => packSyndrome_unpackSyndrome, by decide, by decide⟩
  · simp [getLsbD_packSyndrome, show i + 2 < 24 by omega]
  · simp [getLsbD_packSyndrome]
  · simp [getLsbD_packSyndrome]
  · simp [getLsbD_unpackSyndrome, hi]

/-- Settles O32: the loop of ECCPACK packs each syndrome and writes layout bytes only. -/
theorem eccpackPacksEverySyndrome : Obligations.EccpackPacksEverySyndrome := by
  intro count lb s hc ha hadm hl hd
  obtain ⟨u, hexec, hw, hpacked⟩ := eccpack_spec hc hd ha hadm hl
  exact ⟨_, hexec, rfl, hpacked, hw.frame⟩

/-- Settles O33: the loop of ECCUNPACK unpacks each syndrome and writes the words of the array only. -/
theorem eccunpackUnpacksEverySyndrome : Obligations.EccunpackUnpacksEverySyndrome := by
  intro count lb s hc ha hadm hd
  obtain ⟨u, hexec, hw, hunpacked⟩ := eccunpack_spec hc hd ha hadm
  exact ⟨_, hexec, rfl, hunpacked, hw.frame⟩

/-- Settles O34: the operation sets `RESULT` and makes no access. -/
theorem invalidCountGivesZero : Obligations.InvalidCountGivesZero := by
  intro count s h2 h8 ha
  have hnone : pageOfCount count = none := by rw [pageOfCount, if_neg h2, if_neg h8]
  have hmem (i : Instr) : (s.noteReads (readRegs i)).mem = s.mem := s.noteReads_mem _
  constructor
  · rw [← hmem (.eccpack count)]
    exact exec_of_op_setResult nofun ha (by rw [opOf, packOp, hnone])
  · rw [← hmem (.eccunpack count)]
    exact exec_of_op_setResult nofun ha (by rw [opOf, unpackOp, hnone])

/-- Settles O35: the second array receives the packed bytes unpacked, which are the syndromes in 22 bits. -/
theorem packThenUnpackReproducesSyndromes : Obligations.PackThenUnpackReproducesSyndromes := by
  intro count lb s ecc2 hc ha ha2 hadm hadm2 hl hd
  obtain ⟨u, hpack, -, hpacked⟩ := eccpack_spec hc (fun x hx => (hd x hx).1) ha hadm hl
  -- addresses and admission do not read memory, so what is asked of `s` with the second array holds after ECCPACK too
  obtain ⟨w, hunpack, -, hunpacked⟩ :=
    eccunpack_spec (s := (afterCommand (.eccpack count) s u.mem 1).setOperand .eccPtr ecc2) hc
      (fun x hx => (hd x hx).2) ha2 hadm2
  exact ⟨_, _, hpack, hunpack, fun k hk => (hunpacked k hk).trans (hpacked k hk).unpackSyndrome_eq⟩

/-- Settles O36: each syndrome word then holds the unpacked bytes, and packing it gives them back. -/
theorem unpackThenPackRestoresSpare : Obligations.UnpackThenPackRestoresSpare := by
  intro count lb s hc ha hadm hl hd
  obtain ⟨u, hunpack, -, hunpacked⟩ := eccunpack_spec hc hd ha hadm
  -- addresses and admission do not read memory, so what is asked of `s` holds after ECCUNPACK too
  obtain ⟨w, hpack, -, hpacked⟩ :=
    eccpack_spec (s := afterCommand (.eccunpack count) s u.mem 1) hc hd ha hadm hl
  refine ⟨_, _, hunpack, hpack, fun k hk => ?_⟩
  obtain ⟨h2, h1, h0⟩ := hpacked k hk
  obtain ⟨e2, e1, e0⟩ := (hunpacked k hk).byteOf_packSyndrome_eq
  exact ⟨h2.trans e2, h1.trans e1, h0.trans e0⟩

end Sys2Proof.Machine
end

section
/-! Where ECCCORR finds the bit it corrects, the syndrome difference a single flipped bit makes, and the reference
generator bit by bit. -/

namespace Sys2Proof.Machine

open Sys2Proof Sys2Proof.Claims

/-! ### The located bit (R118, R119) -/

/-- Bit `j` of a number assembled from selected bits is the bit at the `j`-th position. -/
theorem testBit_gatherBits (v : Word) (ps : List (Fin 32)) {j : Nat} (hj : j < ps.length) :
    (gatherBits v ps).testBit j = v.getLsbD (ps[j]).val := by
  induction ps generalizing j with
  | nil => simp at hj
  | cons p ps ih =>
    have hbit : gatherBits v (p :: ps) = Nat.bit (v.getLsbD p.val) (gatherBits v ps) := by
      rw [gatherBits, Nat.bit_val, Nat.add_comm]
    rw [hbit]
    cases j with
    | zero => exact Nat.testBit_bit_zero _ _
    | succ j =>
      rw [Nat.testBit_bit_succ, ih (Nat.lt_of_succ_lt_succ hj), List.getElem_cons_succ]

theorem bitOff_lt (c : Config) (err : Word) : bitOff c err < 8 := by
  simpa [bitOff] using gatherBits_lt err c.bitSel.toList

theorem testBit_bitOff (c : Config) (err : Word) (j : Fin 3) :
    (bitOff c err).testBit j.val = err.getLsbD (c.bitSel[j]).val := by
  rw [bitOff, testBit_gatherBits _ _ (by simp), Vector.getElem_toList]; rfl

theorem testBit_byteOff (c : Config) (err : Word) (k : Fin 8) :
    (byteOff c err).testBit k.val = err.getLsbD (c.byteSel[k]).val := by
  rw [byteOff, testBit_gatherBits _ _ (by simp), Vector.getElem_toList]; rfl

/-- The default `BIT_SEL` selects the odd members of the column pairs. -/
theorem testBit_bitOff_default (err : Word) {j : Nat} (hj : j < 3) :
    (bitOff defaultConfig err).testBit j = err.getLsbD (2 * j + 1) := by
  have hsel (j : Fin 3) : (defaultConfig.bitSel[j]).val = 2 * j.val + 1 := by decide +revert
  exact (testBit_bitOff defaultConfig err ⟨j, hj⟩).trans (congrArg err.getLsbD (hsel ⟨j, hj⟩))

/-- The default `BYTE_SEL` selects the odd members of the line pairs. -/
theorem testBit_byteOff_default (err : Word) {k : Nat} (hk : k < 8) :
    (byteOff defaultConfig err).testBit k = err.getLsbD (2 * k + 7) := by
  have hsel (k : Fin 8) : (defaultConfig.byteSel[k]).val = 2 * k.val + 7 := by decide +revert
  exact (testBit_byteOff defaultConfig err ⟨k, hk⟩).trans (congrArg err.getLsbD (hsel ⟨k, hk⟩))

/-! ### The closed form of a flip (R128) -/

/-- The bit of a position that pair `k` of syndrome bits tells: pairs 0 to 2 tell the bits of the bit number `b`, pairs
3 to 10 those of the byte number `B` (R127). -/
def positionBit (B b k : Nat) : Bool := if k < 3 then b.testBit k else B.testBit (k - 3)

theorem getLsbD_orUpTo (n : Nat) (f : Nat → Word) (m : Nat) :
    (orUpTo n f).getLsbD m = true ↔ ∃ j < n, (f j).getLsbD m = true := by
  induction n with
  | zero => simp [orUpTo]
  | succ n ih => rw [orUpTo, BitVec.getLsbD_or, Bool.or_eq_true, ih, Nat.exists_lt_succ_right]

theorem getLsbD_one_shiftLeft {w k : Nat} (hk : k < w) (m : Nat) :
    ((1 : BitVec w) <<< k).getLsbD m = decide (m = k) := by
  have hpow : (1 : BitVec w) <<< k = BitVec.twoPow w k := rfl
  rw [hpow, BitVec.getLsbD_twoPow, decide_eq_true hk, Bool.true_and, decide_eq_decide]
  exact eq_comm

/-- The syndrome difference has one bit of each pair: the odd member where the position's bit is 1. -/
theorem getLsbD_errOfFlip (B b m : Nat) :
    (errOfFlip B b).getLsbD m = true ↔ ∃ k < 11, m = 2 * k + (positionBit B b k).toNat := by
  have hcol : ∀ j < 3, ((1 : Word) <<< (2 * j + (b.testBit j).toNat)).getLsbD m = true ↔
      m = 2 * j + (b.testBit j).toNat := fun j hj =>
    by rw [getLsbD_one_shiftLeft (by have := Bool.toNat_lt (b.testBit j); omega), decide_eq_true_iff]
  have hline : ∀ k < 8, ((1 : Word) <<< (2 * k + 6 + (B.testBit k).toNat)).getLsbD m = true ↔
      m = 2 * k + 6 + (B.testBit k).toNat := fun k hk =>
    by rw [getLsbD_one_shiftLeft (by have := Bool.toNat_lt (B.testBit k); omega), decide_eq_true_iff]
  rw [errOfFlip, BitVec.getLsbD_or, Bool.or_eq_true, getLsbD_orUpTo, getLsbD_orUpTo]
  constructor
  · rintro (⟨j, hj, h⟩ | ⟨k, hk, h⟩)
    · exact ⟨j, by omega, by rw [positionBit, if_pos hj]; exact (hcol j hj).mp h⟩
    · refine ⟨k + 3, by omega, ?_⟩
      rw [positionBit, if_neg (by omega), Nat.add_sub_cancel, (hline k hk).mp h]
      omega
  · rintro ⟨k, hk, h⟩
    by_cases hk3 : k < 3
    · rw [positionBit, if_pos hk3] at h
      exact .inl ⟨k, hk3, (hcol k hk3).mpr h⟩
    · rw [positionBit, if_neg hk3] at h
      exact .inr ⟨k - 3, by omega, (hline _ (by omega)).mpr (by omega)⟩

/-- The same, by the number of the syndrome bit. -/
theorem getLsbD_errOfFlip_iff (B b m : Nat) :
    (errOfFlip B b).getLsbD m = true ↔ m < 22 ∧ positionBit B b (m / 2) = decide (m % 2 = 1) := by
  rw [getLsbD_errOfFlip]
  constructor
  · rintro ⟨k, hk, rfl⟩
    refine ⟨by have := Bool.toNat_lt (positionBit B b k); omega, ?_⟩
    cases hp : positionBit B b k with
    | false => simp [hp]
    | true => simp [hp, show (2 * k + 1) / 2 = k by omega]
  · rintro ⟨hm, hp⟩
    refine ⟨m / 2, by omega, ?_⟩
    rw [hp]
    by_cases hodd : m % 2 = 1
    · rw [decide_eq_true hodd, Bool.toNat_true]; omega
    · rw [decide_eq_false hodd, Bool.toNat_false]; omega

/-- One of each of the eleven pairs (R128). -/
theorem onesOf_errOfFlip (B b : Nat) : onesOf (errOfFlip B b) = 11 := by
  have hhalf (k : Nat) : (2 * k + (positionBit B b k).toNat) / 2 = k := by
    have := Bool.toNat_lt (positionBit B b k); omega
  have hlt (k : Nat) (hk : k < 11) : 2 * k + (positionBit B b k).toNat < 32 := by
    have := Bool.toNat_lt (positionBit B b k); omega
  rw [← Finset.card_range 11]
  refine Finset.card_nbij (fun m : Fin 32 => m.val / 2) ?_ ?_ ?_
  · intro m hm
    obtain ⟨k, hk, e⟩ := (getLsbD_errOfFlip B b m.val).mp (Finset.mem_filter.mp hm).2
    simpa [e, hhalf] using hk
  · intro m hm m' hm' heq
    obtain ⟨k, hk, e⟩ := (getLsbD_errOfFlip B b m.val).mp (Finset.mem_filter.mp hm).2
    obtain ⟨k', hk', e'⟩ := (getLsbD_errOfFlip B b m'.val).mp (Finset.mem_filter.mp hm').2
    simp only [e, e', hhalf] at heq
    exact Fin.ext (by rw [e, e', heq])
  · intro k hk
    have hk : k < 11 := by simpa using hk
    exact ⟨⟨_, hlt k hk⟩, Finset.mem_filter.mpr ⟨Finset.mem_univ _, (getLsbD_errOfFlip B b _).mpr ⟨k, hk, rfl⟩⟩, hhalf k⟩

theorem getLsbD_errOfFlip_odd (B b : Nat) {k : Nat} (hk : k < 11) :
    (errOfFlip B b).getLsbD (2 * k + 1) = positionBit B b k := by
  rw [Bool.eq_iff_iff, getLsbD_errOfFlip_iff]
  simp [show (2 * k + 1) / 2 = k by omega, show 2 * k + 1 < 22 by omega]

/-- Two numbers below `2^n` with the same `n` bits are equal. -/
theorem eq_of_testBit_lt {n x y : Nat} (hx : x < 2 ^ n) (hy : y < 2 ^ n) (h : ∀ j < n, x.testBit j = y.testBit j) :
    x = y := by
  refine Nat.eq_of_testBit_eq fun j => ?_
  by_cases hj : j < n
  · exact h j hj
  · have hpow : 2 ^ n ≤ 2 ^ j := Nat.pow_le_pow_right (by decide) (by omega)
    rw [Nat.testBit_lt_two_pow (hx.trans_le hpow), Nat.testBit_lt_two_pow (hy.trans_le hpow)]

theorem bitOff_errOfFlip (B : Nat) {b : Nat} (hb : b < 8) : bitOff defaultConfig (errOfFlip B b) = b := by
  refine eq_of_testBit_lt (n := 3) (bitOff_lt _ _) hb fun j hj => ?_
  rw [testBit_bitOff_default _ hj, getLsbD_errOfFlip_odd B b (by omega), positionBit, if_pos hj]

theorem byteOff_errOfFlip {B : Nat} (hB : B < 256) (b : Nat) : byteOff defaultConfig (errOfFlip B b) = B := by
  refine eq_of_testBit_lt (n := 8) (byteOff_lt _ _) hB fun k hk => ?_
  rw [testBit_byteOff_default _ hk, show 2 * k + 7 = 2 * (k + 3) + 1 by omega,
    getLsbD_errOfFlip_odd B b (by omega), positionBit, if_neg (by omega), Nat.add_sub_cancel]

/-! ### The reference generator (R127) -/

theorem xorUpTo_xor (n : Nat) (f g : Nat → Bool) :
    (xorUpTo n f ^^ xorUpTo n g) = xorUpTo n fun i => f i ^^ g i := by
  induction n with
  | zero => rfl
  | succ n ih => simp [xorUpTo, ← ih, Bool.xor_left_comm]

theorem xorUpTo_of_false {n : Nat} {f : Nat → Bool} (h : ∀ i < n, f i = false) : xorUpTo n f = false := by
  induction n with
  | zero => rfl
  | succ n ih => rw [xorUpTo, ih fun i hi => h i (by omega), h n (by omega)]; rfl

/-- An XOR of values all but one of which are 0 is that one. -/
theorem xorUpTo_of_single {n k : Nat} {f : Nat → Bool} (hk : k < n) (h : ∀ i < n, i ≠ k → f i = false) :
    xorUpTo n f = f k := by
  induction n with
  | zero => omega
  | succ n ih =>
    rw [xorUpTo]
    by_cases hkn : k = n
    · rw [xorUpTo_of_false fun i hi => h i (by omega) (by omega), hkn, Bool.false_xor]
    · rw [ih (by omega) fun i hi => h i (by omega), h n (by omega) (Ne.symm hkn), Bool.xor_false]

theorem getLsbD_flipBit (v : Byte) {n : Nat} (hn : n < 8) (j : Nat) :
    (flipBit v n).getLsbD j = (v.getLsbD j ^^ decide (j = n)) := by
  rw [flipBit, BitVec.getLsbD_xor, getLsbD_one_shiftLeft hn]

theorem flipped_same (D : Chunk) (B : Fin 256) (b : Nat) : flipped D B b B = flipBit (D B) b := if_pos rfl

theorem flipped_other (D : Chunk) {B j : Fin 256} (b : Nat) (h : j ≠ B) : flipped D B b j = D j := if_neg h

/-- A parity over some positions of a chunk changes with a flipped bit when it covers that bit. -/
theorem chunkParity_flipped (D : Chunk) (B : Fin 256) {b : Nat} (hb : b < 8) (p : Nat → Nat → Bool) :
    (chunkParity D p ^^ chunkParity (flipped D B b) p) = p B.val b := by
  have hself : Fin.ofNat 256 B.val = B := Fin.ofNat_val_eq_self B
  simp only [chunkParity, xorUpTo_xor]
  rw [xorUpTo_of_single B.isLt, xorUpTo_of_single hb]
  · rw [hself, flipped_same, getLsbD_flipBit _ hb, ← Bool.and_xor_distrib_right]
    simp
  · intro j _ hne
    rw [hself, flipped_same, getLsbD_flipBit _ hb, decide_eq_false hne, Bool.xor_false, Bool.xor_self]
  · intro i hi hne
    have hother : Fin.ofNat 256 i ≠ B := fun e => hne (by simpa [Nat.mod_eq_of_lt hi] using congrArg Fin.val e)
    exact xorUpTo_of_false fun j _ => by rw [flipped_other D b hother, Bool.xor_self]

/-- A flipped bit changes, of each pair of syndrome bits, the one that covers its position. -/
theorem eccGenBit_flipped (D : Chunk) (B : Fin 256) {b : Nat} (hb : b < 8) (m : Nat) :
    (eccGenBit D m ^^ eccGenBit (flipped D B b) m) = (positionBit B.val b (m / 2) == decide (m % 2 = 1)) := by
  by_cases hm : m < 6
  · simp only [eccGenBit, hm, if_true, chunkParity_flipped D B hb, positionBit, show m / 2 < 3 by omega]
  · simp only [eccGenBit, hm, if_false, chunkParity_flipped D B hb, positionBit, show ¬ m / 2 < 3 by omega,
      show (m - 6) / 2 = m / 2 - 3 by omega]

theorem getLsbD_syndromeOfBits {n : Nat} (hn : n ≤ 22) (f : Nat → Bool) (m : Nat) :
    (syndromeOfBits n f).getLsbD m = (decide (m < n) && f m) := by
  induction n with
  | zero => simp [syndromeOfBits]
  | succ n ih =>
    have hlast : (if f n = true then (1 : BitVec 22) <<< n else 0).getLsbD m = (decide (m = n) && f n) := by
      cases f n with
      | false => simp
      | true => rw [if_pos rfl, getLsbD_one_shiftLeft (by omega), Bool.and_true]
    rw [syndromeOfBits, BitVec.getLsbD_or, ih (by omega), hlast]
    by_cases hmn : m = n
    · simp [hmn]
    · simp [hmn, show m < n + 1 ↔ m < n by omega]

theorem getLsbD_syndromeWord_eccGen (D : Chunk) (m : Nat) :
    (syndromeWord eccGen D).getLsbD m = (decide (m < 22) && eccGenBit D m) := by
  rw [syndromeWord, BitVec.getLsbD_setWidth, eccGen, getLsbD_syndromeOfBits (le_refl 22)]
  by_cases hm : m < 22
  · simp [hm, show m < 32 by omega]
  · simp [hm]

/-- The reference generator's syndrome changes by the closed form (R128). -/
theorem locatesFlips_eccGen : LocatesFlips eccGen := by
  intro D B b hb
  refine BitVec.eq_of_getLsbD_eq fun m _ => ?_
  rw [BitVec.getLsbD_xor, getLsbD_syndromeWord_eccGen, getLsbD_syndromeWord_eccGen, ← Bool.and_xor_distrib_left,
    eccGenBit_flipped D B hb, Bool.eq_iff_iff, getLsbD_errOfFlip_iff]
  simp

/-- A fixed mask goes into every syndrome word (R127). -/
theorem syndromeWord_maskedGen (g : EccGenerator) (m : BitVec 22) (D : Chunk) :
    syndromeWord (maskedGen g m) D = syndromeWord g D ^^^ m.setWidth 32 :=
  BitVec.setWidth_xor

end Sys2Proof.Machine
end

section
/-! ECCCORR as one state: what `Correct(idx)` leaves when the bytes it may access are admitted. -/

namespace Sys2Proof.Machine

open Sys2Proof Sys2Proof.Claims

/-! ### The decision table (R116) -/

theorem onesOf_eq_zero_iff (err : Word) : onesOf err = 0 ↔ err = 0 := by
  rw [onesOf, Finset.card_eq_zero, Finset.filter_eq_empty_iff]
  constructor
  · intro h
    refine BitVec.eq_of_getLsbD_eq fun i hi => ?_
    simpa using h (Finset.mem_univ (⟨i, hi⟩ : Fin 32))
  · rintro rfl i _
    simp

/-- The outcome by the number of ones alone. -/
theorem outcomeOf_eq (err : Word) :
    outcomeOf err = if onesOf err = 0 then .noErr else if onesOf err = 1 then .areaErr
      else if onesOf err = 11 then .corrected else .notCorrectable := by
  simp only [outcomeOf, onesOf_eq_zero_iff]

theorem outcomeOf_of_eleven {err : Word} (h : onesOf err = 11) : outcomeOf err = .corrected := by
  simp [outcomeOf_eq, h]

/-! ### `Correct(idx)` (R120) -/

/-- What `Correct(idx)` leaves: with 11 ones in `err` the located bit flipped, else the state as it was. -/
def State.afterCorrect (s : State) (idx : Nat) : State :=
  if onesOf (errAt s idx) = 11 then
    s.poke (s.correctAddr idx (errAt s idx))
      (flipBit (s.peek (s.correctAddr idx (errAt s idx))) (bitOff s.cfg (errAt s idx)))
  else s

theorem State.afterCorrect_of_ne {s : State} {idx : Nat} (h : onesOf (errAt s idx) ≠ 11) : s.afterCorrect idx = s :=
  if_neg h

theorem State.afterCorrect_writes (s : State) (idx : Nat) :
    Writes (· = s.correctAddr idx (errAt s idx)) s (s.afterCorrect idx) := by
  unfold State.afterCorrect
  split
  · exact s.poke_writes _ _
  · exact Writes.refl _ s

theorem State.peek_afterCorrect (s : State) (idx : Nat) (x : Word) :
    (s.afterCorrect idx).peek x =
      if onesOf (errAt s idx) = 11 ∧ x = s.correctAddr idx (errAt s idx) then
        flipBit (s.peek x) (bitOff s.cfg (errAt s idx))
      else s.peek x := by
  by_cases h : onesOf (errAt s idx) = 11
  · rw [State.afterCorrect, if_pos h, State.peek_poke]
    by_cases hx : x = s.correctAddr idx (errAt s idx) <;> simp [h, hx]
  · rw [State.afterCorrect_of_ne h, if_neg fun hc => h hc.1]

/-- `Correct(idx)` completes where its accesses are admitted, with the outcome of the decision table. -/
theorem correctChunk_admitted {idx : Nat} {s : State} (hadm : accessesAdmitted (.ecccorr idx) s) :
    correctChunk idx s = .ok (outcomeOf (errAt s idx), s.afterCorrect idx) := by
  obtain ⟨hgen, hecc, hbuf⟩ := hadm
  have hout := classifyErr_eq_outcomeOf (errAt s idx)
  refine (correctChunk_ok_iff _ _ _ _).mpr ⟨⟨hgen, hecc, hout.symm⟩, ?_⟩
  by_cases h : onesOf (errAt s idx) = 11
  · have hbyte := hbuf (hout.trans (outcomeOf_of_eleven h))
    exact .inl ⟨outcomeOf_of_eleven h, (correctBit_ok_iff _ _ _ _).mpr ⟨hbyte, if_pos h⟩⟩
  · rw [← hout]
    exact .inr ⟨mt (classifyErr_eq_corrected_iff _).mp h, State.afterCorrect_of_ne h⟩

/-- ECCCORR, where its accesses are admitted. -/
theorem exec_ecccorr {idx : Nat} {s : State} (ha : basesAligned (.ecccorr idx) s)
    (hadm : accessesAdmitted (.ecccorr idx) s) :
    exec (.ecccorr idx) s = .next (afterCommand (.ecccorr idx) s (s.afterCorrect idx).mem
      ((outcomeCode s.cfg (outcomeOf (errAt s idx))).setWidth 32)) := by
  obtain ⟨⟨_, u⟩, hu, rfl, hin⟩ :=
    (correctChunk_alike (SameInputs.noteReads s (readRegs (.ecccorr idx))) idx).of_ok (correctChunk_admitted hadm)
  rw [← hin.mem]
  exact exec_of_op_setResult nofun ha (by rw [opOf, corrOp, hu, andThen_ok, State.noteReads_cfg])

/-- A correction outside the two syndrome words leaves the difference it was decided on. -/
theorem errAt_of_writes {A : Word → Prop} {s t : State} {idx : Nat} (hw : Writes A s t)
    (hecc : ∀ x ∈ wordBytes (s.eccAddr idx), ¬ A x) (hgen : ∀ x ∈ wordBytes (s.genAddr idx), ¬ A x) :
    errAt t idx = errAt s idx := by
  rw [errAt, hw.eccAddr, hw.genAddr, State.peekWord_congr fun x hx => hw.frame x (hecc x hx),
    State.peekWord_congr fun x hx => hw.frame x (hgen x hx)]
  rfl

theorem flipBit_flipBit (v : Byte) (n : Nat) : flipBit (flipBit v n) n = v := by
  rw [flipBit, flipBit, BitVec.xor_assoc, BitVec.xor_self, BitVec.xor_zero]

/-- The bytes of a chunk and the byte a correction of it flips (R117, R118). -/
theorem State.chunkByte_eq_correctAddr_iff (s : State) (idx : Nat) (err : Word) {j : Nat} (hj : j < 256) :
    addrAt (s.chunkAddr idx) j = s.correctAddr idx err ↔ j = byteOff s.cfg err :=
  addrAt_inj (by omega) (by have := byteOff_lt s.cfg err; omega)

end Sys2Proof.Machine
end

section
/-! ECCPAGE as its unpack and its correction loop, and both in closed form where the objects do not overlap. -/

namespace Sys2Proof.Machine

open Sys2Proof Sys2Proof.Claims

/-! ### Which outcomes fail a page (R124) -/

theorem pageFails_outcomeCode_iff {c : Config} (hc : c.CodesDistinct) (lb : PageSize) (o : EccOutcome) :
    pageFails c lb (outcomeCode c o) = true ↔ failsPage c lb o := by
  simp only [Config.CodesDistinct, List.nodup_cons, List.mem_cons, List.not_mem_nil, or_false, not_or] at hc
  obtain ⟨⟨hnc, hna, hnn⟩, ⟨hca, hcn⟩, han, -⟩ := hc
  cases lb with
  | small => cases o <;> simp [pageFails, outcomeCode, failsPage, Ne.symm, *]
  | large => cases o <;> simp [pageFails, outcomeCode, failsPage, Ne.symm, *]

theorem pageResult_eq_failure_iff (lb : PageSize) (fail : Bool) : pageResult lb fail = 0xFFFFFFFF ↔ fail = true := by
  cases lb <;> cases fail <;> decide

/-! ### ECCPAGE and its two loops (R123) -/

/-- The fields of the state after an ECCPAGE that completed. -/
theorem exec_eq_afterPage {lb : PageSize} {s t : State} (ha : basesAligned (.eccpage lb) s)
    (h : exec (.eccpage lb) s = .next t) : t = afterPage lb s t.mem t.result t.chunkstat := by
  have hun : t.unwritten =
      (s.unwritten.filter fun r => decide (r ≠ .chunkstat)).filter fun r => decide (r ≠ .result) := by
    simp [exec_unwritten ha h, writtenRegs, List.filter_filter]
  calc t = { s with
      mem := t.mem, status := t.status, result := t.result, chunkstat := t.chunkstat
      unwritten := t.unwritten, mark := t.mark } := exec_only h
    _ = afterPage lb s t.mem t.result t.chunkstat := by
      rw [exec_status_aligned ha h, hun, exec_mark_aligned ha h]; rfl

/-- Where the unpack and the correction loop complete, ECCPAGE completes with their memory and their collation. -/
theorem exec_eccpage_of_loops {lb : PageSize} {s u v : State} {b : PageAcc} (ha : basesAligned (.eccpage lb) s)
    (hu : unpackPage lb s = .ok u) (hv : correctChunks lb (List.range (chunksOf lb)) pageStart u = .ok (b, v)) :
    exec (.eccpage lb) s = .next (afterPage lb s v.mem (pageResult lb b.fail) b.cs) := by
  obtain ⟨u', hu', hin⟩ := (forEach_alike (f := unpackChunk lb) (fun k _ _ h => unpackChunk_alike h lb k) _
    (SameInputs.noteReads s (readRegs (.eccpage lb)))).of_ok hu
  obtain ⟨⟨_, v'⟩, hv', rfl, hin'⟩ := (correctChunks_alike lb _ pageStart hin).of_ok hv
  have h := exec_of_op_ok (i := .eccpage lb) ha (by rw [opOf, pageOp, unpackPage, hu', andThen_ok, hv', andThen_ok])
  rw [← hin'.mem]
  exact h.trans (congrArg Host.Outcome.next (exec_eq_afterPage ha h))

/-- Field `k` of the collation of a page holds the code of the outcome of chunk `k` (R28). -/
theorem correctChunks_page_field {lb : PageSize} {u v : State} {b : PageAcc} {k : Nat} {o : EccOutcome}
    (hv : correctChunks lb (List.range (chunksOf lb)) pageStart u = .ok (b, v))
    (ho : (outcomesFrom (List.range (chunksOf lb)) u)[k]? = some o) :
    chunkField b.cs k = outcomeCode u.cfg o := by
  have hlen := (correctChunks_length hv).trans List.length_range
  have hk : k < chunksOf lb := hlen ▸ (List.getElem?_eq_some_iff.mp ho).1
  have hlt : ∀ i ∈ List.range (chunksOf lb), i < 16 := fun i hi =>
    (List.mem_range.mp hi).trans_le ((chunksOf_le lb).trans (by decide))
  exact correctChunks_field hv hlt List.nodup_range (fun l _ => BitVec.extractLsb'_zero) (List.getElem?_range hk) ho

/-- Where ECCCORR of the chunks, one after the other, completes, the loop of ECCPAGE completes with the same memory, and
each `RESULT` was the code of its chunk's outcome (R123). -/
theorem correctChunks_of_runCorrections {lb : PageSize} {is : List Nat} {a : PageAcc} {s t v : State} {rs : List Word}
    (ha : basesAligned (.eccpage lb) t) (h : SameInputs s t) (hr : runCorrections is t = some (rs, v)) :
    ∃ b w, correctChunks lb is a s = .ok (b, w) ∧ SameInputs w v ∧
      rs = (outcomesFrom is s).map fun o => (outcomeCode s.cfg o).setWidth 32 := by
  induction is generalizing a s t rs with
  | nil => cases hr; exact ⟨a, s, rfl, h, rfl⟩
  | cons i is ih =>
    rw [runCorrections] at hr
    obtain ⟨e, -, hx⟩ | ⟨⟨o, w⟩, u, hc, hx, hsame⟩ := exec_ecccorr_cases (idx := i) ha h
    · rw [hx] at hr; cases hr
    rw [hx] at hr
    cases hrest : runCorrections is u with
    | none => simp [hrest] at hr
    | some q =>
      obtain ⟨rs', v'⟩ := q
      simp only [hrest, Option.some.injEq, Prod.mk.injEq] at hr
      obtain ⟨rfl, rfl⟩ := hr
      obtain ⟨b, x, hloop, hin, rfl⟩ := ih (a := pageNext s.cfg lb i (outcomeCode s.cfg o) a)
        ((basesAligned_of_exec hx _).mpr ha) hsame hrest
      obtain ⟨⟨-, -, rfl⟩, -⟩ := (correctChunk_ok_iff _ _ _ _).mp hc
      refine ⟨b, x, by rw [correctChunks, hc, andThen_ok]; exact hloop, hin, ?_⟩
      have hres : u.result = (outcomeCode s.cfg (classifyErr (errAt s i))).setWidth 32 := by
        rw [exec_result (i := .ecccorr i) ha hx, resultOf, h.errAt, h.cfg]
      rw [outcomesFrom, hc, List.map_cons, hres, (correctChunk_writes hc).cfg]

/-! ### The correction loop on objects that do not overlap (R123) -/

/-- One correction stays in the data buffer. -/
theorem afterCorrect_writes_buffer {lb : PageSize} {s u : State} {i : Nat} (hi : i < chunksOf lb)
    (hu : Writes (inBuffer s lb) s u) : Writes (inBuffer s lb) s (u.afterCorrect i) := by
  refine hu.trans ((u.afterCorrect_writes i).mono ?_)
  rintro x rfl
  have hoff := byteOff_lt s.cfg (errAt u i)
  rw [hu.correctAddr, State.correctAddr_eq]
  exact ⟨_, by omega, rfl⟩

section
variable {lb : PageSize} {s u : State}
  (hecc : ∀ x, inWords s.eccAddr (chunksOf lb) x → ¬ inBuffer s lb x)
  (hgen : ∀ x, inWords s.genAddr (chunksOf lb) x → ¬ inBuffer s lb x)
  (hu : Writes (inBuffer s lb) s u) {i : Nat} (hi : i < chunksOf lb)
include hecc hgen hu hi

/-- Corrections in the data buffer leave every difference. -/
theorem errAt_of_writes_buffer : errAt u i = errAt s i :=
  errAt_of_writes hu (fun x hx => hecc x ⟨i, hi, hx⟩) fun x hx => hgen x ⟨i, hi, hx⟩

/-- One correction flips a bit of its own chunk, or none. -/
theorem peek_afterCorrect_chunk {k j : Nat} (hk : k < chunksOf lb) (hj : j < 256) :
    (u.afterCorrect i).peek (addrAt (s.chunkAddr k) j) =
      if k = i ∧ onesOf (errAt s k) = 11 ∧ j = byteOff s.cfg (errAt s k) then
        flipBit (u.peek (addrAt (s.chunkAddr k) j)) (bitOff s.cfg (errAt s k))
      else u.peek (addrAt (s.chunkAddr k) j) := by
  have hn := chunksOf_le lb
  have haddr : addrAt (s.chunkAddr k) j = s.correctAddr i (errAt s i) ↔ k = i ∧ j = byteOff s.cfg (errAt s i) := by
    have hoff := byteOff_lt s.cfg (errAt s i)
    rw [State.correctAddr_eq, State.chunkAddr, addrAt_addrAt, addrAt_inj (by omega) (by omega)]
    omega
  rw [u.peek_afterCorrect, errAt_of_writes_buffer hecc hgen hu hi, hu.correctAddr, hu.cfg]
  simp only [haddr]
  by_cases hki : k = i
  · subst hki; simp only [true_and]
  · simp [hki]

end

section
variable {lb : PageSize} {s : State}
  (hecc : ∀ x, inWords s.eccAddr (chunksOf lb) x → ¬ inBuffer s lb x)
  (hgen : ∀ x, inWords s.genAddr (chunksOf lb) x → ¬ inBuffer s lb x)
include hecc hgen

/-- The loop decides every chunk on the difference of the state it started from, and flips one bit of those with 11
ones. `u` is the state after the chunks before `is`. -/
theorem correctChunks_spec (hadm : accessesAdmitted (.eccpage lb) s) {is : List Nat} (hn : is.Nodup)
    (his : ∀ i ∈ is, i < chunksOf lb) {a : PageAcc} {u : State} (hu : Writes (inBuffer s lb) s u) :
    ∃ b t, correctChunks lb is a u = .ok (b, t) ∧ Writes (inBuffer s lb) s t ∧
      outcomesFrom is u = (is.map fun i => outcomeOf (errAt s i)) ∧
      ∀ k < chunksOf lb, ∀ j < 256, t.peek (addrAt (s.chunkAddr k) j) =
        if k ∈ is ∧ onesOf (errAt s k) = 11 ∧ j = byteOff s.cfg (errAt s k) then
          flipBit (u.peek (addrAt (s.chunkAddr k) j)) (bitOff s.cfg (errAt s k))
        else u.peek (addrAt (s.chunkAddr k) j) := by
  induction is generalizing a u with
  | nil => exact ⟨a, u, rfl, hu, rfl, by simp⟩
  | cons i is ih =>
    obtain ⟨hi, his⟩ := List.forall_mem_cons.mp his
    obtain ⟨hnot, hn⟩ := List.nodup_cons.mp hn
    have hc := correctChunk_admitted (accessesAdmitted_ecccorr_of_eccpage
      (accessesAdmitted_eccpage_congr hu.operands hu.cfg hadm) hi)
    rw [errAt_of_writes_buffer hecc hgen hu hi] at hc
    obtain ⟨b, t, hloop, hw, hout, hpeek⟩ := ih hn his (afterCorrect_writes_buffer hi hu)
    refine ⟨b, t, by rw [correctChunks, hc, andThen_ok]; exact hloop, hw, ?_, fun k hk j hj => ?_⟩
    · rw [outcomesFrom, hc, List.map_cons]
      exact congrArg _ hout
    · rw [hpeek k hk j hj, peek_afterCorrect_chunk hecc hgen hu hi hk hj]
      by_cases hki : k = i
      · subst hki; simp [hnot]
      · simp [hki]

end

/-- The two loops of ECCPAGE, on objects that do not overlap: `u` is the state after the unpack, `v` the one after the
corrections, and `err k` the difference chunk `k` is decided on. -/
theorem pageLoops_spec {lb : PageSize} {s : State} {err : Nat → Word}
    (herr : ∀ k, err k = storedSyndrome s lb k ^^^ s.peekWord (s.genAddr k)) (hadm : accessesAdmitted (.eccpage lb) s)
    (hecc : ∀ x, inWords s.eccAddr (chunksOf lb) x →
      ¬ inSpareLayout s lb x ∧ ¬ inWords s.genAddr (chunksOf lb) x ∧ ¬ inBuffer s lb x)
    (hgen : ∀ x, inWords s.genAddr (chunksOf lb) x → ¬ inBuffer s lb x) :
    ∃ u b v, unpackPage lb s = .ok u ∧ correctChunks lb (List.range (chunksOf lb)) pageStart u = .ok (b, v) ∧
      Writes (inWords s.eccAddr (chunksOf lb)) s u ∧ Writes (inBuffer s lb) u v ∧
      (∀ k < chunksOf lb, UnpackedAt s u lb k) ∧
      outcomesFrom (List.range (chunksOf lb)) u = ((List.range (chunksOf lb)).map fun k => outcomeOf (err k)) ∧
      ∀ k < chunksOf lb, ∀ j < 256, v.peek (addrAt (s.chunkAddr k) j) =
        if onesOf (err k) = 11 ∧ j = byteOff s.cfg (err k) then
          flipBit (u.peek (addrAt (s.chunkAddr k) j)) (bitOff s.cfg (err k))
        else u.peek (addrAt (s.chunkAddr k) j) := by
  obtain ⟨hsp, hwd, -, -⟩ := id hadm
  obtain ⟨u, hu, hw, hunpacked⟩ := unpackPage_spec lb s hsp hwd fun x hx hin => (hecc x hin).1 hx
  have herrU : ∀ k < chunksOf lb, errAt u k = err k := fun k hk => by
    have hkeep : u.peekWord (s.genAddr k) = s.peekWord (s.genAddr k) :=
      State.peekWord_congr fun x hx => hw.frame x fun hin => (hecc x hin).2.1 ⟨k, hk, hx⟩
    rw [errAt, hw.eccAddr, hw.genAddr, hunpacked k hk, hkeep, herr]; rfl
  have heccU : u.eccAddr = s.eccAddr := funext hw.eccAddr
  have hgenU : u.genAddr = s.genAddr := funext hw.genAddr
  have hbufU : inBuffer u lb = inBuffer s lb := by
    funext x; simp only [inBuffer, hw.reg]
  obtain ⟨b, v, hv, hwv, hout, hpeek⟩ := correctChunks_spec (s := u) (lb := lb)
    (by rw [heccU, hbufU]; exact fun x hx => (hecc x hx).2.2) (by rw [hgenU, hbufU]; exact hgen)
    (accessesAdmitted_eccpage_congr hw.operands hw.cfg hadm) List.nodup_range (fun i hi => List.mem_range.mp hi)
    (a := pageStart) (Writes.refl _ u)
  refine ⟨u, b, v, hu, hv, hw, hbufU ▸ hwv, hunpacked, ?_, fun k hk j hj => ?_⟩
  · exact hout.trans (List.map_congr_left fun k hk => by rw [herrU k (List.mem_range.mp hk)])
  · have h := hpeek k hk j hj
    simpa only [hw.chunkAddr, hw.cfg, herrU k hk, List.mem_range, hk, true_and] using h

end Sys2Proof.Machine
end

section
/-! The environment's deposit of a page's generated syndromes, as words of the array. -/

namespace Sys2Proof.Machine

open Sys2Proof Sys2Proof.Claims

/-- Words written out one after the other put byte `i` of the whole in word `i / 4`. -/
theorem flatMap_bytesOfWord (f : Nat → Word) (n : Nat) :
    ((List.range n).flatMap fun k => bytesOfWord (f k)) =
      (List.range (4 * n)).map fun i => byteOf (f (i / 4)) (i % 4) := by
  induction n with
  | zero => rfl
  | succ n ih =>
    have hword : bytesOfWord (f n) = (List.range 4).map fun j => byteOf (f ((4 * n + j) / 4)) ((4 * n + j) % 4) := by
      refine (show bytesOfWord (f n) = (List.range 4).map (byteOf (f n)) from rfl).trans ?_
      refine List.map_congr_left fun j hj => ?_
      have hj := List.mem_range.mp hj
      rw [show (4 * n + j) / 4 = n by omega, show (4 * n + j) % 4 = j by omega]
    rw [List.range_succ, List.flatMap_append, ih, List.flatMap_singleton, hword, Nat.mul_succ, List.range_add,
      List.map_append, List.map_map]
    rfl

/-- A word of memory from its four bytes (R52, R54). -/
theorem State.peekWord_of_bytes {s : State} {a v : Word} (h : ∀ j < 4, s.peek (addrAt a j) = byteOf v j) :
    s.peekWord a = v := by
  have h0 : s.peek a = byteOf v 0 := by simpa using h 0 (by decide)
  rw [State.peekWord, h0, h 1 (by decide), h 2 (by decide), h 3 (by decide), wordOfBytes_byteOf]

/-- Writing the words `f 0 .. f (n-1)` from an address on leaves each in its place (R54). -/
theorem State.peekWord_pokeBytes_words (s : State) (a : Word) (f : Nat → Word) {n k : Nat} (hn : n ≤ 2 ^ 30)
    (hk : k < n) :
    (s.pokeBytes a ((List.range n).flatMap fun k => bytesOfWord (f k))).peekWord (addrAt a (4 * k)) = f k := by
  refine State.peekWord_of_bytes fun j hj => ?_
  rw [addrAt_addrAt, flatMap_bytesOfWord,
    State.peek_pokeBytes _ _ _ (by rw [List.length_map, List.length_range]; omega) _
      (by rw [List.length_map, List.length_range]; omega),
    List.getElem_map, List.getElem_range, show (4 * k + j) / 4 = k by omega, show (4 * k + j) % 4 = j by omega]

/-- It changes the bytes of those words only. -/
theorem State.pokeBytes_words_writes (s : State) (a : Word) (f : Nat → Word) (n : Nat) :
    Writes (inWords (fun k => addrAt a (4 * k)) n) s
      (s.pokeBytes a ((List.range n).flatMap fun k => bytesOfWord (f k))) := by
  refine (s.pokeBytes_writes a _).mono ?_
  rintro x ⟨i, hi, rfl⟩
  rw [flatMap_bytesOfWord, List.length_map, List.length_range] at hi
  refine ⟨i / 4, by omega, (mem_wordBytes _ _).mpr ⟨i % 4, by omega, ?_⟩⟩
  rw [addrAt_addrAt, Nat.div_add_mod]

end Sys2Proof.Machine
end

section
/-! The obligations of 41_ecc_correct.md, each from the lemmas above. -/

namespace Sys2Proof.Machine

open Sys2Proof Sys2Proof.Claims

/-- Settles O38: the row of each population count, and the flipped byte bit by bit. -/
theorem ecccorrFollowsDecisionTable : Obligations.EcccorrFollowsDecisionTable := by
  intro idx s ha hadm
  have hexec := exec_ecccorr ha hadm
  rw [outcomeOf_eq] at hexec
  have hkeep : onesOf (errAt s idx) ≠ 11 → (s.afterCorrect idx).mem = s.mem := fun h => by
    rw [State.afterCorrect_of_ne h]
  refine ⟨fun h => ?_, fun h => ?_, fun h => ?_, fun h => ?_⟩
  · rw [hexec, hkeep (by omega), if_pos h]; rfl
  · rw [hexec, hkeep (by omega), if_neg (by omega), if_pos h]; rfl
  · rw [if_neg (by omega), if_neg (by omega), if_pos h] at hexec
    refine ⟨_, hexec, rfl, fun x j hj => ?_⟩
    have hpeek := congrArg (BitVec.getLsbD · j) (s.peek_afterCorrect idx x)
    refine hpeek.trans ?_
    by_cases hx : x = s.correctAddr idx (errAt s idx)
    · by_cases hbit : j = bitOff s.cfg (errAt s idx) <;> simp [h, hx, hbit, getLsbD_flipBit _ (bitOff_lt _ _)]
    · simp [hx]
  · simp only [List.mem_cons, List.not_mem_nil, or_false, not_or] at h
    obtain ⟨h0, h1, h11⟩ := h
    rw [hexec, hkeep h11, if_neg h0, if_neg h1, if_neg h11]; rfl

/-- Settles O39: the bits of a number assembled from selected bits. -/
theorem locatedBitLiesInTheChunk : Obligations.LocatedBitLiesInTheChunk :=
  ⟨fun c err => ⟨bitOff_lt c err, byteOff_lt c err⟩, testBit_bitOff, testBit_byteOff,
    fun err _ => testBit_bitOff_default err, fun err _ => testBit_byteOff_default err⟩

/-- Settles O40: the second run decides on the same difference and flips the same bit. -/
theorem ecccorrTwiceUndoesTheCorrection : Obligations.EcccorrTwiceUndoesTheCorrection := by
  intro idx s ha hadm h11 hecc hgen
  have hexec := exec_ecccorr ha hadm
  have hw := s.afterCorrect_writes idx
  generalize ht : afterCommand _ s _ _ = t at hexec
  have hin : SameInputs (s.afterCorrect idx) t := by
    rw [← ht]; exact ⟨rfl, hw.operands.symm, hw.cfg.symm⟩
  have herr : errAt t idx = errAt s idx :=
    (hin.errAt idx).trans (errAt_of_writes hw (fun x hx e => hecc (e ▸ hx)) fun x hx e => hgen (e ▸ hx))
  have haddr : t.correctAddr idx (errAt s idx) = s.correctAddr idx (errAt s idx) :=
    (hin.correctAddr idx _).trans (hw.correctAddr idx _)
  have hcfg : t.cfg = s.cfg := hin.cfg.trans hw.cfg
  have hadm' : accessesAdmitted (.ecccorr idx) t := by
    simpa only [accessesAdmitted, herr, haddr, hcfg, hin.genAddr, hin.eccAddr, hw.genAddr, hw.eccAddr] using hadm
  refine ⟨t, _, hexec, exec_ecccorr ((basesAligned_of_exec hexec _).mpr ha) hadm', ?_, fun x => ?_⟩
  · rw [herr, outcomeOf_of_eleven h11, hcfg]; rfl
  · refine (t.peek_afterCorrect idx x).trans ?_
    rw [herr, haddr, hcfg, hin.peek, s.peek_afterCorrect]
    split
    · exact flipBit_flipBit _ _
    · rfl

/-- Settles O41: the parities that cover the flipped bit, and the pairs of the closed form. -/
theorem syndromeDifferenceOfOneFlip : Obligations.SyndromeDifferenceOfOneFlip :=
  ⟨locatesFlips_eccGen, fun B b hB hb =>
    ⟨onesOf_errOfFlip B b, bitOff_errOfFlip B hb, byteOff_errOfFlip hB b⟩⟩

/-- Settles O57: the mask cancels in a difference. -/
theorem maskedGeneratorServesEqually : Obligations.MaskedGeneratorServesEqually := by
  intro g m D D'
  rw [syndromeWord_maskedGen, syndromeWord_maskedGen, BitVec.xor_comm (syndromeWord g D'), BitVec.xor_assoc,
    ← BitVec.xor_assoc (m.setWidth 32), BitVec.xor_self, BitVec.zero_xor]

/-- Settles O42: the difference is the closed form, which locates the flipped bit. -/
theorem singleBitFlipIsRecovered : Obligations.SingleBitFlipIsRecovered := by
  intro g idx s D B b hb hg hbit hbyte ha hadm hecc hgen hchunk
  have hloc : syndromeWord g D ^^^ syndromeWord g (flipped D B b) = errOfFlip B.val b := by
    obtain rfl | h := hg
    · exact locatesFlips_eccGen D B b hb
    · exact h
  have herr : errAt s idx = errOfFlip B.val b := by rw [errAt, hecc, hgen, hloc]
  have h11 : onesOf (errAt s idx) = 11 := by rw [herr, onesOf_errOfFlip]
  have hbitOff : bitOff s.cfg (errAt s idx) = b := by
    rw [herr, bitOff, hbit]; exact bitOff_errOfFlip B.val hb
  have hbyteOff : byteOff s.cfg (errAt s idx) = B.val := by
    rw [herr, byteOff, hbyte]; exact byteOff_errOfFlip B.isLt b
  refine ⟨_, exec_ecccorr ha hadm, ?_, fun j => ?_⟩
  · rw [outcomeOf_of_eleven h11]; rfl
  · refine (s.peek_afterCorrect idx _).trans ?_
    simp only [h11, true_and, s.chunkByte_eq_correctAddr_iff idx _ j.isLt, hbyteOff, hbitOff, Fin.val_inj, hchunk]
    by_cases hj : j = B
    · rw [if_pos hj, hj, flipped_same, flipBit_flipBit]
    · rw [if_neg hj, flipped_other D b hj]

/-- Settles O43: the codes are distinct, so a code fails the page when its outcome does. -/
theorem pageFailsByPageSize : Obligations.PageFailsByPageSize :=
  ⟨fun _ lb o hc => pageFails_outcomeCode_iff hc lb o, fun _ => rfl, rfl, rfl⟩

/-- Settles O44: the unpack in closed form, then the correction loop on the syndromes it left. -/
theorem eccpageCorrectsEveryChunk : Obligations.EccpageCorrectsEveryChunk := by
  intro lb s err herr ha hadm hcodes hecc hgen
  obtain ⟨u, b, v, hu, hv, hw, hwv, hunpacked, hout, hpeek⟩ := pageLoops_spec herr hadm hecc hgen
  have hfail : pageResult lb b.fail = 0xFFFFFFFF ↔ ∃ k < chunksOf lb, failsPage s.cfg lb (outcomeOf (err k)) := by
    rw [pageResult_eq_failure_iff, correctChunks_fail hv, hout, hw.cfg, pageStart, Bool.false_or, List.any_map,
      List.any_eq_true]
    simp only [Function.comp_apply, pageFails_outcomeCode_iff hcodes, List.mem_range]
  refine ⟨_, exec_eccpage_of_loops ha hu hv, rfl, hfail.mpr, fun hok => ?_, fun k hk => ?_, fun k hk => ?_,
    fun k hk j hj => ?_, fun x hx hxb => (hwv.frame x hxb).trans (hw.frame x hx)⟩
  · have hnot : ¬ b.fail = true := fun h => by
      obtain ⟨k, hk, hkf⟩ := hfail.mp ((pageResult_eq_failure_iff lb _).mpr h)
      exact hok k hk hkf
    exact if_neg hnot
  · rw [← hw.cfg]
    exact correctChunks_page_field hv (by rw [hout, List.getElem?_map, List.getElem?_range hk]; rfl)
  · have hkeep : v.peekWord (s.eccAddr k) = u.peekWord (s.eccAddr k) :=
      State.peekWord_congr fun x hx => hwv.frame x (hecc x ⟨k, hk, hx⟩).2.2
    exact hkeep.trans (hunpacked k hk)
  · have hkeep : u.peek (addrAt (s.chunkAddr k) j) = s.peek (addrAt (s.chunkAddr k) j) :=
      hw.frame _ fun hin => (hecc _ hin).2.2 ⟨256 * k + j, by omega, addrAt_addrAt _ _ _⟩
    have h := hpeek k hk j hj
    rwa [hkeep] at h

/-- Settles O45: ECCUNPACK is the unpack of ECCPAGE, and the corrections in turn are its loop. -/
theorem eccpageIsUnpackThenCorrections : Obligations.EccpageIsUnpackThenCorrections := by
  intro lb s u v rs ha hu hr
  obtain ⟨w, hw, hin⟩ := unpackPage_of_exec_eccunpack ha.1 (SameInputs.refl s) hu
  obtain ⟨b, x, hloop, hin', rfl⟩ :=
    correctChunks_of_runCorrections (a := pageStart) ((basesAligned_of_exec hu (.eccpage lb)).mpr ha) hin hr
  have hcfg : w.cfg = s.cfg := (unpack_writes hw).cfg
  have hcode (o : EccOutcome) : ((outcomeCode s.cfg o).setWidth 32).setWidth 2 = outcomeCode s.cfg o :=
    BitVec.setWidth_setWidth_of_le _ (by decide)
  refine ⟨_, exec_eccpage_of_loops ha hw hloop, hin'.mem.symm, ?_, fun i r hi => ?_, ?_⟩
  · rw [List.length_map, correctChunks_length hloop, List.length_range]
  · rw [List.getElem?_map] at hi
    obtain ⟨o, ho, rfl⟩ := Option.map_eq_some_iff.mp hi
    exact congrArg _ (correctChunks_page_field hloop ho)
  · refine (pageResult_eq_failure_iff lb b.fail).trans ?_
    simp only [correctChunks_fail hloop, pageStart, Bool.false_or, List.any_eq_true, List.mem_map,
      exists_exists_and_eq_and, hcfg, hcode]

/-- Settles O58: the words written from the array's base, one per chunk. -/
theorem syndromesAreDeposited : Obligations.SyndromesAreDeposited := by
  intro g lb s es hp
  have hw :=
    (s.setPending es).pokeBytes_words_writes (s.reg .genPtr) (fun k => syndromeWord g (s.chunk k)) (chunksOf lb)
  refine ⟨_, step_of_pending hp, hw.only, fun k hk => ?_, fun x hx => hw.frame x hx⟩
  refine (State.peekWord_pokeBytes_words _ _ _ ((chunksOf_le lb).trans (by decide)) hk).trans ?_
  refine congrArg (syndromeWord g) (funext fun j => ?_)
  rw [State.chunk, State.chunkAddr, addrAt_addrAt]

end Sys2Proof.Machine
end

section
/-! BBCHECK and BBMARK: their command words and their marker byte by the fields of the word, and each command as one
state, or as the fault of its one access. -/

namespace Sys2Proof.Machine

open Sys2Proof Sys2Proof.Claims

/-! ### The words of BBCHECK and BBMARK (R77, R81) -/

/-- Beside the opcode only `LB` is free in a word of BBCHECK or BBMARK. -/
theorem reservedFieldSet_iff_of_opc {w : Word} (h : opc w = 5 ∨ opc w = 6) :
    reservedFieldSet w ↔ wrBitOf w ≠ 0 ∨ rsv0 w ≠ 0 ∨ imm8 w ≠ 0 ∨ rsv1 w ≠ 0 := by
  have hfour : 4 ≤ opc w := by omega
  have hsix : opc w ≤ 6 := by omega
  have hthree : ¬ opc w ≤ 3 := by omega
  simp only [reservedFieldSet, hfour, hsix, hthree, true_and, false_and, false_or]
  tauto

/-- A legal opcode with a reserved field set is rejected with code 2. -/
theorem writeCmd_of_reservedFieldSet {w : Word} (ho : ¬ illegalOpcode w) (hr : reservedFieldSet w) (s : State) :
    writeCmd w s = .next { s with cmd := w, status := 0x00000022 } := by
  rw [writeCmd, decode_of_reservedFieldSet ho hr]; rfl

/-- Writing a word of BBCHECK or BBMARK: rejected when a reserved field is set, else its row's command runs. -/
theorem writeCmd_marker {w : Word} {o : Opcode} (h : opc w = o.pattern.toNat) (ho : opc w = 5 ∨ opc w = 6)
    (s : State) :
    (wrBitOf w ≠ 0 ∨ rsv0 w ≠ 0 ∨ imm8 w ≠ 0 ∨ rsv1 w ≠ 0 →
      writeCmd w s = .next { s with cmd := w, status := 0x00000022 }) ∧
    (wrBitOf w = 0 → rsv0 w = 0 → imm8 w = 0 → rsv1 w = 0 → writeCmd w s = exec (o.assemble w) (s.setCmd w)) := by
  have hres := reservedFieldSet_iff_of_opc ho
  refine ⟨fun hr => writeCmd_of_reservedFieldSet (by omega) (hres.mpr hr) s, fun hwr h0 himm h1 => ?_⟩
  refine writeCmd_legal (decode_of_opc_of_not_reserved h fun hr => ?_) s
  simpa [hwr, h0, himm, h1] using hres.mp hr

/-! ### The marker byte (R136, R137) -/

theorem State.markerAddr_pageOf (s : State) (w : Word) :
    s.markerAddr (pageOf w) =
      addrAt (s.reg .sparePtr) (if lbBitOf w = 1 then s.cfg.lbBbOffs.val else s.cfg.sbBbOffs.val) := by
  unfold State.markerAddr pageOf
  split <;> rfl

/-- The marker of either page size lies in the first 64 bytes of the spare image. -/
theorem markerOffset_lt (c : Config) (lb : PageSize) : markerOffset c lb < 64 := by
  cases lb with
  | small => exact c.sbBbOffs.isLt.trans (by decide)
  | large => exact c.lbBbOffs.isLt

/-! ### The two commands (R137, R138) -/

/-- A command but ECCPAGE whose first access is not admitted stops there. -/
theorem exec_of_first_unadmitted {i : Instr} {s : State} {a : Word} {n : Nat} {xs : List (Word × Nat)}
    (hi : ∀ lb, i ≠ .eccpage lb) (ha : basesAligned i s) (hacc : accessesOf i s = (a, n) :: xs)
    (h : ¬ accessAdmitted s.cfg (a, n)) : exec i s = .fault (.memFault a) := by
  obtain ⟨hstop, -⟩ := commandFaultsAtFirstUnadmittedAccess i s hi ha
  exact hstop a n (by rw [hacc]; exact List.find?_cons_of_pos (decide_eq_true h))

section
variable {lb : PageSize} {s : State}

/-- BBCHECK, where the marker byte is admitted. -/
theorem exec_bbcheck_admitted (h : admits s.cfg (s.markerAddr lb) = true) :
    exec (.bbcheck lb) s = .next (afterCommand (.bbcheck lb) s s.mem
      (if s.peek (s.markerAddr lb) ≠ s.cfg.goodMarker then 1 else 0)) := by
  have hread := SameInputs.noteReads s (readRegs (.bbcheck lb))
  rw [← hread.mem]
  refine exec_of_op_setResult nofun trivial ?_
  rw [opOf, checkOp, hread.markerAddr, State.readByte_admitted (hread.cfg ▸ h), andThen_ok, hread.peek, hread.cfg]

theorem exec_bbcheck_unadmitted (h : admits s.cfg (s.markerAddr lb) = false) :
    exec (.bbcheck lb) s = .fault (.memFault (s.markerAddr lb)) :=
  exec_of_first_unadmitted nofun trivial rfl ((accessAdmitted_byte_iff _ _).not.mpr (Bool.eq_false_iff.mp h))

/-- What BBMARK leaves: the bad marker in the marker byte, 1 in `RESULT` and `STATUS`. -/
def State.afterBbmark (s : State) (lb : PageSize) : State :=
  afterCommand (.bbmark lb) s (s.poke (s.markerAddr lb) badMarker).mem 1

theorem State.peek_afterBbmark (s : State) (lb : PageSize) (x : Word) :
    (s.afterBbmark lb).peek x = if x = s.markerAddr lb then badMarker else s.peek x :=
  s.peek_poke _ x badMarker

/-- BBMARK moves neither `SPARE_PTR` nor the marker's offset. -/
theorem State.markerAddr_afterBbmark (s : State) (lb : PageSize) :
    (s.afterBbmark lb).markerAddr lb = s.markerAddr lb := rfl

/-- BBMARK, where the marker byte is admitted. -/
theorem exec_bbmark_admitted (h : admits s.cfg (s.markerAddr lb) = true) :
    exec (.bbmark lb) s = .next (s.afterBbmark lb) := by
  have hread := SameInputs.noteReads s (readRegs (.bbmark lb))
  have hmem : ((s.noteReads (readRegs (.bbmark lb))).poke (s.markerAddr lb) badMarker).mem =
      (s.poke (s.markerAddr lb) badMarker).mem := by simp
  rw [State.afterBbmark, ← hmem]
  refine exec_of_op_setResult nofun trivial ?_
  rw [opOf, markOp, hread.markerAddr, State.writeByte_admitted _ (hread.cfg ▸ h), andThen_ok]

theorem exec_bbmark_unadmitted (h : admits s.cfg (s.markerAddr lb) = false) :
    exec (.bbmark lb) s = .fault (.memFault (s.markerAddr lb)) :=
  exec_of_first_unadmitted nofun trivial rfl ((accessAdmitted_byte_iff _ _).not.mpr (Bool.eq_false_iff.mp h))

/-- BBMARK answers a next state only where the marker byte is admitted. -/
theorem exec_bbmark_next {t : State} (h : exec (.bbmark lb) s = .next t) :
    admits s.cfg (s.markerAddr lb) = true ∧ t = s.afterBbmark lb := by
  cases hadm : admits s.cfg (s.markerAddr lb) with
  | false => rw [exec_bbmark_unadmitted hadm] at h; cases h
  | true => rw [exec_bbmark_admitted hadm] at h; cases h; exact ⟨rfl, rfl⟩

end

end Sys2Proof.Machine
end

section
/-! The obligations of 42_badblock.md, each from the lemmas above. -/

namespace Sys2Proof.Machine

open Sys2Proof Sys2Proof.Claims

/-- Settles O46: the word's class, then the one read of BBCHECK, admitted or not. -/
theorem bbcheckTestsTheMarker : Obligations.BbcheckTestsTheMarker := by
  intro w s h5
  obtain ⟨hrej, hrun⟩ := writeCmd_marker (o := .bbcheck) h5 (.inl h5) s
  refine ⟨hrej, fun hwr h0 himm h1 a ha => ?_⟩
  rw [hrun hwr h0 himm h1, Opcode.assemble, lbField_eq_pageOf]
  rw [← State.markerAddr_pageOf] at ha
  subst ha
  exact ⟨exec_bbcheck_admitted (s := s.setCmd w), exec_bbcheck_unadmitted (s := s.setCmd w)⟩

/-- Settles O47: the word's class, then the one write of BBMARK, admitted or not; a second run finds the same byte
admitted and writes what stands there. -/
theorem bbmarkWritesTheMarker : Obligations.BbmarkWritesTheMarker := by
  refine ⟨fun w s h6 => ?_, fun lb s t h => ?_⟩
  · obtain ⟨hrej, hrun⟩ := writeCmd_marker (o := .bbmark) h6 (.inr h6) s
    refine ⟨hrej, fun hwr h0 himm h1 a ha => ?_⟩
    rw [hrun hwr h0 himm h1, Opcode.assemble, lbField_eq_pageOf]
    rw [← State.markerAddr_pageOf] at ha
    subst ha
    have hpeek := (s.setCmd w).peek_afterBbmark (pageOf w)
    exact ⟨fun hadm => ⟨_, exec_bbmark_admitted (s := s.setCmd w) hadm, rfl, (hpeek _).trans (if_pos rfl),
      fun x hx => (hpeek x).trans (if_neg hx)⟩, exec_bbmark_unadmitted (s := s.setCmd w)⟩
  · obtain ⟨hadm, rfl⟩ := exec_bbmark_next h
    refine ⟨_, exec_bbmark_admitted (s := s.afterBbmark lb) hadm, rfl, fun x => ?_⟩
    rw [State.peek_afterBbmark, State.markerAddr_afterBbmark, State.peek_afterBbmark]
    split <;> rfl

/-- Settles O48: BBMARK leaves 0xFE where BBCHECK then reads, and an erased image holds 0xFF there. -/
theorem markedBlockReportsBad : Obligations.MarkedBlockReportsBad := by
  refine ⟨fun lb s t hgood h => ?_, fun lb s hgood hadm herased => ?_⟩
  · obtain ⟨hadm, rfl⟩ := exec_bbmark_next h
    have hbad : (s.afterBbmark lb).peek ((s.afterBbmark lb).markerAddr lb) = 0xFE :=
      (s.peek_afterBbmark lb _).trans (if_pos rfl)
    exact ⟨_, exec_bbcheck_admitted (s := s.afterBbmark lb) hadm, if_pos (hbad.trans_ne hgood.symm), fun _ => rfl⟩
  · have hmarker : s.peek (s.markerAddr lb) = s.cfg.goodMarker :=
      (herased _ (markerOffset_lt s.cfg lb)).trans hgood.symm
    exact ⟨_, exec_bbcheck_admitted hadm, if_neg (not_not.mpr hmarker)⟩

end Sys2Proof.Machine
end

section
/-! DMABUILD: the kinds and links of the descriptors, what a built chain holds word by word, and which bytes it is. -/

namespace Sys2Proof.Machine

open Sys2Proof Sys2Proof.Claims

/-! ### The descriptors of a chain (R146, R148) -/

theorem descriptorsOf_le (lb : PageSize) : descriptorsOf lb ≤ 17 := by cases lb <;> decide

theorem kindOf_data {lb : PageSize} {k : Nat} (hk : k < chunksOf lb) : kindOf lb (2 * k) = .data k := by
  rw [kindOf, if_neg (by omega), if_pos (by omega), Nat.mul_div_cancel_left k (by decide)]

theorem kindOf_ecc (lb : PageSize) (k : Nat) : kindOf lb (2 * k + 1) = .ecc k := by
  rw [kindOf, if_neg (by omega), if_neg (by omega), show (2 * k + 1) / 2 = k by omega]

theorem kindOf_spare (lb : PageSize) : kindOf lb (2 * chunksOf lb) = .spare := if_pos rfl

theorem nextPointer_of_lt (s : State) {lb : PageSize} {i : Nat} (h : i + 1 < descriptorsOf lb) :
    nextPointer s lb i = addrAt (s.reg .descPtr) (16 * (i + 1)) := if_neg (by omega)

theorem nextPointer_last (s : State) (lb : PageSize) : nextPointer s lb (2 * chunksOf lb) = 0 := if_pos rfl

/-- A descriptor is made of operand registers and parameters: stores to memory leave it (R149, R150). -/
theorem descriptorAt_congr {s t : State} (hr : ∀ r, t.reg r = s.reg r) (hc : t.cfg = s.cfg) (lb : PageSize)
    (wr : Direction) (i : Nat) : descriptorAt t lb wr i = descriptorAt s lb wr i := by
  have haddr (kind : DescKind) : descAddrs t kind wr = descAddrs s kind wr := by
    cases kind <;> cases wr <;> simp only [descAddrs, State.chunkAddr, State.genAddr, hr]
  simp only [descriptorAt, nextPointer, haddr, hr, hc]

/-! ### The words of a built chain (R145, R148) -/

/-- Word `j` of a descriptor (R145). -/
def Descriptor.word (d : Descriptor) : Nat → Word
  | 0 => d.src
  | 1 => d.dst
  | 2 => d.next
  | _ => d.ctrl

/-- Storing a word of a chain leaves its other words. -/
theorem State.peekWord_pokeWord_descAddr (s u : State) (v : Word) {i j k l : Nat} (hi : i < 17) (hj : j < 4)
    (hk : k < 17) (hl : l < 4) :
    (u.pokeWord (s.descAddr i j) v).peekWord (s.descAddr k l) =
      if k = i ∧ l = j then v else u.peekWord (s.descAddr k l) := by
  split
  case isTrue h =>
    obtain ⟨rfl, rfl⟩ := h
    exact u.peekWord_pokeWord _ v
  case isFalse hne =>
    refine State.peekWord_congr fun x hx => u.peek_pokeWord_other _ v x fun hx' => hne ?_
    obtain ⟨a, ha, rfl⟩ := (mem_wordBytes _ _).mp hx
    obtain ⟨b, hb, e⟩ := (mem_wordBytes _ _).mp hx'
    rw [State.descAddr, State.descAddr, addrAt_addrAt, addrAt_addrAt, addrAt_inj (by omega) (by omega)] at e
    omega

/-- Writing a descriptor sets its words and leaves those of the others. -/
theorem peekWord_writeDescriptor {i k l : Nat} {d : Descriptor} {s t : State} (h : writeDescriptor i d s = .ok t)
    (hi : i < 17) (hk : k < 17) (hl : l < 4) :
    t.peekWord (s.descAddr k l) = if k = i then d.word l else s.peekWord (s.descAddr k l) := by
  obtain ⟨-, rfl⟩ := (writeDescriptor_ok_iff i d s t).mp h
  simp only [State.peekWord_pokeWord_descAddr, hi, hk, hl, Nat.reduceLT]
  by_cases hki : k = i
  · interval_cases l <;> simp [hki, Descriptor.word]
  · simp [hki]

/-- The loop of R148 leaves every descriptor it has come to in place. -/
theorem build_words {lb : PageSize} {wr : Direction} {n : Nat} {s t : State}
    (h : forEach (buildDescriptor lb wr) (List.range n) s = .ok t) (hn : n ≤ 17) :
    OnlyMemory s t ∧ ∀ i < n, ∀ j < 4, t.peekWord (s.descAddr i j) = (descriptorAt s lb wr i).word j := by
  induction n generalizing t with
  | zero => cases h; exact ⟨.refl s, nofun⟩
  | succ n ih =>
    rw [List.range_succ, forEach_append] at h
    obtain ⟨u, hu, h⟩ := (andThen_ok_iff _ _ _).mp h
    obtain ⟨v, hv, h⟩ := (andThen_ok_iff _ _ _).mp h
    cases h
    obtain ⟨hmem, hwords⟩ := ih hu (by omega)
    refine ⟨hmem.trans ((writeDescriptor_writes hv).mono fun _ _ => trivial), fun i hi j hj => ?_⟩
    have hword := peekWord_writeDescriptor hv (k := i) (by omega) (by omega) hj
    rw [hmem.descAddr, descriptorAt_congr hmem.reg hmem.cfg] at hword
    rw [hword]
    split
    case isTrue hin => rw [hin]
    case isFalse hin => exact hwords i (by omega) j hj

section
variable {lb : PageSize} {wr : Direction} {s t : State}

/-- The words of the chain after a DMABUILD that completed. -/
theorem dmabuild_words (ha : basesAligned (.dmabuild lb wr) s) (h : exec (.dmabuild lb wr) s = .next t) {i j : Nat}
    (hi : i < descriptorsOf lb) (hj : j < 4) :
    t.peekWord (s.descAddr i j) = (descriptorAt s lb wr i).word j := by
  obtain ⟨u, hu, rfl⟩ := exec_aligned_next ha h
  obtain ⟨v, hv, hu⟩ := (andThen_ok_iff _ _ _).mp hu
  cases hu
  have hin := SameInputs.noteReads s (readRegs (.dmabuild lb wr))
  obtain ⟨-, hwords⟩ := build_words hv (descriptorsOf_le lb)
  rw [← hin.descAddr, ← descriptorAt_congr hin.reg hin.cfg]
  exact hwords i hi j hj

/-- The four words of descriptor `i`, by its kind (R145, R149, R150). -/
theorem dmabuild_fourWords (ha : basesAligned (.dmabuild lb wr) s) (h : exec (.dmabuild lb wr) s = .next t) {i : Nat}
    (hi : i < descriptorsOf lb) :
    fourWords t (addrAt (s.reg .descPtr) (16 * i)) =
      [(descAddrs s (kindOf lb i) wr).1, (descAddrs s (kindOf lb i) wr).2, nextPointer s lb i,
        ctrlWord s.cfg (kindOf lb i) wr lb] := by
  have hword (j : Nat) : j < 4 → t.peekWord (addrAt (s.reg .descPtr) (16 * i + 4 * j)) = _ := dmabuild_words ha h hi
  simp only [fourWords, addrAt_addrAt, List.cons.injEq, and_true]
  exact ⟨hword 0 (by decide), hword 1 (by decide), hword 2 (by decide), hword 3 (by decide)⟩

/-! ### The bytes of a chain (R57, R145) -/

/-- DMABUILD stores to the first bytes of the descriptor array, sixteen for each descriptor of the chain. -/
theorem exists_offset_of_storesTo_dmabuild {x : Word} (h : storesTo (.dmabuild lb wr) s x) :
    ∃ j < 16 * descriptorsOf lb, x = addrAt (s.reg .descPtr) j := by
  obtain ⟨i, hi, j, hj, hx⟩ := h
  obtain ⟨k, hk, rfl⟩ := (mem_wordBytes _ _).mp hx
  exact ⟨16 * i + 4 * j + k, by omega, addrAt_addrAt _ _ _⟩

/-- Two words that are equal have equal bytes (R54). -/
theorem State.peek_of_peekWord_eq {s t : State} {a x : Word} (h : t.peekWord a = s.peekWord a)
    (hx : x ∈ wordBytes a) : t.peek x = s.peek x := by
  obtain ⟨j, hj, rfl⟩ := (mem_wordBytes _ _).mp hx
  rw [← t.byteOf_peekWord a hj, ← s.byteOf_peekWord a hj, h]

/-- The accesses of a command that was accepted and completed are admitted. -/
theorem accessesOf_admitted_of_exec {i : Instr} (hi : ∀ lb, i ≠ .eccpage lb) (ha : basesAligned i s)
    (h : exec i s = .next t) : ∀ x ∈ accessesOf i s, accessAdmitted s.cfg x := by
  obtain ⟨u, hu, -⟩ := exec_aligned_next ha h
  rw [← firstFault_eq_none_iff, ← firstFault_noteReads i s (readRegs i)]
  cases hf : firstFault (s.noteReads (readRegs i)).cfg (accessesOf i (s.noteReads (readRegs i))) with
  | none => rfl
  | some e => rw [(op_performs hi _).stops e hf] at hu; cases hu

/-- After a DMABUILD the same DMABUILD completes: it makes the same accesses. -/
theorem exec_dmabuild_again (ha : basesAligned (.dmabuild lb wr) s) (h : exec (.dmabuild lb wr) s = .next t) :
    ∃ u, exec (.dmabuild lb wr) t = .next u := by
  have hacc : accessesOf (.dmabuild lb wr) t = accessesOf (.dmabuild lb wr) s := by
    rw [exec_only h]; rfl
  have hcfg : t.cfg = s.cfg := by rw [exec_only h]
  have hat := (basesAligned_of_exec h (.dmabuild lb wr)).mpr ha
  have hadm := accessesOf_admitted_of_exec (i := .dmabuild lb wr) nofun ha h
  rw [← hacc, ← hcfg] at hadm
  obtain ⟨-, hok⟩ := commandFaultsAtFirstUnadmittedAccess (.dmabuild lb wr) t nofun hat
  obtain ⟨u, hu, -⟩ := hok hadm
  exact ⟨u, hu⟩

/-- A DMABUILD after the same DMABUILD writes what stands there. -/
theorem peek_exec_dmabuild_again {u : State} (ha : basesAligned (.dmabuild lb wr) s)
    (h : exec (.dmabuild lb wr) s = .next t) (h' : exec (.dmabuild lb wr) t = .next u) (x : Word) :
    u.peek x = t.peek x := by
  have hreg (r : OperandReg) : t.reg r = s.reg r := by rw [exec_only h]; rfl
  have hcfg : t.cfg = s.cfg := by rw [exec_only h]
  have hat := (basesAligned_of_exec h (.dmabuild lb wr)).mpr ha
  by_cases hx : storesTo (.dmabuild lb wr) t x
  · obtain ⟨i, hi, j, hj, hx⟩ := hx
    refine State.peek_of_peekWord_eq ?_ hx
    calc u.peekWord (t.descAddr i j) = (descriptorAt t lb wr i).word j := dmabuild_words hat h' hi hj
      _ = (descriptorAt s lb wr i).word j := by rw [descriptorAt_congr hreg hcfg]
      _ = t.peekWord (s.descAddr i j) := (dmabuild_words ha h hi hj).symm
      _ = t.peekWord (t.descAddr i j) := by rw [State.descAddr, State.descAddr, hreg]
  · exact exec_peek h' hx

/-! ### Following the chain (R145, R148) -/

/-- Word `next` of descriptor `i`. -/
theorem dmabuild_next (ha : basesAligned (.dmabuild lb wr) s) (h : exec (.dmabuild lb wr) s = .next t) {i : Nat}
    (hi : i < descriptorsOf lb) :
    t.peekWord (addrAt (addrAt (s.reg .descPtr) (16 * i)) 8) = nextPointer s lb i := by
  rw [addrAt_addrAt]
  exact dmabuild_words ha h hi (j := 2) (by decide)

/-- The control word of descriptor `i`. -/
theorem dmabuild_ctrl (ha : basesAligned (.dmabuild lb wr) s) (h : exec (.dmabuild lb wr) s = .next t) {i : Nat}
    (hi : i < descriptorsOf lb) :
    t.peekWord (addrAt (s.reg .descPtr) (16 * i + 12)) = ctrlWord s.cfg (kindOf lb i) wr lb :=
  dmabuild_words ha h hi (j := 3) (by decide)

/-- Followed from descriptor `i`, the chain visits the descriptors from `i` on and ends after the last. -/
theorem walkChain_dmabuild (ha : basesAligned (.dmabuild lb wr) s) (h : exec (.dmabuild lb wr) s = .next t)
    (hne : ∀ i, 0 < i → i < descriptorsOf lb → addrAt (s.reg .descPtr) (16 * i) ≠ 0) {m i : Nat}
    (hi : i + m = 2 * chunksOf lb) (fuel : Nat) :
    walkChain (fuel + m + 1) t (addrAt (s.reg .descPtr) (16 * i)) =
      (List.range' i (m + 1)).map fun k => addrAt (s.reg .descPtr) (16 * k) := by
  have hlen : descriptorsOf lb = 2 * chunksOf lb + 1 := rfl
  have hnext := dmabuild_next ha h (i := i) (by omega)
  induction m generalizing i with
  | zero =>
    obtain rfl : i = 2 * chunksOf lb := hi
    rw [nextPointer_last] at hnext
    rw [walkChain, if_pos hnext]
    rfl
  | succ m ih =>
    rw [nextPointer_of_lt s (by omega)] at hnext
    rw [walkChain, hnext, if_neg (hne _ (by omega) (by omega)), List.range'_succ, List.map_cons, ← Nat.add_assoc,
      ih (by omega) (dmabuild_next ha h (by omega))]

end

/-! ### The bytes a control word moves (R150, R151) -/

theorem ctrlUnits_eq (w : Word) : ctrlUnits w = (w.extractLsb' 0 12).toNat := by
  rw [ctrlUnits, BitVec.toNat_and, BitVec.extractLsb'_toNat, Nat.shiftRight_zero]
  exact Nat.and_two_pow_sub_one_eq_mod w.toNat 12

theorem ctrlSourceWidth_eq (w : Word) : ctrlSourceWidth w = (w.extractLsb' 18 3).toNat := by
  rw [ctrlSourceWidth, BitVec.toNat_and, BitVec.toNat_ushiftRight, BitVec.extractLsb'_toNat]
  exact Nat.and_two_pow_sub_one_eq_mod (w.toNat >>> 18) 3

/-- R151's layout as the statements read it and as the parameters' constraints do. -/
theorem movedBytes_eq_ctrlBytes (w : Word) : movedBytes w = ctrlBytes w := by
  rw [ctrlBytes, ctrlSourceWidth_eq, ctrlUnits_eq, movedBytes]
  rcases (w.extractLsb' 18 3).toNat with _ | _ | _ | n
  · simp [unitBytes]
  · simp [unitBytes]
  · simp [unitBytes]
  · rfl

section
variable {c : Config} (hc : c.ctrl.KeepsSizes)
include hc

theorem ctrlBytes_data (k : Nat) (wr : Direction) (lb : PageSize) :
    ctrlBytes (ctrlWord c (.data k) wr lb) = some 256 := by
  obtain ⟨hread, hwrite, -⟩ := hc
  cases wr with
  | read => exact hread
  | write => exact hwrite

theorem ctrlBytes_ecc (k : Nat) (wr : Direction) (lb : PageSize) :
    ctrlBytes (ctrlWord c (.ecc k) wr lb) = some 4 := by
  obtain ⟨-, -, hecc, -⟩ := hc
  exact hecc

theorem ctrlBytes_spare (wr : Direction) (lb : PageSize) :
    ctrlBytes (ctrlWord c .spare wr lb) = some (match lb with | .small => 16 | .large => 64) := by
  obtain ⟨-, -, -, hrs, hrl, hws, hwl⟩ := hc
  cases wr with
  | read => cases lb with
    | small => exact hrs
    | large => exact hrl
  | write => cases lb with
    | small => exact hws
    | large => exact hwl

end

end Sys2Proof.Machine
end

section
/-! The obligations of 43_dma_builder.md, each from the lemmas above. -/

namespace Sys2Proof.Machine

open Sys2Proof Sys2Proof.Claims

/-- Settles O49: an admitted build completes; its words by kind of descriptor, and the frame of the command. -/
theorem dmabuildWritesTheChain : Obligations.DmabuildWritesTheChain := by
  intro lb wr s ha hadm
  have hlen : descriptorsOf lb = 2 * chunksOf lb + 1 := rfl
  obtain ⟨t, h, -⟩ := admittedCommandCompletes _ s ha hadm
  have hwords {i : Nat} (hi : i < descriptorsOf lb) := dmabuild_fourWords ha h hi
  refine ⟨t, h, ?_, fun k hk => ⟨?_, ?_⟩, ?_, fun x hx => exec_peek h fun hst => ?_⟩
  · have hres : t.result = BitVec.ofNat 32 (descriptorsOf lb) := exec_result ha h
    have hafter := exec_eq_afterCommand (i := .dmabuild lb wr) nofun ha h
    refine hafter.trans (congrArg (afterCommand (.dmabuild lb wr) s t.mem) ?_)
    cases lb <;> exact hres
  · rw [show 32 * k = 16 * (2 * k) by omega, hwords (by omega), kindOf_data hk, nextPointer_of_lt s (by omega)]
    rw [show 16 * (2 * k) + 16 = 16 * (2 * k + 1) by omega]
    cases wr <;> rfl
  · rw [show 32 * k + 16 = 16 * (2 * k + 1) by omega, hwords (by omega), kindOf_ecc, nextPointer_of_lt s (by omega)]
    rw [show 32 * k + 32 = 16 * (2 * k + 1 + 1) by omega]
    rfl
  · rw [show 32 * chunksOf lb = 16 * (2 * chunksOf lb) by omega, hwords (by omega), kindOf_spare, nextPointer_last]
    cases wr <;> cases lb <;> rfl
  · obtain ⟨j, hj, e⟩ := exists_offset_of_storesTo_dmabuild hst
    exact hx j hj e

/-- Settles O50: the walk from descriptor 0. -/
theorem chainVisitsEveryDescriptor : Obligations.ChainVisitsEveryDescriptor := by
  intro lb wr s t ha hne h n hn
  obtain ⟨fuel, rfl⟩ := Nat.exists_eq_add_of_le' hn
  have hwalk := walkChain_dmabuild ha h hne (i := 0) (m := 2 * chunksOf lb) (Nat.zero_add _) fuel
  rwa [Nat.mul_zero, addrAt_zero, ← List.range_eq_range'] at hwalk

/-- Settles O51: a second build writes what stands there, and a small-block chain ends before byte 80. -/
theorem dmabuildIsIdempotent : Obligations.DmabuildIsIdempotent := by
  refine ⟨fun lb wr s t ha h => ?_, fun wr s t h j hj hj' => exec_peek h fun hst => ?_⟩
  · obtain ⟨u, hu⟩ := exec_dmabuild_again ha h
    have hres : u.result = t.result :=
      (exec_result ((basesAligned_of_exec h _).mpr ha) hu).trans (exec_result ha h).symm
    exact ⟨u, hu, hres, peek_exec_dmabuild_again ha h hu⟩
  · obtain ⟨k, hk, e⟩ := exists_offset_of_storesTo_dmabuild hst
    have hlen : descriptorsOf .small = 5 := rfl
    rw [addrAt_inj (by omega) (by omega)] at e
    omega

/-- Settles O59: the control word of each descriptor is its kind's, which moves what its row keeps. -/
theorem chainMovesThePage : Obligations.ChainMovesThePage := by
  refine ⟨fun lb wr s t hc ha h => ?_, by decide⟩
  have hlen : descriptorsOf lb = 2 * chunksOf lb + 1 := rfl
  refine ⟨fun k hk => ⟨?_, ?_⟩, ?_, by cases lb <;> rfl⟩
  · rw [show 32 * k + 12 = 16 * (2 * k) + 12 by omega, dmabuild_ctrl ha h (by omega), movedBytes_eq_ctrlBytes,
      kindOf_data hk, ctrlBytes_data hc]
  · rw [show 32 * k + 28 = 16 * (2 * k + 1) + 12 by omega, dmabuild_ctrl ha h (by omega), movedBytes_eq_ctrlBytes,
      kindOf_ecc, ctrlBytes_ecc hc]
  · rw [show 32 * chunksOf lb + 12 = 16 * (2 * chunksOf lb) + 12 by omega, dmabuild_ctrl ha h (by omega),
      movedBytes_eq_ctrlBytes, kindOf_spare]
    exact ctrlBytes_spare hc wr lb

end Sys2Proof.Machine
end

section
/-! The obligations of 60_exceptions.md: a rejected command word, and the mark of a run. -/

namespace Sys2Proof.Machine

open Sys2Proof Sys2Proof.Claims

/-! ### A `CMD` write and a window read on a marked run (R174) -/

theorem writeCmd_keeps_mark {w : Word} {s t : State} {m : Mark} (h : writeCmd w s = .next t) (hm : s.mark = some m) :
    t.mark = some m := by
  obtain ⟨-, rfl⟩ | ⟨-, rfl⟩ | ⟨i, -, h⟩ := writeCmd_next h
  · exact hm
  · exact hm
  · exact exec_keeps_mark h hm

theorem readWindow_keeps_mark (r : Option WindowReg) {s : State} {m : Mark} (hm : s.mark = some m) :
    (readWindow r s).mark = some m := by
  cases r with
  | none => exact hm
  | some r => rw [readWindow, State.giveHost_mark, State.noteHostRead_mark, hm]

/-! ### The mark of a misaligned command (R166) -/

/-- The alignment test and the mark it leaves do not depend on `CMD`. -/
theorem markAfterRejection_setCmd (i : Instr) (s : State) (w : Word) :
    markAfterRejection i (s.setCmd w) = markAfterRejection i s := by
  rw [markAfterRejection, testedRegs_congr fun r _ => s.setCmd_reg w r]; rfl

/-! ### The obligations -/

/-- Settles O9: a word that is no command raises its class's code, and a misaligned base is rejected from the state
that holds the word in `CMD`. -/
theorem rejectionChangesOnlyCmdAndStatus : Obligations.RejectionChangesOnlyCmdAndStatus := by
  refine fun s w => ⟨fun hd => ?_, fun hd => ?_, fun i hd ha => ?_⟩
  · rw [writeCmd, hd]; rfl
  · rw [writeCmd, hd]; rfl
  · obtain ⟨hmisaligned, -⟩ := misalignedBaseIsRejected
    rw [writeCmd_legal hd, hmisaligned i (s.setCmd w) ha, markAfterRejection_setCmd]; rfl

/-- Settles O53: the events that set a mark keep the one there is, and no other event writes it. -/
theorem markIsKeptForTheRun : Obligations.MarkIsKeptForTheRun := by
  intro s t m hm h
  cases step_cases h with
  | idle hp ht => rwa [ht]
  | command w es hp ht => exact writeCmd_keeps_mark ht hm
  | operand r v es hp ht => rwa [ht]
  | ignored o v es hp ho ht => rwa [ht]
  | hostRead o es hp ht => rw [ht]; exact readWindow_keeps_mark _ hm
  | hostLoad a n es hp ht => rwa [ht]
  | envWrite a bs es hp ht => rwa [ht, State.pokeBytes_mark]
  | platformReset es hp ht => rwa [ht]

end Sys2Proof.Machine
end
